-- ==== Sys2Proof/Word.lean ====
section
/-! DEFINITION. The words of DSEQ: the byte, the host command word and a line's electrical level. -/

namespace Sys2Proof

/-- A byte: a natural number in 0 to 255, bit 0 the least significant (rule R7). -/
abbrev Byte := BitVec 8

/-- A host command word: 11 bits, `op` in bits 10 to 8 and `arg` in bits 7 to 0 (rule R61). -/
abbrev Hcw := BitVec 11

/-- The electrical level of a line, 0 or 1 (rule R6, the parameters `POL_*`). -/
abbrev Level := BitVec 1

/-- The payload of a transport failure: opaque, passed on unchanged (rules R85, R172; U14).
A number names the failure, nothing in the model looks inside it. -/
abbrev FailInfo := Nat

end Sys2Proof
end

