-- ==== Sys2Proof/Config.lean ====
section
/-! DEFINITION. The implementation parameters of rules R4 and R6: the record of command codes, the delay
durations, line polarities, bit orders and bounds. The spec leaves every one of them open but the default bus
address; the model takes them as data (`State.params`), so a claim about every state is a claim about every
value of them. `Params.reference` is the test assignment `CFG_REF` of 92_eei_decisions.md D1: never normative. -/

namespace Sys2Proof

/-- A table with one byte for each rotation 0 to 3 (rule R4: `K_SCAN[0..3]`, `K_INC[0..3]`). -/
structure PerRotation where
  rot0 : Byte
  rot1 : Byte
  rot2 : Byte
  rot3 : Byte
  deriving DecidableEq, Repr

/-- The record `Codes` of rule R4: 27 byte-valued command codes, every one a parameter. -/
structure Codes where
  /-- `K_DISPLAY_OFF` (rule R100). -/
  displayOff : Byte
  /-- `K_DISPLAY_ON` (rule R101). -/
  displayOn : Byte
  /-- `K_SCROLL_BASE` (rule R102). -/
  scrollBase : Byte
  /-- `K_PAGE_BASE` (rule R103). -/
  pageBase : Byte
  /-- `K_COL_HI_BASE` (rule R104). -/
  colHiBase : Byte
  /-- `K_COL_LO_BASE` (rule R104). -/
  colLoBase : Byte
  /-- `K_CONTRAST_BASE` (rule R105). -/
  contrastBase : Byte
  /-- `K_INVERT_BASE` (rule R106). -/
  invertBase : Byte
  /-- `K_SCAN[0..3]` (rule R107). -/
  scan : PerRotation
  /-- `K_INC[0..3]` (rule R108). -/
  inc : PerRotation
  /-- `K_SOFT_RESET` (rule R109). -/
  softReset : Byte
  /-- `K_TEMP_COMP_INIT` (rule R110). -/
  tempCompInit : Byte
  /-- `K_POWER_CTRL_INIT` (rule R111). -/
  powerCtrlInit : Byte
  /-- `K_BIAS_INIT` (rule R112). -/
  biasInit : Byte
  /-- `K_EV_CMD` (rule R113). -/
  evCmd : Byte
  /-- `K_EV_INIT` (rule R113). -/
  evInit : Byte
  /-- `K_ANALOG_A` (rule R114). -/
  analogA : Byte
  /-- `K_ANALOG_B` (rule R115). -/
  analogB : Byte
  /-- `K_LINE_CFG` (rule R116). -/
  lineCfg : Byte
  /-- `K_COM_END_CMD` (rule R117). -/
  comEndCmd : Byte
  /-- `K_COM_END_INIT` (rule R117). -/
  comEndInit : Byte
  deriving DecidableEq, Repr

/-- `BITORDER_V`: which bit of a vertically packed byte is its top pixel (rules R6, R54). -/
inductive BitOrderV where
  | lsbTop
  | msbTop
  deriving DecidableEq, Repr

/-- `BITORDER_H`: which bit of a horizontally packed byte is its left pixel (rules R6, R55). -/
inductive BitOrderH where
  | lsbLeft
  | msbLeft
  deriving DecidableEq, Repr

/-- The parameters of rules R4 and R6 but the construction configuration. -/
structure Params where
  codes : Codes
  /-- `T_SHORT`, in the unit of the environment (rule R198: the spec gives none). -/
  tShort : Nat
  /-- `T_LONG` (rule R198). -/
  tLong : Nat
  /-- `POL_DC_CMD`: the level of the data/command line that means Command. -/
  polDcCmd : Level
  /-- `POL_CS_ASSERT`: the level of the chip-select line that means Asserted. -/
  polCsAssert : Level
  /-- `POL_RST_ASSERT`: the level of the reset line that means Asserted. -/
  polRstAssert : Level
  bitOrderV : BitOrderV
  bitOrderH : BitOrderH
  /-- `W_MAX`: the largest width admitted. -/
  wMax : Nat
  /-- `H_MAX`: the largest height admitted. -/
  hMax : Nat
  /-- `ADDR_BITS`: the width of a bus address. -/
  addrBits : Nat
  deriving DecidableEq, Repr

/-- `BUS_ADDR_DEFAULT`, the one parameter value the source fixes: 0x3C (rule R6). -/
def busAddrDefault : Nat := 0x3C

/-- The code part of `CFG_REF` (92_eei_decisions.md D1), for tests and for the opcode table's words; not normative. -/
def Codes.reference : Codes where
  displayOff := 0xAE
  displayOn := 0xAF
  scrollBase := 0x40
  pageBase := 0xB0
  colHiBase := 0x10
  colLoBase := 0x00
  contrastBase := 0x20
  invertBase := 0xA6
  scan := ⟨0xC0, 0xC2, 0xC6, 0xC4⟩
  inc := ⟨0x89, 0x8B, 0x89, 0x8B⟩
  softReset := 0xE2
  tempCompInit := 0x24
  powerCtrlInit := 0x2E
  biasInit := 0xEB
  evCmd := 0x81
  evInit := 0x40
  analogA := 0x84
  analogB := 0xA4
  lineCfg := 0xA0
  comEndCmd := 0xF1
  comEndInit := 0x3F

/-- `CFG_REF` (92_eei_decisions.md D1): durations in milliseconds. `BITORDER_H` has no value there; the one here
is DESIGN CHOICE, log entry 3. -/
def Params.reference : Params where
  codes := Codes.reference
  tShort := 1
  tLong := 10
  polDcCmd := 0
  polCsAssert := 0
  polRstAssert := 0
  bitOrderV := .lsbTop
  bitOrderH := .lsbLeft
  wMax := 256
  hMax := 128
  addrBits := 7

end Sys2Proof
end

