-- ==== Sys2Proof/Syntax.lean ====
section
/-! DEFINITION. The instruction set of DSEQ (rule R1): the host command words of rule R62, the eighteen wire
commands of rule R68 and the two accesses of the framebuffer port, one constructor per row of
spec/opcode_table.json; the construction configuration that is INIT's operand; and the encodings of rule R60. -/

namespace Sys2Proof

/-- Which transport is bound (rules R10, R80). -/
inductive Variant where
  | serial
  | bus
  deriving DecidableEq, Repr

/-- The framebuffer packing (rule R13). -/
inductive Mode where
  | vpack
  | hpack
  deriving DecidableEq, Repr

/-- The construction configuration of rule R10: INIT's operand, and the type of the configuration register bank
it is latched into. A host that names no bus address gives the default 0x3C (rule R6). -/
structure Cfg where
  variant : Variant
  width : Nat
  height : Nat
  rotationIn : Nat := 0
  hasDc : Bool := false
  hasCs : Bool := false
  hasRst : Bool := false
  busAddr : Nat := busAddrDefault
  deriving DecidableEq, Repr

/-- The least value of every register of rule R10's table in its declared range, on the variant that needs no
line (95_test_vectors.md O9 calls 1 by 8 the smallest legal geometry). The reset value of the bank; DESIGN
CHOICE, log entry 1. -/
def Cfg.least : Cfg := { variant := .bus, width := 1, height := 8 }

/-- The instructions of DSEQ, one per row of the opcode table. -/
inductive Instr where
  -- host command words (rule R62)
  /-- INIT: bring the display up with the configuration on the configuration inputs (rule R130). -/
  | init (cfg : Cfg)
  /-- POWEROFF (rule R152). -/
  | powerOff
  /-- POWERON (rule R151). -/
  | powerOn
  /-- CONTRAST: any level, only its low three bits count (rule R153). -/
  | contrast (level : Nat)
  /-- INVERT: any flag, taken as a truth value (rule R154). -/
  | invert (flag : Nat)
  /-- FLUSH (rule R155). -/
  | flush
  /-- The reserved host opcode 0b110 (rule R63). -/
  | reserved6
  /-- The reserved host opcode 0b111 (rule R63). -/
  | reserved7
  -- wire commands (rule R68)
  | dispOff
  | dispOn
  | scroll (line : Nat)
  | page (p : Nat)
  | col (c : Nat)
  | evr (r : Nat)
  | inv (f : Nat)
  | scan (rot : Fin 4)
  | inc (rot : Fin 4)
  | softReset
  | tempComp
  | powerCtrl
  | bias
  | ev2
  | analogA
  | analogB
  | lineCfg
  | comEnd
  -- the framebuffer port (rules R159, R160)
  | fbw (i : Nat) (v : Byte)
  | fbr (i : Nat)
  deriving DecidableEq, Repr

/-- An instruction as it is presented: a host command word, the bytes of one command transaction, or an access of
the framebuffer port, which has no bit encoding (rules R60, R71; 92_eei_decisions.md D18). -/
inductive Encoding where
  | hcw (w : Hcw)
  | wire (bs : List Byte)
  | portWrite (i : Nat) (v : Byte)
  | portRead (i : Nat)
  deriving DecidableEq, Repr

/-- One thing the host does to DSEQ between operations: the rows of rule R196's table, and hardware reset
(rule R190). -/
inductive HostStep where
  /-- Issue a host command word. -/
  | issue (w : Hcw)
  /-- Write one framebuffer byte. -/
  | draw (i : Nat) (v : Byte)
  /-- Read one framebuffer byte. -/
  | look (i : Nat)
  /-- Change the configuration inputs. -/
  | present (cfg : Cfg)
  /-- Hardware reset of DSEQ. -/
  | reset
  deriving DecidableEq, Repr

end Sys2Proof
end

