-- ==== Sys2Proof/WellFormed.lean ====
section
/-! DEFINITION. What the model requires of its parameters (`WF_CODES`, rule R5; the durations of rule R6), of a
construction configuration (`WF_CFG`, rule R10), and of an instruction so that its encoding holds all of its
operand (rules R61, R65). -/

namespace Sys2Proof

/-- `WF_CODES` (rule R5). That every field is in 0 to 255 is in its type. -/
def Codes.wf (K : Codes) : Bool :=
  K.displayOn != K.displayOff
  && K.contrastBase &&& 0x07 == 0
  && K.invertBase &&& 0x01 == 0
  && K.scrollBase &&& 0x3F == 0
  && K.pageBase &&& 0x0F == 0
  && K.colHiBase &&& 0x0F == 0
  && K.colLoBase &&& 0x0F == 0

/-- The parameters are admitted: `WF_CODES`, and `0 < T_SHORT < T_LONG` (rules R5, R6, R198). -/
def Params.wf (p : Params) : Bool :=
  p.codes.wf && decide (0 < p.tShort) && decide (p.tShort < p.tLong)

/-- The part of `WF_CFG` that no parameter bounds: a width of at least 1, a height of at least 8 that is a
multiple of 8 (rule R10). -/
def Cfg.shaped (c : Cfg) : Bool :=
  decide (1 ≤ c.width) && decide (8 ≤ c.height) && decide (c.height % 8 = 0)

/-- The bus address leaves room for the data address `A + 1`; asked of the Bus variant only (rule R10). -/
def Cfg.addressed (p : Params) (c : Cfg) : Bool :=
  match c.variant with
  | .serial => true
  | .bus => decide (c.busAddr + 1 < 2 ^ p.addrBits)

/-- `WF_CFG` (rule R10). -/
def Cfg.wf (p : Params) (c : Cfg) : Bool :=
  c.shaped && decide (c.width ≤ p.wMax) && decide (c.height ≤ p.hMax) && c.addressed p

/-- The configuration lacks a line that the Serial variant requires (rules R86, R131). -/
def Cfg.lacksLine (c : Cfg) : Bool :=
  c.variant == .serial && (!c.hasDc || !c.hasCs)

/-- The instruction's operand is one its encoding holds whole: eight bits of `arg` in a host command word
(rule R61), the field width of a packed wire command (rule R65). An operand outside is no error, it is masked
(rule R118); it only has another instruction's encoding. INIT's configuration must have a legal shape. -/
def wellFormed : Instr → Bool
  | .init cfg => cfg.shaped
  | .powerOff => true
  | .powerOn => true
  | .contrast level => decide (level < 256)
  | .invert flag => decide (flag < 256)
  | .flush => true
  | .reserved6 => true
  | .reserved7 => true
  | .dispOff => true
  | .dispOn => true
  | .scroll line => decide (line < 64)
  | .page p => decide (p < 16)
  | .col c => decide (c < 256)
  | .evr r => decide (r < 8)
  | .inv f => decide (f < 2)
  | .scan _ => true
  | .inc _ => true
  | .softReset => true
  | .tempComp => true
  | .powerCtrl => true
  | .bias => true
  | .ev2 => true
  | .analogA => true
  | .analogB => true
  | .lineCfg => true
  | .comEnd => true
  | .fbw _ _ => true
  | .fbr _ => true

end Sys2Proof
end

