-- ==== Sys2Proof/Machine/Operands.lean ====
section
/-! DEFINITION. Operand assembly (rule R65), the one orientation table (rule R123), and the eighteen wire command
functions (rules R100 to R117): each gives the bytes one command transaction carries, from its operand and the
`Codes` alone (rule R119). -/

namespace Sys2Proof.Machine

/-- The operand masked to its field width (rule R65). -/
def lowField (mask p : Nat) : Byte := BitVec.ofNat 8 (p &&& mask)

/-- Format W2: the masked operand OR'd into the low bits of the base code (rules R64, R65). -/
def packed (base : Byte) (mask p : Nat) : List Byte := [base ||| lowField mask p]

/-- The one-bit field of a truth value: 1 for any operand but 0; a test, not a mask (rule R106). -/
def truthBit (f : Nat) : Byte := if f ≠ 0 then 1 else 0

/-- Format W4: the high nibble of the column first, then the low nibble (rules R64, R104). -/
def nibblePair (hi lo : Byte) (c : Nat) : List Byte :=
  [hi ||| lowField 0x0F (c >>> 4), lo ||| lowField 0x0F c]

/-- One row of the orientation table: layout and command pair under one key (rule R123). -/
structure OrientationRow where
  mode : Mode
  swap : Bool
  scan : Byte
  inc : Byte
  deriving DecidableEq, Repr

/-- The four-entry orientation table (rules R121, R122, R123). -/
def orientationRow (K : Codes) : Fin 4 → OrientationRow
  | 0 => ⟨.vpack, false, K.scan.rot0, K.inc.rot0⟩
  | 1 => ⟨.hpack, true, K.scan.rot1, K.inc.rot1⟩
  | 2 => ⟨.vpack, false, K.scan.rot2, K.inc.rot2⟩
  | 3 => ⟨.hpack, true, K.scan.rot3, K.inc.rot3⟩

/-- The effective rotation `rotation_in & 0x03` (rules R12, R126). -/
def effectiveRotation (rotationIn : Nat) : Fin 4 := Fin.ofNat 4 (rotationIn &&& 0x03)

/-- Rule R100. -/
def dispOffBytes (K : Codes) : List Byte := [K.displayOff]
/-- Rule R101. -/
def dispOnBytes (K : Codes) : List Byte := [K.displayOn]
/-- Rule R102. -/
def scrollBytes (K : Codes) (line : Nat) : List Byte := packed K.scrollBase 0x3F line
/-- Rule R103. -/
def pageBytes (K : Codes) (p : Nat) : List Byte := packed K.pageBase 0x0F p
/-- Rule R104. -/
def colBytes (K : Codes) (c : Nat) : List Byte := nibblePair K.colHiBase K.colLoBase c
/-- Rule R105. -/
def evrBytes (K : Codes) (r : Nat) : List Byte := packed K.contrastBase 0x07 r
/-- Rule R106. -/
def invBytes (K : Codes) (f : Nat) : List Byte := [K.invertBase ||| truthBit f]
/-- Rule R107. -/
def scanBytes (K : Codes) (rot : Fin 4) : List Byte := [(orientationRow K rot).scan]
/-- Rule R108. -/
def incBytes (K : Codes) (rot : Fin 4) : List Byte := [(orientationRow K rot).inc]
/-- Rule R109. -/
def softResetBytes (K : Codes) : List Byte := [K.softReset]
/-- Rule R110. -/
def tempCompBytes (K : Codes) : List Byte := [K.tempCompInit]
/-- Rule R111. -/
def powerCtrlBytes (K : Codes) : List Byte := [K.powerCtrlInit]
/-- Rule R112. -/
def biasBytes (K : Codes) : List Byte := [K.biasInit]
/-- Rule R113. -/
def ev2Bytes (K : Codes) : List Byte := [K.evCmd, K.evInit]
/-- Rule R114. -/
def analogABytes (K : Codes) : List Byte := [K.analogA]
/-- Rule R115. -/
def analogBBytes (K : Codes) : List Byte := [K.analogB]
/-- Rule R116. -/
def lineCfgBytes (K : Codes) : List Byte := [K.lineCfg]
/-- Rule R117. -/
def comEndBytes (K : Codes) : List Byte := [K.comEndCmd, K.comEndInit]

end Sys2Proof.Machine
end

