-- ==== Sys2Proof/Decode.lean ====
section
/-! DEFINITION. Decoding and, after it, encoding. A host command word is always an instruction (rule R62, the two
reserved opcodes among them). DSEQ itself only encodes wire commands (rule R60); the model reads them back so that
the opcode table's words, and the commands of an action list, name an instruction. The bytes alone may fit several
commands (rule R67): the fixed commands are tried before the packed ones, log entry 8. -/

namespace Sys2Proof

/-- Why bytes are no wire command. -/
inductive DecodeError where
  /-- No byte at all. -/
  | emptyCommand
  /-- One byte that is the code of no one-byte command. -/
  | unknownByte (b : Byte)
  /-- Two bytes that are no two-byte command. -/
  | unknownPair (b0 b1 : Byte)
  /-- More than the two bytes a command can have (rule R67). -/
  | tooLong
  /-- A table word with more bits than any instruction has, or with none. -/
  | badWidth
  deriving DecidableEq, Repr

/-- `op = HCW[10:8]` (rule R61). -/
def hcwOp (w : Hcw) : BitVec 3 := w.extractLsb' 8 3

/-- `arg = HCW[7:0]` (rule R61). -/
def hcwArg (w : Hcw) : Byte := w.extractLsb' 0 8

/-- The opcode map of rule R62. `inputs` is what stands on the configuration inputs, INIT's operand (rule R61). -/
def decodeHcw (inputs : Cfg) (w : Hcw) : Instr :=
  match (hcwOp w).toNat with
  | 0 => .init inputs
  | 1 => .powerOff
  | 2 => .powerOn
  | 3 => .contrast (hcwArg w).toNat
  | 4 => .invert (hcwArg w).toNat
  | 5 => .flush
  | 6 => .reserved6
  | _ => .reserved7

/-- The fixed one-byte commands (format W1 of rule R64) but the orientation commands. -/
def decodeFixed (K : Codes) (b : Byte) : Option Instr :=
  if b = K.displayOff then some .dispOff
  else if b = K.displayOn then some .dispOn
  else if b = K.softReset then some .softReset
  else if b = K.tempCompInit then some .tempComp
  else if b = K.powerCtrlInit then some .powerCtrl
  else if b = K.biasInit then some .bias
  else if b = K.analogA then some .analogA
  else if b = K.analogB then some .analogB
  else if b = K.lineCfg then some .lineCfg
  else none

/-- The orientation commands, by table lookup (rules R107, R108). -/
def decodeOrientation (K : Codes) (b : Byte) : Option Instr :=
  if b = K.scan.rot0 then some (.scan 0)
  else if b = K.scan.rot1 then some (.scan 1)
  else if b = K.scan.rot2 then some (.scan 2)
  else if b = K.scan.rot3 then some (.scan 3)
  else if b = K.inc.rot0 then some (.inc 0)
  else if b = K.inc.rot1 then some (.inc 1)
  else if b = K.inc.rot2 then some (.inc 2)
  else if b = K.inc.rot3 then some (.inc 3)
  else none

/-- The packed one-byte commands (format W2 of rule R64): the bits above the field are the base code's. -/
def decodePacked (K : Codes) (b : Byte) : Option Instr :=
  if b &&& 0xC0 = K.scrollBase then some (.scroll (b &&& 0x3F).toNat)
  else if b &&& 0xF0 = K.pageBase then some (.page (b &&& 0x0F).toNat)
  else if b &&& 0xF8 = K.contrastBase then some (.evr (b &&& 0x07).toNat)
  else if b &&& 0xFE = K.invertBase then some (.inv (b &&& 0x01).toNat)
  else none

/-- A one-byte wire command. -/
def decodeByte (K : Codes) (b : Byte) : Option Instr :=
  (decodeFixed K b).or ((decodeOrientation K b).or (decodePacked K b))

/-- A two-byte wire command: W3 before W4 (rule R64). -/
def decodePair (K : Codes) (b0 b1 : Byte) : Option Instr :=
  if b0 = K.evCmd ∧ b1 = K.evInit then some .ev2
  else if b0 = K.comEndCmd ∧ b1 = K.comEndInit then some .comEnd
  else if b0 &&& 0xF0 = K.colHiBase ∧ b1 &&& 0xF0 = K.colLoBase then
    some (.col ((b0 &&& 0x0F).toNat * 16 + (b1 &&& 0x0F).toNat))
  else none

/-- The wire command that a command transaction's bytes spell. -/
def decodeWire (K : Codes) : List Byte → Except DecodeError Instr
  | [] => .error .emptyCommand
  | [b] => match decodeByte K b with
    | some i => .ok i
    | none => .error (.unknownByte b)
  | [b0, b1] => match decodePair K b0 b1 with
    | some i => .ok i
    | none => .error (.unknownPair b0 b1)
  | _ :: _ :: _ :: _ => .error .tooLong

/-- The decoder, total on every encoding. -/
def decode (K : Codes) (inputs : Cfg) : Encoding → Except DecodeError Instr
  | .hcw w => .ok (decodeHcw inputs w)
  | .wire bs => decodeWire K bs
  | .portWrite i v => .ok (.fbw i v)
  | .portRead i => .ok (.fbr i)

/-! ### The encoder -/

/-- A host command word from its two fields (rule R61). -/
def hcwWord (op arg : Nat) : Hcw := BitVec.ofNat 11 ((op &&& 0x07) <<< 8 ||| (arg &&& 0xFF))

/-- The `arg` that presents an INVERT flag: never 0 for a flag that is not 0; 256 presents 1 (rule R62). -/
def invertArg (flag : Nat) : Nat := if flag ≠ 0 ∧ flag &&& 0xFF = 0 then 1 else flag

/-- The encoding of an instruction (rules R61, R62, R64; the ignored `arg` bits are 0). -/
def encode (K : Codes) : Instr → Encoding
  | .init _ => .hcw (hcwWord 0 0)
  | .powerOff => .hcw (hcwWord 1 0)
  | .powerOn => .hcw (hcwWord 2 0)
  | .contrast level => .hcw (hcwWord 3 level)
  | .invert flag => .hcw (hcwWord 4 (invertArg flag))
  | .flush => .hcw (hcwWord 5 0)
  | .reserved6 => .hcw (hcwWord 6 0)
  | .reserved7 => .hcw (hcwWord 7 0)
  | .dispOff => .wire (Machine.dispOffBytes K)
  | .dispOn => .wire (Machine.dispOnBytes K)
  | .scroll line => .wire (Machine.scrollBytes K line)
  | .page p => .wire (Machine.pageBytes K p)
  | .col c => .wire (Machine.colBytes K c)
  | .evr r => .wire (Machine.evrBytes K r)
  | .inv f => .wire (Machine.invBytes K f)
  | .scan rot => .wire (Machine.scanBytes K rot)
  | .inc rot => .wire (Machine.incBytes K rot)
  | .softReset => .wire (Machine.softResetBytes K)
  | .tempComp => .wire (Machine.tempCompBytes K)
  | .powerCtrl => .wire (Machine.powerCtrlBytes K)
  | .bias => .wire (Machine.biasBytes K)
  | .ev2 => .wire (Machine.ev2Bytes K)
  | .analogA => .wire (Machine.analogABytes K)
  | .analogB => .wire (Machine.analogBBytes K)
  | .lineCfg => .wire (Machine.lineCfgBytes K)
  | .comEnd => .wire (Machine.comEndBytes K)
  | .fbw i v => .portWrite i v
  | .fbr i => .portRead i

/-! ### Words numbered as the opcode table numbers them -/

/-- The encoding that a word of the opcode table stands for. A row of 11 bits (given as 16) is a host command
word; a row of 8 bits is one wire byte; a row of 16 bits is two wire bytes, the first sent in bits 15 to 8, as the
table's `byte_order` says. No two-byte command of the table has its bits 15 to 11 all zero, a host command word
always has. -/
def tableEncoding (nbits w : Nat) : Except DecodeError Encoding :=
  if nbits = 0 ∨ 16 < nbits then .error .badWidth
  else if nbits ≤ 8 then .ok (.wire [BitVec.ofNat 8 w])
  else if w < 0x800 then .ok (.hcw (BitVec.ofNat 11 w))
  else .ok (.wire [BitVec.ofNat 8 (w / 256), BitVec.ofNat 8 w])

/-- The instruction the decoder reads from a word of the opcode table. The table's wire patterns are those of the
reference codes; the least configuration stands on the configuration inputs. -/
def decodeTableWord (nbits w : Nat) : Option Instr :=
  match tableEncoding nbits w with
  | .error _ => none
  | .ok e => match decode Codes.reference Cfg.least e with
    | .ok i => some i
    | .error _ => none

end Sys2Proof
end

