-- ==== Sys2Proof/Machine/State.lean ====
section
/-! DEFINITION. The state of DSEQ (10_state.md), as plain data, its value after hardware reset (rules R24, R190),
and the reasons a step can stop. Three kinds of field stand beside the spec's own registers: the parameters
(rules R4, R6), which nothing writes; the inputs the environment has ready (rules R10, R61, R88, R201); and the
record of what DSEQ has shown the outside (rules R9, R160, R201). INVENTORY.md lists them one by one. -/

namespace Sys2Proof.Machine

/-- The phase register (rule R14). -/
inductive Phase where
  | uninitialized
  | resetting
  | configuring
  | cleared
  | poweredOn
  | poweredOff
  | failed
  deriving DecidableEq, Repr

/-- `PoweredOn` and `PoweredOff` together (rule R14). -/
def Phase.postInit : Phase → Bool
  | .uninitialized => false
  | .resetting => false
  | .configuring => false
  | .cleared => false
  | .poweredOn => true
  | .poweredOff => true
  | .failed => false

/-- The abstract level of the data/command line (rule R20). -/
inductive DcLevel where
  | command
  | data
  deriving DecidableEq, Repr

/-- The abstract level of the chip-select line (rule R20). -/
inductive CsLevel where
  | asserted
  | deasserted
  deriving DecidableEq, Repr

/-- The abstract level of the reset line (rule R20). -/
inductive RstLevel where
  | asserted
  | released
  deriving DecidableEq, Repr

/-- The error kinds (rules R170, R184). -/
inductive ErrKind where
  | config
  | transport
  | state
  | illegalOp
  deriving DecidableEq, Repr

/-- The outcome of a finished operation (rule R16). -/
inductive Result where
  | ok
  | err (kind : ErrKind) (info : Option FailInfo)
  deriving DecidableEq, Repr

/-- The environment's answer to one primitive event (rule R88). -/
inductive Answer where
  | ok
  | fail (x : FailInfo)
  deriving DecidableEq, Repr

/-- The answers the environment has ready, one for each event but `Delay`: `script` in order, then `rest` for
every later event. The oracle is free (rule R88): both are any value. Log entry 4. -/
structure Oracle where
  script : List Answer
  rest : Answer
  deriving DecidableEq, Repr

/-- The kind of a transaction, and so of the bytes it carries (rules R9, R66). -/
inductive Tag where
  | command
  | data
  deriving DecidableEq, Repr

/-- The primitive events (rule R88). There is no read event (rule R90). -/
inductive Event where
  | writeBytes (addr : Option Nat) (bs : List Byte)
  | setDc (l : DcLevel)
  | setCs (l : CsLevel)
  | setRst (l : RstLevel)
  | delay (t : Nat)
  deriving DecidableEq, Repr

/-- One performed event: the transaction it belongs to, if any, and how it was answered (rules R9, R85). -/
structure TraceEntry where
  tag : Option Tag
  event : Event
  answer : Answer
  deriving DecidableEq, Repr

/-- The actions an operation is made of (rule R142). `data` carries no bytes: they are read from the framebuffer
when the action starts. -/
inductive Action where
  | cmd (bs : List Byte)
  | data
  | line (l : RstLevel)
  | wait (t : Nat)
  | fill0
  | phase (p : Phase)
  deriving DecidableEq, Repr

/-- The operation in progress, with its operand already masked (rules R153, R154). -/
inductive Op where
  | init
  | powerOff
  | powerOn
  | contrast (level : BitVec 3)
  | invert (bit : BitVec 1)
  | flush
  deriving DecidableEq, Repr

/-- The derived geometry registers (rules R11, R12, R13). -/
structure Geometry where
  pages : Nat
  n : Nat
  rot : Fin 4
  mode : Mode
  lwidth : Nat
  lheight : Nat
  deriving DecidableEq, Repr

structure State where
  /-- The parameters (rules R4, R6): written by nothing. -/
  params : Params
  /-- The host steps still to come, oldest first (rule R201). -/
  inputs : List HostStep
  /-- What stands on the configuration inputs (rules R10, R61). -/
  cfgIn : Cfg
  /-- The answers to the events still to come (rule R88). -/
  oracle : Oracle
  /-- The configuration registers `width`, `height`, `rotation_in`, `variant`, `has_dc`, `has_cs`, `has_rst`,
  `bus_addr` (rule R10). -/
  cfg : Cfg
  /-- The derived registers `pages`, `N`, `rot`, `mode`, `lwidth`, `lheight` (rules R11 to R13). -/
  geo : Geometry
  /-- Rule R14. -/
  phase : Phase
  /-- Rule R15. -/
  upc : Nat
  /-- Rule R16. -/
  busy : Bool
  /-- Rule R16. -/
  result : Result
  /-- The contrast shadow, `none` until a CONTRAST has completed (rules R17, R24). -/
  contrast : Option (BitVec 3)
  /-- The invert shadow, `none` until an INVERT has completed (rules R18, R24). -/
  invert : Option (BitVec 1)
  /-- Rule R20. -/
  dc : DcLevel
  /-- Rule R20. -/
  cs : CsLevel
  /-- Rule R20. -/
  rst : RstLevel
  /-- The framebuffer `FB` (rule R21): index and byte, indices strictly rising; an index below `N` that is not
  listed holds no value yet (rules R24, R130). -/
  fb : List Host.Cell
  /-- The operation in progress (rule R15). -/
  op : Option Op
  /-- The actions of the operation in progress that are still to be performed (rule R142). -/
  pending : List Action
  /-- The event trace (rule R9), oldest first. -/
  trace : List TraceEntry
  /-- The results reported so far (rule R201), oldest first. -/
  results : List Result
  /-- What the read port has returned so far (rule R160), oldest first: index and byte. -/
  reads : List Host.Cell
  deriving DecidableEq, Repr

/-- The reasons the machine faults. -/
inductive Fault where
  /-- A framebuffer byte that nothing has written since INIT allocated it was read: by FLUSH, by the data action
  of an operation in progress, or by the read port. Rule R24: a read of an unspecified element faults the model.
  Safe. No run from reset reaches it. -/
  | unwrittenFramebuffer
  deriving DecidableEq, Repr

/-- The reasons the model gives a step no meaning. -/
inductive Refusal where
  /-- An instruction that exec's arm rejects by name. Safe. No arm does. -/
  | notModelled (mnemonic : String)
  /-- A host operation or port access while an operation is in progress: the host has no move (rules R47, R50,
  R196; U2 `refuse`). Raised by every host instruction. Safe. -/
  | hostMoveWhileBusy
  /-- INIT with parameters that fail rule R5 or R6 (U10 `refuse`). Safe. -/
  | paramsNotWellFormed
  /-- INIT with a configuration that fails `WF_CFG` (rule R10; U3, U15 `refuse`). Safe. -/
  | configNotWellFormed
  /-- A port access outside the post-init phases (rule R161; U6 `refuse`). Safe. -/
  | portNotPostInit
  /-- A port access at an index of `N` or more (rule R161; U6 `refuse`). Safe. -/
  | portIndexOutOfRange
  /-- The operation in progress is to send bytes that are no wire command (rule R69: no action list holds such).
  Raised by the fetch. Safe. -/
  | undecodable (e : DecodeError)
  deriving DecidableEq, Repr

/-- Hardware reset (rules R24, R190). The values of `phase`, `busy`, `result`, `cs`, `contrast` and `invert` are
the spec's; every other register is unspecified there and holds the value log entry 1 names (DESIGN CHOICE); the
parameters, the inputs and the oracle hold the values log entries 2 to 4 name (DESIGN CHOICE). -/
def State.reset : State where
  params := Params.reference
  inputs := []
  cfgIn := Cfg.least
  oracle := ⟨[], .ok⟩
  cfg := Cfg.least
  geo := ⟨1, 1, 0, .vpack, 1, 8⟩
  phase := .uninitialized
  upc := 0
  busy := false
  result := .ok
  contrast := none
  invert := none
  dc := .command
  cs := .deasserted
  rst := .released
  fb := []
  op := none
  pending := []
  trace := []
  results := []
  reads := []

end Sys2Proof.Machine
end

