-- ==== Sys2Proof/Machine/Flags.lean ====
section
/-! DEFINITION. The status registers `busy` and `result` and everything that writes them (rules R16, R26), the
code table (rule R184), and the shadows and phase an operation leaves when it ends `Ok`. -/

namespace Sys2Proof.Machine

/-- The code of an error kind (rule R184). -/
def ErrKind.code : ErrKind → Nat
  | .config => 1
  | .transport => 2
  | .state => 3
  | .illegalOp => 4

/-- The `kind` field of `result` as a number (rule R184). -/
def Result.code : Result → Nat
  | .ok => 0
  | .err k _ => k.code

/-- The kinds that leave `Failed` when they end INIT (rule R178, point 3). -/
def ErrKind.fatalToInit : ErrKind → Bool
  | .config => true
  | .transport => true
  | .state => false
  | .illegalOp => false

/-- An operation is accepted: `busy` rises, `upc` is 0, the action list is the operation's (rules R15, R16,
R142). -/
def accept (o : Op) (actions : List Action) (s : State) : State :=
  { s with busy := true, upc := 0, op := some o, pending := actions }

/-- An operation's outcome is reported: `result` is written and `busy` falls (rules R16, R26). -/
def report (r : Result) (s : State) : State :=
  { s with busy := false, op := none, pending := [], result := r, results := s.results ++ [r] }

/-- What an operation writes when its last action has completed (rules R151 to R154). INIT's phases are among its
actions (rule R144). -/
def commit (o : Option Op) (s : State) : State :=
  match o with
  | none => s
  | some .init => s
  | some .powerOff => { s with phase := .poweredOff }
  | some .powerOn => { s with phase := .poweredOn }
  | some (.contrast level) => { s with contrast := some level }
  | some (.invert bit) => { s with invert := some bit }
  | some .flush => s

/-- An operation ends `Ok` (rules R142, R201). -/
def finish (s : State) : State := report .ok (commit s.op s)

end Sys2Proof.Machine
end

