-- ==== Sys2Proof/Machine/Ops.lean ====
section
/-! DEFINITION. The shared operations: the framebuffer as a memory (20_memory.md), primitive events and the
transport (40_transport.md), the error entry (rule R178), the executor (rule R142), the geometry, the action lists
(rules R144, R155) and hardware reset (rule R190). -/

namespace Sys2Proof.Machine

/-! ### The framebuffer -/

/-- What an index that is not listed reads as: no value (rule R24; log entry 5). -/
def Memory.unlisted : Option Byte := none

/-- The canonical form: indices strictly rising. No listed byte equals what an unlisted index reads as, which is no
byte. -/
def Memory.wf : List Host.Cell → Bool
  | [] => true
  | [_] => true
  | a :: b :: m => decide (a.1 < b.1) && Memory.wf (b :: m)

/-- `MemRead(i, 1)` (rule R9). -/
def memRead : List Host.Cell → Nat → Option Byte
  | [], _ => Memory.unlisted
  | (a, v) :: m, i => if a = i then some v else memRead m i

/-- `MemWrite(i, 1, v)` (rule R9): in place, keeping the indices rising. -/
def memWrite : List Host.Cell → Nat → Byte → List Host.Cell
  | [], i, v => [(i, v)]
  | (a, w) :: m, i, v =>
    if i < a then (i, v) :: (a, w) :: m
    else if i = a then (i, v) :: m
    else (a, w) :: memWrite m i v

/-- `Fill0` over the indices below `n` (rule R142). The writes go from the highest index down: no event is
performed between them, so their order cannot be seen. -/
def fillZero : Nat → List Host.Cell → List Host.Cell
  | 0, m => m
  | n + 1, m => fillZero n (memWrite m n 0)

/-- The bytes at `i`, `i + 1`, … for `k` indices, if every one holds a value. -/
def readFrom (m : List Host.Cell) : Nat → Nat → Option (List Byte)
  | _, 0 => some []
  | i, k + 1 =>
    match memRead m i, readFrom m (i + 1) k with
    | some v, some vs => some (v :: vs)
    | _, _ => none

/-- The whole framebuffer in ascending index order (rule R42). -/
def framebufferBytes (s : State) : Option (List Byte) := readFrom s.fb 0 s.geo.n

/-! ### Primitive events -/

/-- The environment's next answer, and the oracle after it (rule R88). -/
def Oracle.next (o : Oracle) : Answer × Oracle :=
  match o.script with
  | [] => (o.rest, o)
  | a :: as => (a, { o with script := as })

/-- An event and its answer are appended to the trace (rule R9). -/
def record (tag : Option Tag) (e : Event) (a : Answer) (s : State) : State :=
  { s with trace := s.trace ++ [⟨tag, e, a⟩] }

/-- The line register that a `SetLine` event writes when it completes (rule R20). -/
def driveLine (e : Event) (s : State) : State :=
  match e with
  | .setDc l => { s with dc := l }
  | .setCs l => { s with cs := l }
  | .setRst l => { s with rst := l }
  | .writeBytes _ _ => s
  | .delay _ => s

/-- An event that the environment answers: on `ok` its line register is written, on `fail(x)` it is only recorded
(rules R85, R88). -/
def emitAnswered (tag : Option Tag) (e : Event) (s : State) : Option FailInfo × State :=
  let (a, o) := s.oracle.next
  let s' := record tag e a { s with oracle := o }
  match a with
  | .ok => (none, driveLine e s')
  | .fail x => (some x, s')

/-- `emit(e)` (rule R9). `Delay` always answers `ok`, and not from the oracle (rule R88). -/
def emit (tag : Option Tag) (e : Event) (s : State) : Option FailInfo × State :=
  match e with
  | .delay t => (none, record tag (.delay t) .ok s)
  | .writeBytes a bs => emitAnswered tag (.writeBytes a bs) s
  | .setDc l => emitAnswered tag (.setDc l) s
  | .setCs l => emitAnswered tag (.setCs l) s
  | .setRst l => emitAnswered tag (.setRst l) s

/-- Events in order, up to the first that fails (rule R85). -/
def emitAll (tag : Option Tag) : List Event → State → Option FailInfo × State
  | [], s => (none, s)
  | e :: es, s =>
    match emit tag e s with
    | (none, s') => emitAll tag es s'
    | (some x, s') => (some x, s')

/-! ### The transport -/

/-- The level of the data/command line for a transaction (rules R81, R82). -/
def Tag.dcLevel : Tag → DcLevel
  | .command => .command
  | .data => .data

/-- The bus address of a transaction: `A` for commands, `A + 1` for data, without wrap (rules R45, R83, R84). -/
def Tag.busAddr (a : Nat) : Tag → Nat
  | .command => a
  | .data => a + 1

/-- The primitive events of `Cmd(bs)` and `Data(bs)` (rules R81 to R84). -/
def transaction (c : Cfg) (t : Tag) (bs : List Byte) : List Event :=
  match c.variant with
  | .serial => [.setDc t.dcLevel, .setCs .asserted, .writeBytes none bs, .setCs .deasserted]
  | .bus => [.writeBytes (some (t.busAddr c.busAddr)) bs]

/-- One transaction (rule R80). -/
def send (t : Tag) (bs : List Byte) (s : State) : Option FailInfo × State :=
  emitAll (some t) (transaction s.cfg t bs) s

/-! ### The error entry -/

/-- `raise Err(kind, info)` (rule R178): the operation stops, `result` is written, `phase` becomes `Failed` exactly
when the operation is INIT and the kind is CONFIG or TRANSPORT, `busy` falls, and nothing is repaired. There is no
saved program counter, no handler and no return: control goes back to the host (rules R178, R179). -/
def raiseErr (k : ErrKind) (info : Option FailInfo) (s : State) : State :=
  report (.err k info)
    { s with phase := if s.op = some .init ∧ k.fatalToInit = true then .failed else s.phase }

/-! ### The executor -/

/-- How one action ended. -/
inductive Performed where
  | ok (s : State)
  | failed (x : FailInfo) (s : State)
  | fault (f : Fault)
  deriving DecidableEq, Repr

/-- How an action whose events have been performed ended. -/
def performedOf (r : Option FailInfo × State) : Performed :=
  match r with
  | (none, s) => .ok s
  | (some x, s) => .failed x s

/-- What an action does (the action table of rule R142). -/
def perform (a : Action) (s : State) : Performed :=
  match a with
  | .cmd bs => performedOf (send .command bs s)
  | .data =>
    match framebufferBytes s with
    | some bs => performedOf (send .data bs s)
    | none => .fault .unwrittenFramebuffer
  | .line l => performedOf (emitAll none [.setRst l] s)
  | .wait t => performedOf (emitAll none [.delay t] s)
  | .fill0 => .ok { s with fb := fillZero s.geo.n s.fb }
  | .phase p => .ok { s with phase := p }

/-- `Phase` actions are not counted by `upc` (rule R144). -/
def Action.counted : Action → Bool
  | .cmd _ => true
  | .data => true
  | .line _ => true
  | .wait _ => true
  | .fill0 => true
  | .phase _ => false

/-- `upc` after an action that completed with `ok` (rules R15, R142, R144). -/
def countAction (a : Action) (s : State) : State :=
  { s with upc := if a.counted then s.upc + 1 else s.upc }

/-- How one turn of the executor's loop ended. -/
inductive Turn where
  | done (s : State)
  | aborted (s : State)
  | fault (f : Fault)
  deriving DecidableEq, Repr

/-- One turn of the executor's loop (rule R142): the action, then `upc`, or the error entry (rules R140, R157). -/
def turn (a : Action) (s : State) : Turn :=
  match perform a s with
  | .ok s' => .done (countAction a s')
  | .failed x s' => .aborted (raiseErr .transport (some x) s')
  | .fault f => .fault f

/-- The executor (rule R142) from the actions still to be performed to the report of the result. -/
def run : List Action → State → Host.Outcome State Fault Refusal
  | [], s => .next (finish s)
  | a :: as, s =>
    match turn a { s with pending := as } with
    | .done s' => run as s'
    | .aborted s' => .next s'
    | .fault f => .fault f

/-- One wire command on its own: one command transaction as the action in hand of the executor (rules R87, R142). -/
def sendCommand (bs : List Byte) (s : State) : Host.Outcome State Fault Refusal :=
  match turn (.cmd bs) s with
  | .done s' => .next s'
  | .aborted s' => .next s'
  | .fault f => .fault f

/-! ### Geometry and action lists -/

/-- The derived registers that INIT computes (rules R11, R12, R13, R121). -/
def geometry (K : Codes) (c : Cfg) : Geometry :=
  let rot := effectiveRotation c.rotationIn
  let row := orientationRow K rot
  { pages := c.height / 8
    n := c.height / 8 * c.width
    rot := rot
    mode := row.mode
    lwidth := if row.swap then c.height else c.width
    lheight := if row.swap then c.width else c.height }

/-- The reset step of the controller chip: the hardware path (rule R132) or the software path (rule R133). -/
def resetActions (p : Params) (hasRst : Bool) : List Action :=
  if hasRst then
    [.wait p.tShort, .line .asserted, .wait p.tLong, .line .released, .wait p.tShort]
  else
    [.cmd (softResetBytes p.codes), .wait p.tLong]

/-- The base command list (rule R135). -/
def baseActions (K : Codes) : List Action :=
  [.cmd (dispOffBytes K), .cmd (tempCompBytes K), .cmd (powerCtrlBytes K), .cmd (biasBytes K), .cmd (ev2Bytes K),
   .cmd (scrollBytes K 0), .cmd (analogABytes K), .cmd (analogBBytes K), .cmd (lineCfgBytes K),
   .cmd (comEndBytes K)]

/-- The orientation pair, scan direction first (rules R122, R136). -/
def orientationActions (K : Codes) (rot : Fin 4) : List Action := [.cmd (scanBytes K rot), .cmd (incBytes K rot)]

/-- The three actions of a flush (rules R138, R155). -/
def flushActions (K : Codes) : List Action := [.cmd (pageBytes K 0), .cmd (colBytes K 0), .data]

/-- The whole action list of INIT (rule R144). -/
def initActions (p : Params) (hasRst : Bool) (rot : Fin 4) : List Action :=
  [.phase .resetting] ++ resetActions p hasRst
    ++ [.phase .configuring] ++ baseActions p.codes ++ orientationActions p.codes rot
    ++ [.fill0] ++ flushActions p.codes ++ [.phase .cleared]
    ++ [.cmd (dispOnBytes p.codes), .phase .poweredOn]

/-- A runtime operation (rules R47, R142, R150): no move while `busy`, `Err(STATE)` outside the post-init phases. -/
def runtimeOp (o : Op) (actions : List Action) (s : State) : Host.Outcome State Fault Refusal :=
  if s.busy then .refused .hostMoveWhileBusy
  else if s.phase.postInit then run actions (accept o actions s)
  else .next (raiseErr .state none s)

/-! ### Hardware reset -/

/-- Hardware reset of DSEQ (rule R190): every register as `State.reset` has it; the parameters, the inputs, the
oracle and what has been shown the outside stay; no event is performed. -/
def hardwareReset (s : State) : State :=
  { State.reset with
    params := s.params
    inputs := s.inputs
    cfgIn := s.cfgIn
    oracle := s.oracle
    trace := s.trace
    results := s.results
    reads := s.reads }

end Sys2Proof.Machine
end

