-- ==== Sys2Proof/Machine/Init.lean ====
section
/-! DEFINITION. INIT, the initialisation state machine (43_init_sequencer.md), and the two reserved host opcodes. -/

namespace Sys2Proof.Machine

/-- INIT's first step: the configuration registers are latched and the operation is under way (rule R130.1). -/
def latchConfig (cfg : Cfg) (s : State) : State :=
  { accept .init [] s with cfg := cfg }

/-- INIT's third step: the derived registers are computed and the framebuffer is allocated, its bytes holding no
value yet (rule R130.3). -/
def allocate (s : State) : State :=
  { s with geo := geometry s.params.codes s.cfg, fb := [] }

/-- INIT (rules R130, R131, R177): STATE before CONFIG, CONFIG before any event. -/
def execInit (cfg : Cfg) (s : State) : Host.Outcome State Fault Refusal :=
  if s.busy then .refused .hostMoveWhileBusy
  else if s.phase ≠ .uninitialized then .next (raiseErr .state none s)
  else if ¬ s.params.wf then .refused .paramsNotWellFormed
  else if ¬ cfg.wf s.params then .refused .configNotWellFormed
  else if cfg.lacksLine then .next (raiseErr .config none (latchConfig cfg s))
  else
    let s' := allocate (latchConfig cfg s)
    run (initActions s'.params s'.cfg.hasRst s'.geo.rot) s'

/-- A reserved host opcode (rules R63, R175): `Err(ILLEGAL_OP)` in every phase, before any other check. -/
def reservedOp (s : State) : Host.Outcome State Fault Refusal :=
  if s.busy then .refused .hostMoveWhileBusy
  else .next (raiseErr .illegalOp none s)

/-- The reserved opcode 0b110 (rule R63). -/
def execReserved6 (s : State) : Host.Outcome State Fault Refusal := reservedOp s

/-- The reserved opcode 0b111 (rule R63). -/
def execReserved7 (s : State) : Host.Outcome State Fault Refusal := reservedOp s

end Sys2Proof.Machine
end

