-- ==== Sys2Proof/Machine/Port.lean ====
section
/-! DEFINITION. The framebuffer port (rules R159, R160, R161): the host's byte writes and reads, between
operations, in the post-init phases, at indices below `N`. No event, no flag. -/

namespace Sys2Proof.Machine

/-- Whether the port gives the access a meaning (rules R47, R161). -/
def portCheck (i : Nat) (s : State) : Option Refusal :=
  if s.busy then some .hostMoveWhileBusy
  else if ¬ s.phase.postInit then some .portNotPostInit
  else if s.geo.n ≤ i then some .portIndexOutOfRange
  else none

/-- `fbw(i, v)` (rule R159). -/
def execFbw (i : Nat) (v : Byte) (s : State) : Host.Outcome State Fault Refusal :=
  match portCheck i s with
  | some r => .refused r
  | none => .next { s with fb := memWrite s.fb i v }

/-- `fbr(i)` (rule R160): the byte is returned to the host. -/
def execFbr (i : Nat) (s : State) : Host.Outcome State Fault Refusal :=
  match portCheck i s with
  | some r => .refused r
  | none =>
    match memRead s.fb i with
    | some v => .next { s with reads := s.reads ++ [(i, v)] }
    | none => .fault .unwrittenFramebuffer

end Sys2Proof.Machine
end

