-- ==== Sys2Proof/Machine/Runtime.lean ====
section
/-! DEFINITION. The runtime operations (44_runtime_ops.md). Every accepted operation sends its whole action list,
whatever the shadows hold (rule R158). -/

namespace Sys2Proof.Machine

/-- POWEROFF (rule R152). -/
def execPowerOff (s : State) : Host.Outcome State Fault Refusal :=
  runtimeOp .powerOff [.cmd (dispOffBytes s.params.codes)] s

/-- POWERON (rule R151). -/
def execPowerOn (s : State) : Host.Outcome State Fault Refusal :=
  runtimeOp .powerOn [.cmd (dispOnBytes s.params.codes)] s

/-- CONTRAST (rule R153): the shadow is `level & 0x07`. -/
def execContrast (level : Nat) (s : State) : Host.Outcome State Fault Refusal :=
  runtimeOp (.contrast (BitVec.ofNat 3 (level &&& 0x07))) [.cmd (evrBytes s.params.codes level)] s

/-- INVERT (rule R154): the shadow is 1 for any flag but 0. -/
def execInvert (flag : Nat) (s : State) : Host.Outcome State Fault Refusal :=
  runtimeOp (.invert (if flag ≠ 0 then 1 else 0)) [.cmd (invBytes s.params.codes flag)] s

/-- FLUSH (rule R155). -/
def execFlush (s : State) : Host.Outcome State Fault Refusal :=
  runtimeOp .flush (flushActions s.params.codes) s

end Sys2Proof.Machine
end

