-- ==== Sys2Proof/Machine/Wire.lean ====
section
/-! DEFINITION. The eighteen wire commands (41_command_set.md): each is one command transaction carrying the bytes
of its command function (rule R87), performed by the executor as one action. -/

namespace Sys2Proof.Machine

/-- Rule R100. -/
def execDispOff (s : State) : Host.Outcome State Fault Refusal :=
  sendCommand (dispOffBytes s.params.codes) s

/-- Rule R101. -/
def execDispOn (s : State) : Host.Outcome State Fault Refusal :=
  sendCommand (dispOnBytes s.params.codes) s

/-- Rule R102. -/
def execScroll (line : Nat) (s : State) : Host.Outcome State Fault Refusal :=
  sendCommand (scrollBytes s.params.codes line) s

/-- Rule R103. -/
def execPage (p : Nat) (s : State) : Host.Outcome State Fault Refusal :=
  sendCommand (pageBytes s.params.codes p) s

/-- Rule R104. -/
def execCol (c : Nat) (s : State) : Host.Outcome State Fault Refusal :=
  sendCommand (colBytes s.params.codes c) s

/-- Rule R105. -/
def execEvr (r : Nat) (s : State) : Host.Outcome State Fault Refusal :=
  sendCommand (evrBytes s.params.codes r) s

/-- Rule R106. -/
def execInv (f : Nat) (s : State) : Host.Outcome State Fault Refusal :=
  sendCommand (invBytes s.params.codes f) s

/-- Rule R107. -/
def execScan (rot : Fin 4) (s : State) : Host.Outcome State Fault Refusal :=
  sendCommand (scanBytes s.params.codes rot) s

/-- Rule R108. -/
def execInc (rot : Fin 4) (s : State) : Host.Outcome State Fault Refusal :=
  sendCommand (incBytes s.params.codes rot) s

/-- Rule R109. -/
def execSoftReset (s : State) : Host.Outcome State Fault Refusal :=
  sendCommand (softResetBytes s.params.codes) s

/-- Rule R110. -/
def execTempComp (s : State) : Host.Outcome State Fault Refusal :=
  sendCommand (tempCompBytes s.params.codes) s

/-- Rule R111. -/
def execPowerCtrl (s : State) : Host.Outcome State Fault Refusal :=
  sendCommand (powerCtrlBytes s.params.codes) s

/-- Rule R112. -/
def execBias (s : State) : Host.Outcome State Fault Refusal :=
  sendCommand (biasBytes s.params.codes) s

/-- Rule R113. -/
def execEv2 (s : State) : Host.Outcome State Fault Refusal :=
  sendCommand (ev2Bytes s.params.codes) s

/-- Rule R114. -/
def execAnalogA (s : State) : Host.Outcome State Fault Refusal :=
  sendCommand (analogABytes s.params.codes) s

/-- Rule R115. -/
def execAnalogB (s : State) : Host.Outcome State Fault Refusal :=
  sendCommand (analogBBytes s.params.codes) s

/-- Rule R116. -/
def execLineCfg (s : State) : Host.Outcome State Fault Refusal :=
  sendCommand (lineCfgBytes s.params.codes) s

/-- Rule R117. -/
def execComEnd (s : State) : Host.Outcome State Fault Refusal :=
  sendCommand (comEndBytes s.params.codes) s

end Sys2Proof.Machine
end

