-- ==== Sys2Proof/Machine/Dispatch.lean ====
section
/-! DEFINITION. exec: one arm per instruction, each one direct call of its meaning. -/

namespace Sys2Proof.Machine

def exec (i : Instr) (s : State) : Host.Outcome State Fault Refusal :=
  match i with
  -- host command words
  | .init cfg => Sys2Proof.Machine.execInit cfg s
  | .powerOff => Sys2Proof.Machine.execPowerOff s
  | .powerOn => Sys2Proof.Machine.execPowerOn s
  | .contrast level => Sys2Proof.Machine.execContrast level s
  | .invert flag => Sys2Proof.Machine.execInvert flag s
  | .flush => Sys2Proof.Machine.execFlush s
  | .reserved6 => Sys2Proof.Machine.execReserved6 s
  | .reserved7 => Sys2Proof.Machine.execReserved7 s
  -- wire commands
  | .dispOff => Sys2Proof.Machine.execDispOff s
  | .dispOn => Sys2Proof.Machine.execDispOn s
  | .scroll line => Sys2Proof.Machine.execScroll line s
  | .page p => Sys2Proof.Machine.execPage p s
  | .col c => Sys2Proof.Machine.execCol c s
  | .evr r => Sys2Proof.Machine.execEvr r s
  | .inv f => Sys2Proof.Machine.execInv f s
  | .scan rot => Sys2Proof.Machine.execScan rot s
  | .inc rot => Sys2Proof.Machine.execInc rot s
  | .softReset => Sys2Proof.Machine.execSoftReset s
  | .tempComp => Sys2Proof.Machine.execTempComp s
  | .powerCtrl => Sys2Proof.Machine.execPowerCtrl s
  | .bias => Sys2Proof.Machine.execBias s
  | .ev2 => Sys2Proof.Machine.execEv2 s
  | .analogA => Sys2Proof.Machine.execAnalogA s
  | .analogB => Sys2Proof.Machine.execAnalogB s
  | .lineCfg => Sys2Proof.Machine.execLineCfg s
  | .comEnd => Sys2Proof.Machine.execComEnd s
  -- the framebuffer port
  | .fbw idx v => Sys2Proof.Machine.execFbw idx v s
  | .fbr idx => Sys2Proof.Machine.execFbr idx s

end Sys2Proof.Machine
end

