-- ==== Sys2Proof/Machine/Fetch.lean ====
section
/-! DEFINITION. What DSEQ does next. While an operation is in progress it is that operation's next action (rule
R142), a command transaction being the wire command its bytes spell; otherwise the host's next step (rule R201); and
with neither, DSEQ waits for the host (rule R190). -/

namespace Sys2Proof.Machine

/-- What was fetched, with the state the step goes on from. -/
inductive Fetched where
  /-- Nothing to do: DSEQ waits. -/
  | idle
  /-- An instruction. -/
  | instr (i : Instr) (s : State)
  /-- An action of the operation in progress that is no wire command. -/
  | action (a : Action) (s : State)
  /-- The operation in progress has no action left: it ends. -/
  | finished
  /-- The configuration inputs change. -/
  | present (cfg : Cfg) (s : State)
  /-- Hardware reset. -/
  | reset (s : State)
  /-- Bytes that are no wire command. -/
  | undecodable (e : DecodeError)
  deriving DecidableEq, Repr

/-- Decode, then go on from `s`. -/
def fetchEncoding (e : Encoding) (s : State) : Fetched :=
  match decode s.params.codes s.cfgIn e with
  | .ok i => .instr i s
  | .error r => .undecodable r

/-- The next action of the operation in progress (rule R142). -/
def fetchAction (s : State) : Fetched :=
  match s.pending with
  | [] => .finished
  | .cmd bs :: rest => fetchEncoding (.wire bs) { s with pending := rest }
  | .data :: rest => .action .data { s with pending := rest }
  | .line l :: rest => .action (.line l) { s with pending := rest }
  | .wait t :: rest => .action (.wait t) { s with pending := rest }
  | .fill0 :: rest => .action .fill0 { s with pending := rest }
  | .phase p :: rest => .action (.phase p) { s with pending := rest }

/-- The host's next step (rules R196, R201). -/
def fetchHostStep (s : State) : Fetched :=
  match s.inputs with
  | [] => .idle
  | .issue w :: rest => fetchEncoding (.hcw w) { s with inputs := rest }
  | .draw i v :: rest => fetchEncoding (.portWrite i v) { s with inputs := rest }
  | .look i :: rest => fetchEncoding (.portRead i) { s with inputs := rest }
  | .present cfg :: rest => .present cfg { s with inputs := rest }
  | .reset :: rest => .reset { s with inputs := rest }

/-- What comes next: the host has no move while an operation is in progress (rules R47, R196). -/
def fetch (s : State) : Fetched :=
  if s.busy then fetchAction s else fetchHostStep s

/-- What was fetched is carried out. -/
def carryOut (f : Fetched) (s : State) : Host.Outcome State Fault Refusal :=
  match f with
  | .idle => .next s
  | .instr i s' => exec i s'
  | .action a s' =>
    match turn a s' with
    | .done t => .next t
    | .aborted t => .next t
    | .fault r => .fault r
  | .finished => .next (finish s)
  | .present cfg s' => .next { s' with cfgIn := cfg }
  | .reset s' => .next (hardwareReset s')
  | .undecodable e => .refused (.undecodable e)

/-- `s` with an encoding placed where `fetch` finds its next instruction: a host command word or a port access as
the host's next step, with no operation in progress; a command's bytes as the next action of an operation in
progress. -/
def placeNext (s : State) : Encoding → State
  | .hcw w => { s with busy := false, inputs := .issue w :: s.inputs }
  | .portWrite i v => { s with busy := false, inputs := .draw i v :: s.inputs }
  | .portRead i => { s with busy := false, inputs := .look i :: s.inputs }
  | .wire bs => { s with busy := true, pending := .cmd bs :: s.pending }

/-- `s` with a word of the opcode table placed next; a word of no instruction's width changes nothing. -/
def placeTableWord (s : State) (nbits w : Nat) : State :=
  match tableEncoding nbits w with
  | .ok e => placeNext s e
  | .error _ => s

end Sys2Proof.Machine
end

