-- ==== Sys2Proof/Machine/Step.lean ====
section
/-! DEFINITION. One step of DSEQ, and where the host places an instruction for the next step. -/

namespace Sys2Proof.Machine

/-- One step: what comes next is fetched and carried out. From a state with no operation in progress a host
operation runs to completion within its step (rules R44, R142). -/
def step (s : State) : Host.Outcome State Fault Refusal := carryOut (fetch s) s

/-- `s` with a word of the opcode table where the next step fetches its instruction (log entry 7). -/
def State.withFetchWord (s : State) (nbits w : Nat) : State := placeTableWord s nbits w

end Sys2Proof.Machine
end

