-- ==== Sys2Proof/Machine/HostPort.lean ====
section
/-! DEFINITION. What the outside sees of DSEQ: the registers the host may read (rules R10, R13, R14, R16), the power
state (rule R19), the electrical levels of the lines (rule R20), the tagged byte stream of a trace (rule R9), and the
pseudo-operations as lists of host steps (rule R72). -/

namespace Sys2Proof.Machine

/-- Rule R19. -/
inductive PowerState where
  | on
  | off
  deriving DecidableEq, Repr

/-- The power state; `none` in the phases where it is undefined (rule R19). -/
def powerState (s : State) : Option PowerState :=
  match s.phase with
  | .poweredOn => some .on
  | .poweredOff => some .off
  | .uninitialized => none
  | .resetting => none
  | .configuring => none
  | .cleared => none
  | .failed => none

/-- The host's read of the configuration registers, at any time after INIT has latched them (rule R10). Before, the read
is refused (rule R24: "reading before INIT is refused"): it returns nothing, `none`, and the machine goes on.
DESIGN CHOICE, log entry 22: a register read is not one of the host moves withheld while `busy` (R47, R50, U2; R196 lists
an HCW, a port access and a change of the inputs), and a refused one stops nothing. -/
def hostReadConfig (s : State) : Option Cfg :=
  if s.phase = .uninitialized then none else some s.cfg

/-- The drawing library's read of the derived registers (rule R13). Before INIT has computed them it gives the values
of log entry 1; like every register read it is not withheld while `busy` (DESIGN CHOICE, log entry 22). -/
def hostReadGeometry (s : State) : Geometry := s.geo

/-- The host's read of `phase` (rule R14), not withheld while `busy` (log entry 22). -/
def hostReadPhase (s : State) : Phase := s.phase

/-- The host's read of `busy` (rule R16). -/
def hostReadBusy (s : State) : Bool := s.busy

/-- The host's read of `result`: "after `busy` falls" (rule R16); while `busy` it returns nothing (log entry 22). -/
def hostReadResult (s : State) : Option Result :=
  if s.busy then none else some s.result

/-- The electrical level of the data/command line (rules R6, R20). -/
def dcElectrical (p : Params) : DcLevel → Level
  | .command => p.polDcCmd
  | .data => ~~~p.polDcCmd

/-- The electrical level of the chip-select line (rules R6, R20). -/
def csElectrical (p : Params) : CsLevel → Level
  | .asserted => p.polCsAssert
  | .deasserted => ~~~p.polCsAssert

/-- The electrical level of the reset line (rules R6, R20). -/
def rstElectrical (p : Params) : RstLevel → Level
  | .asserted => p.polRstAssert
  | .released => ~~~p.polRstAssert

/-- The tagged bytes of one trace entry. A failed write gives none: how much of it reached the chip is unknown
(rule R85, U7; log entry 6). -/
def entryBytes (t : TraceEntry) : List (Tag × Byte) :=
  match t.tag, t.event, t.answer with
  | some k, .writeBytes _ bs, .ok => bs.map (fun b => (k, b))
  | _, _, _ => []

/-- `bytes_of(trace)` (rule R9). -/
def bytesOf (tr : List TraceEntry) : List (Tag × Byte) := tr.flatMap entryBytes

/-- `construct(cfg)`: hardware reset, then INIT with `cfg` on the configuration inputs (rule R72). -/
def constructSteps (cfg : Cfg) : List HostStep := [.reset, .present cfg, .issue (hcwWord 0 0)]

/-- `clear()`: every framebuffer byte is written with 0, then FLUSH (rule R72). -/
def clearSteps (n : Nat) : List HostStep :=
  (List.range n).map (fun i => .draw i 0) ++ [.issue (hcwWord 5 0)]

end Sys2Proof.Machine
end

