-- ==== Sys2Proof/Machine/Layout.lean ====
section
/-! DEFINITION. Where a logical pixel lies in the framebuffer (rules R53, R54, R55). DSEQ itself never computes it;
the drawing library does, from the registers INIT latched (rules R13, R197). PRESUMED, log entry 9: the spec takes the
index formulas from general knowledge. -/

namespace Sys2Proof.Machine

/-- A byte index and a bit number in that byte. -/
structure PixelPos where
  index : Nat
  bit : Nat
  deriving DecidableEq, Repr

/-- The bit of a vertically packed byte (rule R54). -/
def verticalBit (o : BitOrderV) (y : Nat) : Nat :=
  match o with
  | .lsbTop => y % 8
  | .msbTop => 7 - y % 8

/-- The bit of a horizontally packed byte (rule R55). -/
def horizontalBit (o : BitOrderH) (x : Nat) : Nat :=
  match o with
  | .lsbLeft => x % 8
  | .msbLeft => 7 - x % 8

/-- The position of the logical pixel `(x, y)`, if it lies inside the logical dimensions (rules R54, R55). -/
def pixelPos (p : Params) (g : Geometry) (x y : Nat) : Option PixelPos :=
  if x < g.lwidth ∧ y < g.lheight then
    match g.mode with
    | .vpack => some ⟨y / 8 * g.lwidth + x, verticalBit p.bitOrderV y⟩
    | .hpack => some ⟨y * (g.lwidth / 8) + x / 8, horizontalBit p.bitOrderH x⟩
  else none

end Sys2Proof.Machine
end

