-- ==== Sys2Proof/Safety.lean ====
section
/-! DEFINITION. The terms claims are made in: which states a run can rest in, which events an operation is to
perform by the rules, what it means that a trace performs them up to the first failure, and the framing of a trace by
chip-select. None of it is used by the machine. -/

namespace Sys2Proof.Machine

/-! ### States -/

/-- Every event the environment is still to answer is answered `ok`: the premise "all ok" (rule R88). -/
def Oracle.allOk (o : Oracle) : Prop := (∀ a ∈ o.script, a = .ok) ∧ o.rest = .ok

/-- The oracle's next `k` answers. -/
def Oracle.take (o : Oracle) : Nat → List Answer
  | 0 => []
  | k + 1 => o.next.1 :: o.next.2.take k

/-- The oracle after its next `k` answers. -/
def Oracle.drop (o : Oracle) : Nat → Oracle
  | 0 => o
  | k + 1 => o.next.2.drop k

/-- No operation is in progress (rules R15, R16). -/
def Idle (s : State) : Prop := s.busy = false ∧ s.op = none ∧ s.pending = []

/-- `s` after an operation that did nothing but report `r` (rules R174, R175). -/
def reporting (r : Result) (s : State) : State := { s with result := r, results := s.results ++ [r] }

/-- A runtime operation is accepted (rule R150): no operation in progress, a post-init phase. -/
def Ready (s : State) : Prop := s.busy = false ∧ s.phase.postInit = true

/-- The framebuffer holds exactly the bytes `vs`, indices 0 to `N - 1` in order (rules R21, R41). -/
def HoldsBytes (s : State) (vs : List Byte) : Prop :=
  vs.length = s.geo.n ∧ ∀ i, (h : i < vs.length) → memRead s.fb i = some vs[i]

/-- INIT is accepted with `cfg` and goes on to its action list (rules R130, R131). -/
structure InitAccepted (cfg : Cfg) (s : State) : Prop where
  idle : s.busy = false
  fresh : s.phase = .uninitialized
  params : s.params.wf = true
  config : cfg.wf s.params = true
  lines : cfg.lacksLine = false

/-- The states a run rests in between two host steps. -/
structure RestInv (s : State) : Prop where
  /-- No operation is in progress (rules R44, R48). -/
  idle : s.busy = false
  noOp : s.op = none
  noAction : s.pending = []
  /-- The phases INIT passes through are never seen (rule R150). -/
  settled : s.phase = .uninitialized ∨ s.phase.postInit = true ∨ s.phase = .failed
  /-- The framebuffer is in its canonical form. -/
  canonical : Memory.wf s.fb = true
  /-- Once INIT has been accepted the parameters and the configuration are legal (rules R5, R10). -/
  admitted : s.phase ≠ .uninitialized → s.params.wf = true ∧ s.cfg.wf s.params = true
  /-- In a post-init phase no required line is missing (rule R131), the derived registers are those of the
  configuration (rules R11 to R13, R25), and the framebuffer has exactly the indices 0 to `N - 1` (rule R21). -/
  built : s.phase.postInit = true →
    s.cfg.lacksLine = false ∧ s.geo = geometry s.params.codes s.cfg ∧ s.fb.map Prod.fst = List.range s.geo.n
  /-- Before INIT neither shadow holds a value (rule R24). -/
  unsent : s.phase = .uninitialized → s.contrast = none ∧ s.invert = none

/-- What a runtime operation leaves as it was, whether it ends `Ok` or in an error: parameters, inputs,
configuration and derived registers, the framebuffer, the reset line, what the read port returned; and in the Bus
variant the two lines of the Serial variant (rules R10, R20, R25, R89). -/
structure RuntimeFrame (s t : State) : Prop where
  params : t.params = s.params
  inputs : t.inputs = s.inputs
  cfgIn : t.cfgIn = s.cfgIn
  cfg : t.cfg = s.cfg
  geo : t.geo = s.geo
  fb : t.fb = s.fb
  rst : t.rst = s.rst
  reads : t.reads = s.reads
  busLines : s.cfg.variant = .bus → t.dc = s.dc ∧ t.cs = s.cs

/-! ### What the rules have an operation perform -/

/-- An event to be performed, with the transaction it belongs to. -/
abbrev Planned := Option Tag × Event

/-- `Cmd(bs)` (rules R81, R83). -/
def cmdEvents (c : Cfg) (bs : List Byte) : List Planned :=
  match c.variant with
  | .serial =>
    [(some .command, .setDc .command), (some .command, .setCs .asserted),
     (some .command, .writeBytes none bs), (some .command, .setCs .deasserted)]
  | .bus => [(some .command, .writeBytes (some c.busAddr) bs)]

/-- `Data(bs)` (rules R82, R84). -/
def dataEvents (c : Cfg) (bs : List Byte) : List Planned :=
  match c.variant with
  | .serial =>
    [(some .data, .setDc .data), (some .data, .setCs .asserted),
     (some .data, .writeBytes none bs), (some .data, .setCs .deasserted)]
  | .bus => [(some .data, .writeBytes (some (c.busAddr + 1)) bs)]

/-- FLUSH of the bytes `vs` (rule R155). -/
def flushEvents (K : Codes) (c : Cfg) (vs : List Byte) : List Planned :=
  cmdEvents c [K.pageBase] ++ cmdEvents c [K.colHiBase, K.colLoBase] ++ dataEvents c vs

/-- The runtime operations (rules R151 to R155), with the framebuffer holding `vs`; any other instruction has none. -/
def runtimeEvents (K : Codes) (c : Cfg) (vs : List Byte) : Instr → List Planned
  | .powerOff => cmdEvents c [K.displayOff]
  | .powerOn => cmdEvents c [K.displayOn]
  | .contrast level => cmdEvents c [K.contrastBase ||| BitVec.ofNat 8 (level % 8)]
  | .invert flag => cmdEvents c [K.invertBase ||| if flag = 0 then 0 else 1]
  | .flush => flushEvents K c vs
  | _ => []

/-- The reset step of INIT (rules R132, R133). -/
def resetEvents (p : Params) (c : Cfg) : List Planned :=
  if c.hasRst then
    [(none, .delay p.tShort), (none, .setRst .asserted), (none, .delay p.tLong), (none, .setRst .released),
     (none, .delay p.tShort)]
  else cmdEvents c [p.codes.softReset] ++ [(none, .delay p.tLong)]

/-- `K_SCAN[rot]` and `K_INC[rot]` (rule R122). -/
def pairOf (K : Codes) (rot : Nat) : Byte × Byte :=
  match rot with
  | 0 => (K.scan.rot0, K.inc.rot0)
  | 1 => (K.scan.rot1, K.inc.rot1)
  | 2 => (K.scan.rot2, K.inc.rot2)
  | _ => (K.scan.rot3, K.inc.rot3)

/-- The command bytes of INIT after the reset step and before the clearing flush, one list per command (rules R135,
R136). -/
def configCommands (K : Codes) (rot : Nat) : List (List Byte) :=
  [[K.displayOff], [K.tempCompInit], [K.powerCtrlInit], [K.biasInit], [K.evCmd, K.evInit], [K.scrollBase],
   [K.analogA], [K.analogB], [K.lineCfg], [K.comEndCmd, K.comEndInit],
   [(pairOf K rot).1], [(pairOf K rot).2]]

/-- INIT (rule R144). -/
def initEvents (p : Params) (c : Cfg) : List Planned :=
  resetEvents p c
    ++ (configCommands p.codes (c.rotationIn % 4)).flatMap (cmdEvents c)
    ++ flushEvents p.codes c (List.replicate (c.height / 8 * c.width) 0)
    ++ cmdEvents c [p.codes.displayOn]

/-- A planned event performed and answered `ok`. -/
def okEntry (e : Planned) : TraceEntry := ⟨e.1, e.2, .ok⟩

/-- A planned event performed and answered `fail(x)`. -/
def failEntry (x : FailInfo) (e : Planned) : TraceEntry := ⟨e.1, e.2, .fail x⟩

/-- The events an environment can fail: all but `Delay` (rule R88). -/
def Event.mayFail : Event → Bool
  | .delay _ => false
  | .writeBytes _ _ => true
  | .setDc _ => true
  | .setCs _ => true
  | .setRst _ => true

/-- `new` performs `plan`: all of it answered `ok` and the result `Ok`; or its events up to one that fails, that
one marked failed, nothing after it, and the failure's payload reported (rules R85, R142). -/
def Performs (plan : List Planned) (new : List TraceEntry) (r : Result) : Prop :=
  (new = plan.map okEntry ∧ r = .ok)
  ∨ ∃ before e after x, plan = before ++ e :: after ∧ e.2.mayFail = true
      ∧ new = before.map okEntry ++ [failEntry x e] ∧ r = .err .transport (some x)

/-- The environment's answers in a trace: those of every event but `Delay` (rule R88). -/
def answersOf (tr : List TraceEntry) : List Answer := (tr.filter (fun t => t.event.mayFail)).map (·.answer)

/-- `s` after one command transaction carrying `bs`, every event answered `ok` (rules R81, R83, R142). -/
def afterCommand (bs : List Byte) (s : State) : State :=
  { s with
    trace := s.trace ++ (cmdEvents s.cfg bs).map okEntry
    oracle := s.oracle.drop (cmdEvents s.cfg bs).length
    dc := if s.cfg.variant = .serial then .command else s.dc
    cs := if s.cfg.variant = .serial then .deasserted else s.cs
    upc := s.upc + 1 }

/-- The instruction completes, whatever the environment answers: it performs `plan` up to the first failure, reports
the result, ends the operation, and keeps the frame of a runtime operation; and `Q` holds of the state it leaves. -/
def Completes (i : Instr) (plan : List Planned) (s : State) (Q : State → Prop) : Prop :=
  ∃ t new, exec i s = .next t ∧ t.trace = s.trace ++ new ∧ Performs plan new t.result
    ∧ Idle t ∧ t.results = s.results ++ [t.result] ∧ RuntimeFrame s t ∧ Q t

/-- The level a `SetLine` entry leaves on the data/command line, from the level before it (rule R20). -/
def dcAfter (l : DcLevel) (t : TraceEntry) : DcLevel :=
  match t.event, t.answer with
  | .setDc l', .ok => l'
  | _, _ => l

/-- The same of the chip-select line. -/
def csAfter (l : CsLevel) (t : TraceEntry) : CsLevel :=
  match t.event, t.answer with
  | .setCs l', .ok => l'
  | _, _ => l

/-- The same of the reset line. -/
def rstAfter (l : RstLevel) (t : TraceEntry) : RstLevel :=
  match t.event, t.answer with
  | .setRst l', .ok => l'
  | _, _ => l

/-- The commands the action lists hold (rule R69). -/
def listedCommands (K : Codes) : List (List Byte) :=
  [[K.softReset], [K.displayOff], [K.displayOn], [K.pageBase], [K.colHiBase, K.colLoBase]]
    ++ (List.range 4).flatMap (configCommands K)
    ++ (List.range 8).map (fun k => [K.contrastBase ||| BitVec.ofNat 8 k])
    ++ (List.range 2).map (fun k => [K.invertBase ||| BitVec.ofNat 8 k])

/-- The state in which an accepted operation has all of its action list before it; any other instruction has none. -/
def started (i : Instr) (s : State) : State :=
  let K := s.params.codes
  match i with
  | .init cfg =>
    let s' := allocate (latchConfig cfg s)
    { s' with pending := initActions s'.params s'.cfg.hasRst s'.geo.rot }
  | .powerOff => accept .powerOff [.cmd [K.displayOff]] s
  | .powerOn => accept .powerOn [.cmd [K.displayOn]] s
  | .contrast level => accept (.contrast (BitVec.ofNat 3 level)) [.cmd [K.contrastBase ||| BitVec.ofNat 8 (level % 8)]] s
  | .invert flag =>
    accept (.invert (if flag = 0 then 0 else 1)) [.cmd [K.invertBase ||| if flag = 0 then 0 else 1]] s
  | .flush => accept .flush [.cmd [K.pageBase], .cmd [K.colHiBase, K.colLoBase], .data] s
  | _ => s

/-! ### The bytes of the wire commands, as rules R100 to R117 write them -/

/-- The one-byte commands of format W1 (rules R100, R101, R107 to R112, R114 to R116). -/
def fixedCommand (K : Codes) : Instr → Option Byte
  | .dispOff => some K.displayOff
  | .dispOn => some K.displayOn
  | .softReset => some K.softReset
  | .tempComp => some K.tempCompInit
  | .powerCtrl => some K.powerCtrlInit
  | .bias => some K.biasInit
  | .analogA => some K.analogA
  | .analogB => some K.analogB
  | .lineCfg => some K.lineCfg
  | .scan rot => some (pairOf K rot.val).1
  | .inc rot => some (pairOf K rot.val).2
  | _ => none

/-- The packed commands of format W2: base code and field (rules R102, R103, R105, R106). -/
def packedCommand (K : Codes) : Instr → Option (Byte × Nat)
  | .scroll line => some (K.scrollBase, line % 64)
  | .page p => some (K.pageBase, p % 16)
  | .evr r => some (K.contrastBase, r % 8)
  | .inv f => some (K.invertBase, if f = 0 then 0 else 1)
  | _ => none

/-- The two-byte commands: W3 (rules R113, R117), and W4 with each base and its nibble (rule R104). -/
def pairCommand (K : Codes) : Instr → Option ((Byte × Nat) × (Byte × Nat))
  | .ev2 => some ((K.evCmd, 0), (K.evInit, 0))
  | .comEnd => some ((K.comEndCmd, 0), (K.comEndInit, 0))
  | .col c => some ((K.colHiBase, c / 16 % 16), (K.colLoBase, c % 16))
  | _ => none

/-- A wire command (rule R68). -/
def isWire (i : Instr) : Bool :=
  match i with
  | .init _ => false
  | .powerOff => false
  | .powerOn => false
  | .contrast _ => false
  | .invert _ => false
  | .flush => false
  | .reserved6 => false
  | .reserved7 => false
  | .fbw _ _ => false
  | .fbr _ => false
  | .dispOff => true
  | .dispOn => true
  | .scroll _ => true
  | .page _ => true
  | .col _ => true
  | .evr _ => true
  | .inv _ => true
  | .scan _ => true
  | .inc _ => true
  | .softReset => true
  | .tempComp => true
  | .powerCtrl => true
  | .bias => true
  | .ev2 => true
  | .analogA => true
  | .analogB => true
  | .lineCfg => true
  | .comEnd => true

/-- One of the five runtime operations (rule R150). -/
def isRuntime (i : Instr) : Prop :=
  i = .powerOff ∨ i = .powerOn ∨ (∃ level, i = .contrast level) ∨ (∃ flag, i = .invert flag) ∨ i = .flush

/-! ### Framing (Serial variant) -/

/-- Where in a Serial transaction a trace stands (rules R52, R195). -/
inductive Framing where
  | outside
  | levelSet (t : Tag)
  | selected (t : Tag)
  | written (t : Tag)
  deriving DecidableEq, Repr

/-- Where the next event leads, `none` if the framing forbids it there: outside a transaction only the reset line
and delays, then data/command level, assertion, exactly one write, deassertion. -/
def Framing.next (f : Framing) (t : TraceEntry) : Option Framing :=
  match f, t.tag, t.event with
  | .outside, none, .setRst _ => some .outside
  | .outside, none, .delay _ => some .outside
  | .outside, some k, .setDc l => if l = k.dcLevel then some (.levelSet k) else none
  | .levelSet k, some k', .setCs .asserted => if k = k' then some (.selected k) else none
  | .selected k, some k', .writeBytes none _ => if k = k' then some (.written k) else none
  | .written k, some k', .setCs .deasserted => if k = k' then some .outside else none
  | _, _, _ => none

/-- A trace keeps the framing: it ends outside a transaction, or with an event that failed, which nothing follows. -/
def framed (f : Framing) : List TraceEntry → Bool
  | [] => f == .outside
  | t :: tr =>
    match f.next t, t.answer with
    | some f', .ok => framed f' tr
    | some _, .fail _ => tr.isEmpty
    | none, _ => false

end Sys2Proof.Machine
end

