-- ==== Sys2Proof/Certificates/Slice0/Obligations.lean ====
section
/-! DEFINITION. The statements about the model. Each docstring names the rule of spec/ it formalises. A statement
about every state is about every value of the parameters and of the environment's answers, which stand in the state. -/

open Sys2Proof Sys2Proof.Machine

/-! ### Encoding -/

/-- Words of the opcode table decode, under the reference codes, to an instruction with that encoding (rules R62, R70).
Two things are the model's: which row a byte of several rows reads as (0x8B is INC(1)'s and INC(3)'s byte: the decoder's
order, log entry 8), and the least configuration as INIT's operand (the table word interface, log entry 7). -/
def Obligations.TableWordsDecode : Prop :=
  decodeTableWord 16 0x0FF = some (.init Cfg.least) ∧ decodeTableWord 16 0x1FF = some .powerOff
  ∧ decodeTableWord 16 0x30D = some (.contrast 13) ∧ decodeTableWord 16 0x402 = some (.invert 2)
  ∧ decodeTableWord 16 0x6AA = some .reserved6
  ∧ decodeTableWord 8 0xAE = some .dispOff ∧ decodeTableWord 8 0x64 = some (.scroll 36)
  ∧ decodeTableWord 8 0xB7 = some (.page 7) ∧ decodeTableWord 8 0x27 = some (.evr 7)
  ∧ decodeTableWord 8 0xA7 = some (.inv 1) ∧ decodeTableWord 8 0xC6 = some (.scan 2)
  ∧ decodeTableWord 8 0x8B = some (.inc 1) ∧ decodeTableWord 8 0xEB = some .bias
  ∧ decodeTableWord 16 0x1B0F = some (.col 191) ∧ decodeTableWord 16 0x8140 = some .ev2
  ∧ decodeTableWord 16 0xF13F = some .comEnd ∧ decodeTableWord 8 0xFF = none

/-- Rules R61, R62: `op = HCW[10:8]` selects the operation and `arg = HCW[7:0]` is its argument; INIT's operand is
what stands on the configuration inputs. -/
def Obligations.HostWordFieldsSelectTheOperation : Prop :=
  ∀ (c : Cfg) (op arg : Nat), op < 8 → arg < 256 →
    decodeHcw c (BitVec.ofNat 11 (op * 256 + arg)) =
      if op = 0 then .init c
      else if op = 1 then .powerOff
      else if op = 2 then .powerOn
      else if op = 3 then .contrast arg
      else if op = 4 then .invert arg
      else if op = 5 then .flush
      else if op = 6 then .reserved6
      else .reserved7

/-- Rules R63, R175, R177: a reserved opcode, with any argument, performs no event, changes no state but `result` (and
the model's record of the results, log entry 15) and reports `Err(ILLEGAL_OP)`, in every phase; the argument of INIT,
POWEROFF, POWERON and FLUSH is ignored. In `Failed`, where rule R179 says `Err(STATE)` of every word, that ILLEGAL_OP
comes first is the model's reading (log entry 19, DEDUCED from R175, R177 and the vector E6). -/
def Obligations.ReservedWordsReportIllegalOp : Prop :=
  (∀ (s : State) (op arg : Nat), Idle s → op = 6 ∨ op = 7 → arg < 256 →
    exec (decodeHcw s.cfgIn (BitVec.ofNat 11 (op * 256 + arg))) s = .next (reporting (.err .illegalOp none) s))
  ∧ (∀ s : State, Idle s →
    exec .reserved6 s = .next (reporting (.err .illegalOp none) s)
    ∧ exec .reserved7 s = .next (reporting (.err .illegalOp none) s))
  ∧ (∀ (c : Cfg) (arg : Nat), arg < 256 →
    decodeHcw c (BitVec.ofNat 11 arg) = .init c
    ∧ decodeHcw c (BitVec.ofNat 11 (256 + arg)) = .powerOff
    ∧ decodeHcw c (BitVec.ofNat 11 (512 + arg)) = .powerOn
    ∧ decodeHcw c (BitVec.ofNat 11 (1280 + arg)) = .flush)

/-- Rules R61, R62: for every host command word operation and port access whose operand its encoding holds, decoding
the encoding gives it back. INIT's operand is what stands on the configuration inputs. -/
def Obligations.HostInstructionsRoundTrip : Prop :=
  ∀ (K : Codes) (c : Cfg) (i : Instr), wellFormed i = true → isWire i = false → (∀ cfg, i = .init cfg → c = cfg) →
    decode K c (encode K i) = .ok i

/-- Rules R64 to R67, R119, for every `Codes` with `WF_CODES`: a wire command's bytes decode to a wire command with the
same bytes and the same meaning. (Which one is not fixed by the bytes: rule R67.) -/
def Obligations.WireCommandsRoundTripInMeaning : Prop :=
  ∀ (K : Codes) (c : Cfg) (i : Instr), K.wf = true → isWire i = true →
    ∃ j, isWire j = true ∧ wellFormed j = true ∧ decode K c (encode K i) = .ok j ∧ encode K j = encode K i
      ∧ ∀ s : State, s.params.codes = K → exec j s = exec i s

/-- Rules R64, R65, for every `Codes` whatever: bytes that decode are exactly the bytes of the command they decode
to. -/
def Obligations.WireDecodeIsSound : Prop :=
  ∀ (K : Codes) (bs : List Byte) (i : Instr), decodeWire K bs = .ok i →
    isWire i = true ∧ wellFormed i = true ∧ encode K i = .wire bs

/-- Rule R70: under the reference codes every wire command decodes back to itself but the three whose bytes are another
command's: EVR(4), which is TEMP_COMP's byte, and INC(2) and INC(3), which are those of INC(0) and INC(1). -/
def Obligations.ReferenceWireRoundTrip : Prop :=
  ∀ (c : Cfg) (i : Instr), wellFormed i = true → isWire i = true → i ≠ .evr 4 → i ≠ .inc 2 → i ≠ .inc 3 →
    decode Codes.reference c (encode Codes.reference i) = .ok i

/-- Rules R106, R118: for SCROLL, PAGE, EVR and COL and every natural operand the result is defined, `CMD(p) =
CMD(p & M)`, and with `WF_CODES` `byte & M = p & M` and `byte & ~M = K_BASE`. INV is left out of the mask law `CMD(p) =
CMD(p & M)`, which fails for it (R106, C3: INV(2) is INV(1), not INV(0)): its byte keeps the base above bit 0, and bit 0
is the truth value. -/
def Obligations.PackedFieldsKeepTheBase : Prop :=
  ∀ (K : Codes) (p : Nat), K.wf = true →
    (∃ b, scrollBytes K p = [b] ∧ scrollBytes K (p &&& 0x3F) = [b]
      ∧ (b &&& 0x3F).toNat = p &&& 0x3F ∧ b &&& 0xC0 = K.scrollBase)
    ∧ (∃ b, pageBytes K p = [b] ∧ pageBytes K (p &&& 0x0F) = [b]
      ∧ (b &&& 0x0F).toNat = p &&& 0x0F ∧ b &&& 0xF0 = K.pageBase)
    ∧ (∃ b, evrBytes K p = [b] ∧ evrBytes K (p &&& 0x07) = [b]
      ∧ (b &&& 0x07).toNat = p &&& 0x07 ∧ b &&& 0xF8 = K.contrastBase)
    ∧ (∃ b, invBytes K p = [b] ∧ (b &&& 0x01).toNat = (if p ≠ 0 then 1 else 0) ∧ b &&& 0xFE = K.invertBase)
    ∧ (∃ b0 b1, colBytes K p = [b0, b1] ∧ colBytes K (p &&& 0xFF) = [b0, b1]
      ∧ (b0 &&& 0x0F).toNat = (p >>> 4) &&& 0x0F ∧ b0 &&& 0xF0 = K.colHiBase
      ∧ (b1 &&& 0x0F).toNat = p &&& 0x0F ∧ b1 &&& 0xF0 = K.colLoBase)

/-! ### Geometry and layout -/

/-- Rules R11, R12, R13, R121: the derived registers, for every configuration; a rotation of 4 or more is masked
(rule R126), and the length does not depend on it. -/
def Obligations.GeometryFollowsTheLayoutTable : Prop :=
  ∀ (K : Codes) (c : Cfg),
    (geometry K c).pages = c.height / 8
    ∧ (geometry K c).n = (c.height / 8) * c.width
    ∧ (geometry K c).rot.val = c.rotationIn % 4
    ∧ (c.rotationIn % 2 = 0 → (geometry K c).mode = .vpack ∧ (geometry K c).lwidth = c.width
        ∧ (geometry K c).lheight = c.height)
    ∧ (c.rotationIn % 2 = 1 → (geometry K c).mode = .hpack ∧ (geometry K c).lwidth = c.height
        ∧ (geometry K c).lheight = c.width)

/-- Rules R54, R55 (their checks): every logical pixel lies in the framebuffer, at one of eight bits. The formulas
are the spec's from general knowledge (log entry 9). -/
def Obligations.PixelsLieInsideTheFramebuffer : Prop :=
  ∀ (p : Params) (K : Codes) (c : Cfg) (x y : Nat), c.shaped = true →
    x < (geometry K c).lwidth → y < (geometry K c).lheight →
    ∃ pos, pixelPos p (geometry K c) x y = some pos ∧ pos.index < (geometry K c).n ∧ pos.bit < 8

/-- Rules R54, R55: no two logical pixels share a bit (log entry 9). -/
def Obligations.DistinctPixelsHaveDistinctBits : Prop :=
  ∀ (p : Params) (K : Codes) (c : Cfg) (x y x' y' : Nat) (pos : PixelPos), c.shaped = true →
    pixelPos p (geometry K c) x y = some pos → pixelPos p (geometry K c) x' y' = some pos → x = x' ∧ y = y'

/-! ### Wire commands -/

/-- Rules R100, R101, R107 to R112, R114 to R116, with R81, R83, R142: DISP_OFF, DISP_ON, SOFT_RESET, TEMP_COMP,
POWER_CTRL, BIAS, ANALOG_A, ANALOG_B, LINE_CFG, SCAN and INC complete, every event answered `ok`, in one command
transaction of their one byte; nothing else changes. A wire command of its own, in any state, with or without an
operation in progress, is the model's choice (log entry 11). -/
def Obligations.FixedCommandsSendTheirByte : Prop :=
  ∀ (i : Instr) (b : Byte) (s : State), fixedCommand s.params.codes i = some b → s.oracle.allOk →
    exec i s = .next (afterCommand [b] s)

/-- Rules R102, R103, R105, R106, with R81, R83, R142: SCROLL, PAGE, EVR and INV complete, every event answered `ok`,
in one command transaction of base code OR field, for every operand; nothing else changes. A wire command of its own,
in any state, with or without an operation in progress, is the model's choice (log entry 11). -/
def Obligations.PackedCommandsSendBaseAndField : Prop :=
  ∀ (i : Instr) (base : Byte) (field : Nat) (s : State), packedCommand s.params.codes i = some (base, field) →
    s.oracle.allOk → exec i s = .next (afterCommand [base ||| BitVec.ofNat 8 field] s)

/-- Rules R104, R113, R117, with R81, R83, R87, R142: COL, EV2 and COM_END complete, every event answered `ok`, in ONE
command transaction of their two bytes, for every operand, a column's high nibble first; nothing else changes. A wire
command of its own, in any state, with or without an operation in progress, is the model's choice (log entry 11). -/
def Obligations.PairCommandsSendTwoBytes : Prop :=
  ∀ (i : Instr) (base0 base1 : Byte) (field0 field1 : Nat) (s : State),
    pairCommand s.params.codes i = some ((base0, field0), (base1, field1)) → s.oracle.allOk →
    exec i s = .next (afterCommand [base0 ||| BitVec.ofNat 8 field0, base1 ||| BitVec.ofNat 8 field1] s)

/-- Rules R81, R83, R85, R140, R157: whatever the environment answers, a wire command completes. Its transaction is
performed up to the first failure; a failure ends the operation in progress with `Err(TRANSPORT, x)`, in `Failed`
exactly when that operation is INIT; nothing but the lines, `upc` and the outcome changes. A wire command of its own,
in any state, with or without an operation in progress, is the model's choice (log entry 11). -/
def Obligations.WireCommandOutcomes : Prop :=
  ∀ (i : Instr) (bs : List Byte) (s : State), isWire i = true → encode s.params.codes i = .wire bs →
    ∃ t new, exec i s = .next t ∧ t.trace = s.trace ++ new ∧ RuntimeFrame s t
      ∧ t.contrast = s.contrast ∧ t.invert = s.invert
      ∧ ((new = (cmdEvents s.cfg bs).map okEntry ∧ t.upc = s.upc + 1 ∧ t.phase = s.phase ∧ t.busy = s.busy
            ∧ t.op = s.op ∧ t.pending = s.pending ∧ t.result = s.result ∧ t.results = s.results)
        ∨ ∃ before e after x, cmdEvents s.cfg bs = before ++ e :: after
            ∧ new = before.map okEntry ++ [failEntry x e] ∧ t.upc = s.upc
            ∧ t.phase = (if s.op = some .init then .failed else s.phase)
            ∧ Idle t ∧ t.result = .err .transport (some x)
            ∧ t.results = s.results ++ [.err .transport (some x)])

/-! ### INIT -/

/-- Rules R130, R140, R144 and the vector I7: an accepted INIT completes, whatever the environment answers. It performs
the events of its action list up to the first failure; it ends `Ok` in `PoweredOn` with every framebuffer byte 0, or
with the transport error in `Failed`; the configuration and derived registers are written; the shadows and everything
else are not. -/
def Obligations.InitRunsItsActionList : Prop :=
  ∀ (cfg : Cfg) (s : State), InitAccepted cfg s →
    ∃ t new, exec (.init cfg) s = .next t ∧ t.trace = s.trace ++ new
      ∧ Performs (initEvents s.params cfg) new t.result
      ∧ t.phase = (if t.result = .ok then .poweredOn else .failed)
      ∧ Idle t ∧ t.results = s.results ++ [t.result]
      ∧ t.cfg = cfg ∧ t.geo = geometry s.params.codes cfg
      ∧ (t.result = .ok → HoldsBytes t (List.replicate (cfg.height / 8 * cfg.width) 0))
      ∧ t.contrast = s.contrast ∧ t.invert = s.invert
      ∧ t.params = s.params ∧ t.inputs = s.inputs ∧ t.cfgIn = s.cfgIn ∧ t.reads = s.reads
      ∧ (cfg.hasRst = false → t.rst = s.rst) ∧ (cfg.variant = .bus → t.dc = s.dc ∧ t.cs = s.cs)

/-- Rules R141, R24: with every event answered `ok`, INIT ends `Ok` and the tagged bytes of its trace are exactly those
rule R141 lists; the lines are left as rule R24's table says. -/
def Obligations.InitByteStream : Prop :=
  ∀ (cfg : Cfg) (s : State), InitAccepted cfg s → s.oracle.allOk →
    ∃ t new, exec (.init cfg) s = .next t ∧ t.trace = s.trace ++ new ∧ t.result = .ok ∧ t.phase = .poweredOn
      ∧ bytesOf new =
          (if cfg.hasRst then [] else [(Tag.command, s.params.codes.softReset)])
          ++ [s.params.codes.displayOff, s.params.codes.tempCompInit, s.params.codes.powerCtrlInit,
              s.params.codes.biasInit, s.params.codes.evCmd, s.params.codes.evInit, s.params.codes.scrollBase,
              s.params.codes.analogA, s.params.codes.analogB, s.params.codes.lineCfg, s.params.codes.comEndCmd,
              s.params.codes.comEndInit, (pairOf s.params.codes (cfg.rotationIn % 4)).1,
              (pairOf s.params.codes (cfg.rotationIn % 4)).2, s.params.codes.pageBase, s.params.codes.colHiBase,
              s.params.codes.colLoBase].map (fun b => (Tag.command, b))
          ++ List.replicate (cfg.height / 8 * cfg.width) (Tag.data, 0)
          ++ [(Tag.command, s.params.codes.displayOn)]
      ∧ (cfg.variant = .serial → t.dc = .command ∧ t.cs = .deasserted) ∧ (cfg.hasRst = true → t.rst = .released)

/-- Rules R130, R131: a Serial configuration without a data/command line or without a chip-select line ends in `Failed`
with `Err(CONFIG)` and no event; the configuration has been latched, nothing has been allocated (log entry 14), and
nothing else has changed but `upc`, whose value 0 is the model's reading (log entry 13). A Bus configuration never gives
`Err(CONFIG)`. -/
def Obligations.InitRejectsMissingLines : Prop :=
  (∀ (cfg : Cfg) (s : State), Idle s → s.phase = .uninitialized → s.params.wf = true → cfg.wf s.params = true →
    cfg.variant = .serial → cfg.hasDc = false ∨ cfg.hasCs = false →
    exec (.init cfg) s =
      .next { reporting (.err .config none) s with cfg := cfg, phase := .failed, upc := 0 })
  ∧ (∀ (cfg : Cfg) (s t : State), cfg.variant = .bus → exec (.init cfg) s = .next t → t.result.code ≠ 1)

/-- Rule R174: INIT in any phase but `Uninitialized`, and a runtime operation outside the post-init phases, change
nothing but `result` (and the model's record of the results), to `Err(STATE)`, and perform no event. -/
def Obligations.StateErrorOutsideThePhases : Prop :=
  (∀ (cfg : Cfg) (s : State), Idle s → s.phase ≠ .uninitialized →
    exec (.init cfg) s = .next (reporting (.err .state none) s))
  ∧ (∀ (i : Instr) (s : State), isRuntime i → Idle s → s.phase.postInit = false →
    exec i s = .next (reporting (.err .state none) s))

/-- Rules R5, R6, R10, R198 (U3, U10, U15): INIT gives no meaning to parameters outside `WF_CODES` or the order of the
durations, nor to a configuration outside `WF_CFG`, each condition spelled out here; and it is refused for nothing else.
The refusal for the durations, and that the parameters are asked before the configuration, are the model's reading (log
entry 14, DEDUCED). -/
def Obligations.InitRefusesIllegalArguments : Prop :=
  ∀ (cfg : Cfg) (s : State) (K : Codes), s.params.codes = K → s.busy = false → s.phase = .uninitialized →
    (¬ (K.displayOn ≠ K.displayOff ∧ K.contrastBase &&& 0x07 = 0 ∧ K.invertBase &&& 0x01 = 0
          ∧ K.scrollBase &&& 0x3F = 0 ∧ K.pageBase &&& 0x0F = 0 ∧ K.colHiBase &&& 0x0F = 0
          ∧ K.colLoBase &&& 0x0F = 0 ∧ 0 < s.params.tShort ∧ s.params.tShort < s.params.tLong) →
        exec (.init cfg) s = .refused .paramsNotWellFormed)
    ∧ (K.displayOn ≠ K.displayOff ∧ K.contrastBase &&& 0x07 = 0 ∧ K.invertBase &&& 0x01 = 0
          ∧ K.scrollBase &&& 0x3F = 0 ∧ K.pageBase &&& 0x0F = 0 ∧ K.colHiBase &&& 0x0F = 0
          ∧ K.colLoBase &&& 0x0F = 0 ∧ 0 < s.params.tShort ∧ s.params.tShort < s.params.tLong →
        (¬ (1 ≤ cfg.width ∧ cfg.width ≤ s.params.wMax ∧ 8 ≤ cfg.height ∧ cfg.height ≤ s.params.hMax
              ∧ cfg.height % 8 = 0 ∧ (cfg.variant = .bus → cfg.busAddr + 1 < 2 ^ s.params.addrBits)) →
            exec (.init cfg) s = .refused .configNotWellFormed)
        ∧ (1 ≤ cfg.width ∧ cfg.width ≤ s.params.wMax ∧ 8 ≤ cfg.height ∧ cfg.height ≤ s.params.hMax
              ∧ cfg.height % 8 = 0 ∧ (cfg.variant = .bus → cfg.busAddr + 1 < 2 ^ s.params.addrBits) →
            ∃ t, exec (.init cfg) s = .next t))

/-! ### Runtime operations -/

/-- Rules R152, R157: POWEROFF sends the off code, in either post-init phase; the phase is then `PoweredOff` if that
ended `Ok`, and as before otherwise. -/
def Obligations.PowerOffSendsAndSwitches : Prop :=
  ∀ s : State, Ready s → Completes .powerOff (cmdEvents s.cfg [s.params.codes.displayOff]) s fun t =>
    t.phase = (if t.result = .ok then .poweredOff else s.phase) ∧ t.contrast = s.contrast ∧ t.invert = s.invert

/-- Rules R151, R157: POWERON sends the on code, in either post-init phase; the phase is then `PoweredOn` if that ended
`Ok`, and as before otherwise. -/
def Obligations.PowerOnSendsAndSwitches : Prop :=
  ∀ s : State, Ready s → Completes .powerOn (cmdEvents s.cfg [s.params.codes.displayOn]) s fun t =>
    t.phase = (if t.result = .ok then .poweredOn else s.phase) ∧ t.contrast = s.contrast ∧ t.invert = s.invert

/-- Rules R153, R157: CONTRAST sends the base code OR the low three bits of the level, which are written to the shadow if
that ended `Ok`; otherwise the shadow is as before. -/
def Obligations.ContrastSendsAndShadows : Prop :=
  ∀ (level : Nat) (s : State), Ready s →
    Completes (.contrast level) (cmdEvents s.cfg [s.params.codes.contrastBase ||| BitVec.ofNat 8 (level % 8)]) s fun t =>
      t.phase = s.phase ∧ t.invert = s.invert
      ∧ t.contrast = (if t.result = .ok then some (BitVec.ofNat 3 (level % 8)) else s.contrast)

/-- Rules R154, R157: INVERT sends the base code OR 1 for any flag but 0, and OR 0 for 0; that bit is written to
the shadow if it ended `Ok`; otherwise the shadow is as before. -/
def Obligations.InvertSendsAndShadows : Prop :=
  ∀ (flag : Nat) (s : State), Ready s →
    Completes (.invert flag) (cmdEvents s.cfg [s.params.codes.invertBase ||| (if flag = 0 then 0 else 1)]) s fun t =>
      t.phase = s.phase ∧ t.contrast = s.contrast
      ∧ t.invert = (if t.result = .ok then some (if flag = 0 then 0 else 1) else s.invert)

/-- Rules R155, R157: FLUSH sends page 0, column 0 and then every framebuffer byte in index order in one data
transaction, and changes no state but the outcome and the lines. -/
def Obligations.FlushSendsTheFramebuffer : Prop :=
  ∀ (s : State) (vs : List Byte), Ready s → HoldsBytes s vs →
    Completes .flush (flushEvents s.params.codes s.cfg vs) s fun t =>
      t.phase = s.phase ∧ t.contrast = s.contrast ∧ t.invert = s.invert

/-- Rule R24 (U8): FLUSH of a framebuffer with an index below `N` that holds no value, every event answered `ok`, stops
by name; and inside an operation it is the data action, read when it starts (R142), whose step stops. When the read comes
is the model's reading (log entry 5). No run from reset gets there: INIT zeroes every index. -/
def Obligations.FlushOfUnwrittenBytesStops : Prop :=
  (∀ (s : State) (i : Nat), Ready s → s.oracle.allOk → i < s.geo.n → memRead s.fb i = none →
    exec .flush s = .fault .unwrittenFramebuffer)
  ∧ (∀ (s : State) (i : Nat) (rest : List Action), s.busy = true → s.pending = .data :: rest → i < s.geo.n →
    memRead s.fb i = none → step s = .fault .unwrittenFramebuffer)

/-- Rules R142, R201: with every event answered `ok` each of the five runtime operations ends `Ok`; in Serial with
chip-select deasserted and the data/command line as its last transaction set it. -/
def Obligations.RuntimeOperationsEndOkWhenAnswered : Prop :=
  ∀ (i : Instr) (s : State) (vs : List Byte), isRuntime i → Ready s → HoldsBytes s vs → s.oracle.allOk →
    ∃ t, exec i s = .next t ∧ t.result = .ok ∧ t.oracle.allOk
      ∧ (s.cfg.variant = .serial →
          t.cs = .deasserted ∧ t.dc = (if i = .flush then DcLevel.data else DcLevel.command))

/-- Rule R158: each of the five runtime operations, accepted and with every event answered `ok`, performs its full
action list, whatever the shadows and the phase hold, and issued again at once it performs it again. -/
def Obligations.SameOperationTwiceSendsTwice : Prop :=
  ∀ (i : Instr) (s : State) (vs : List Byte), isRuntime i → Ready s → HoldsBytes s vs → s.oracle.allOk →
    ∃ t u new, exec i s = .next t ∧ exec i t = .next u
      ∧ new = (runtimeEvents s.params.codes s.cfg vs i).map okEntry ∧ new ≠ []
      ∧ t.trace = s.trace ++ new ∧ u.trace = t.trace ++ new

/-- DOC0's round trip, rules R42, R46, R155: after FLUSH the bytes sent as data equal exactly the framebuffer, with the
page and column address set to (0, 0) immediately before; the framebuffer is unchanged, for every rotation (R124). -/
def Obligations.FlushByteStreamIsTheFramebuffer : Prop :=
  ∀ (s : State) (vs : List Byte), Ready s → HoldsBytes s vs → s.oracle.allOk →
    ∃ t new, exec .flush s = .next t ∧ t.trace = s.trace ++ new ∧ t.fb = s.fb
      ∧ bytesOf new =
          [(Tag.command, s.params.codes.pageBase), (Tag.command, s.params.codes.colHiBase),
           (Tag.command, s.params.codes.colLoBase)] ++ vs.map (fun b => (Tag.data, b))

/-- DOC0's scenario V8, rules R19, R151, R152: POWEROFF then POWERON sends exactly the off code then the on code, moves
the power state to off and back to on, and leaves the framebuffer as it was. -/
def Obligations.PowerCycleSendsOffThenOn : Prop :=
  ∀ s : State, Ready s → s.oracle.allOk →
    ∃ t u new, exec .powerOff s = .next t ∧ exec .powerOn t = .next u ∧ t.phase = .poweredOff ∧ u.phase = .poweredOn
      ∧ powerState t = some .off ∧ powerState u = some .on ∧ u.fb = s.fb ∧ u.trace = s.trace ++ new
      ∧ bytesOf new = [(Tag.command, s.params.codes.displayOff), (Tag.command, s.params.codes.displayOn)]

/-- Rule R173: a parameter out of its range is no error. Whatever the environment answers, a level acts as its low three
bits, a flag other than 0 as 1, and a rotation as its low two bits, the latched `rotation_in` apart, which keeps the
whole; and with every event answered `ok` none of the three, at any value, ends in an error. -/
def Obligations.OutOfRangeOperandsAreMasked : Prop :=
  (∀ (level : Nat) (s : State), exec (.contrast level) s = exec (.contrast (level % 8)) s)
  ∧ (∀ (flag : Nat) (s : State), flag ≠ 0 → exec (.invert flag) s = exec (.invert 1) s)
  ∧ (∀ (cfg : Cfg) (s t : State), InitAccepted cfg s → exec (.init cfg) s = .next t →
      exec (.init { cfg with rotationIn := cfg.rotationIn % 4 }) s =
        .next { t with cfg := { cfg with rotationIn := cfg.rotationIn % 4 } })
  ∧ (∀ (level flag : Nat) (s : State), Ready s → s.oracle.allOk →
      (∃ t, exec (.contrast level) s = .next t ∧ t.result = .ok)
      ∧ ∃ t, exec (.invert flag) s = .next t ∧ t.result = .ok)
  ∧ (∀ (cfg : Cfg) (s : State), InitAccepted cfg s → s.oracle.allOk →
      ∃ t, exec (.init cfg) s = .next t ∧ t.result = .ok)

/-- Rule R178: what `raise Err(kind, info)` writes, and that it writes nothing else: the operation is over, `result`
holds the error, `busy` is false, and `phase` is `Failed` exactly when the operation is INIT and the kind is CONFIG or
TRANSPORT. -/
def Obligations.RaiseWritesResultAndPhase : Prop :=
  ∀ (k : ErrKind) (info : Option FailInfo) (s : State),
    (s.op = some .init → k = .config ∨ k = .transport →
      raiseErr k info s = { reporting (.err k info) s with busy := false, op := none, pending := [], phase := .failed })
    ∧ (¬ (s.op = some .init ∧ (k = .config ∨ k = .transport)) →
      raiseErr k info s = { reporting (.err k info) s with busy := false, op := none, pending := [] })

/-! ### The framebuffer port -/

/-- Rule R159: `fbw` writes one byte below `N`, post-init and not busy, and changes nothing else. -/
def Obligations.PortWriteChangesOneByte : Prop :=
  ∀ (i : Nat) (v : Byte) (s : State), Ready s → i < s.geo.n →
    ∃ t, exec (.fbw i v) s = .next t ∧ memRead t.fb i = some v
      ∧ (∀ j, j ≠ i → memRead t.fb j = memRead s.fb j) ∧ t = { s with fb := t.fb }

/-- Rule R160: `fbr` returns the byte at an index below `N`, and has no other effect. -/
def Obligations.PortReadReturnsTheByte : Prop :=
  ∀ (i : Nat) (v : Byte) (s : State), Ready s → i < s.geo.n → memRead s.fb i = some v →
    exec (.fbr i) s = .next { s with reads := s.reads ++ [(i, v)] }

/-- Rule R161 (U6), and rule R24 (U8): a port access outside the post-init phases, or at an index of `N` or more, has
no meaning; a read of a byte that holds no value yet faults. -/
def Obligations.PortAccessesWithoutMeaning : Prop :=
  (∀ (i : Nat) (v : Byte) (s : State), s.busy = false → s.phase.postInit = false →
    exec (.fbw i v) s = .refused .portNotPostInit ∧ exec (.fbr i) s = .refused .portNotPostInit)
  ∧ (∀ (i : Nat) (v : Byte) (s : State), Ready s → s.geo.n ≤ i →
    exec (.fbw i v) s = .refused .portIndexOutOfRange ∧ exec (.fbr i) s = .refused .portIndexOutOfRange)
  ∧ (∀ (i : Nat) (s : State), Ready s → i < s.geo.n → memRead s.fb i = none →
    exec (.fbr i) s = .fault .unwrittenFramebuffer)

/-! ### The whole machine -/

/-- Rules R10, R11, R25: no instruction but INIT writes a configuration or derived register, and INIT only from
`Uninitialized`. -/
def Obligations.ConfigWrittenOnlyByInit : Prop :=
  ∀ (i : Instr) (s t : State), exec i s = .next t →
    (∀ cfg, i = .init cfg → s.phase ≠ .uninitialized) → t.cfg = s.cfg ∧ t.geo = s.geo

/-- Rules R9, R23, R44: no step changes a parameter, and the trace, the results and what the read port returned only
ever grow at their ends. That these three stand in State as records, and that a hardware reset keeps them, is the
model's choice (log entries 15 and 12). -/
def Obligations.OutputsOnlyGrow : Prop :=
  ∀ s t : State, step s = .next t →
    t.params = s.params ∧ (∃ new, t.trace = s.trace ++ new) ∧ (∃ new, t.results = s.results ++ new)
      ∧ (∃ new, t.reads = s.reads ++ new)

/-- Rule R88: every event of an instruction but `Delay` takes the environment's next answer, in order, `Delay` takes
none and answers `ok`. -/
def Obligations.AnswersAreTheEnvironments : Prop :=
  ∀ (i : Instr) (s t : State), exec i s = .next t →
    ∃ new, t.trace = s.trace ++ new
      ∧ answersOf new = s.oracle.take (answersOf new).length ∧ t.oracle = s.oracle.drop (answersOf new).length
      ∧ ∀ e ∈ new, e.event.mayFail = false → e.answer = .ok

/-- Rule R20: a line register is written by the `SetLine` event on its line that completes with `ok`, and by nothing
else an instruction does. -/
def Obligations.LineRegistersFollowTheTrace : Prop :=
  ∀ (i : Instr) (s t : State), exec i s = .next t →
    ∃ new, t.trace = s.trace ++ new
      ∧ t.dc = new.foldl dcAfter s.dc ∧ t.cs = new.foldl csAfter s.cs ∧ t.rst = new.foldl rstAfter s.rst

/-- Rule R195: in Serial the data/command level is set before chip-select is asserted and held until it is deasserted,
one write per assertion, of one tag; for every instruction and every answer of the environment. -/
def Obligations.SerialTransactionsAreFramed : Prop :=
  ∀ (i : Instr) (s t : State) (new : List TraceEntry), exec i s = .next t → t.cfg.variant = .serial →
    t.trace = s.trace ++ new → framed .outside new = true

/-- Rules R134, R142: in INIT a write that a `Delay` follows in the trace is the software reset's, and so without a reset
line. It says nothing of a run that fails before its last `Delay`; that every `Delay` is there, and stands before the
first command of rule R135, is said by InitRunsItsActionList. -/
def Obligations.NoCommandWhileTheChipSettles : Prop :=
  ∀ (cfg : Cfg) (s t : State) (before after : List TraceEntry) (w : TraceEntry) (a : Option Nat) (bs : List Byte),
    InitAccepted cfg s → exec (.init cfg) s = .next t → t.trace = s.trace ++ before ++ w :: after →
    w.event = .writeBytes a bs → (∃ d ∈ after, d.event.mayFail = false) →
    cfg.hasRst = false ∧ bs = [s.params.codes.softReset]

/-- Rule R69: whatever the environment answers, a host operation writes as commands only the commands of the action
lists: no page but 0, no column but 0, no line but 0. -/
def Obligations.OnlyListedCommandsAreSent : Prop :=
  ∀ (i : Instr) (s t : State) (new : List TraceEntry), isWire i = false → exec i s = .next t →
    t.trace = s.trace ++ new →
    ∀ e ∈ new, ∀ a bs, e.tag = some .command → e.event = .writeBytes a bs → bs ∈ listedCommands s.params.codes

/-- Rules R24, R190: the machine after reset satisfies the invariant. -/
def Obligations.InvariantAtReset : Prop := RestInv State.reset

/-- Rules R14, R21, R25, R131, R150: every step keeps the invariant: no operation in progress, a phase INIT does not
pass through, legal parameters and configuration once INIT has been accepted, and in a post-init phase a framebuffer of
exactly `N` bytes and the derived registers of the configuration. -/
def Obligations.InvariantKeptByStep : Prop :=
  ∀ s t : State, RestInv s → step s = .next t → RestInv t

/-- The canonical form of the framebuffer is kept by every step, from every state, inside an operation too. -/
def Obligations.CanonicalFramebufferKept : Prop :=
  ∀ s t : State, Memory.wf s.fb = true → step s = .next t → Memory.wf t.fb = true

/-- Rules R24, R202 (U8: no rule of DSEQ reads an unspecified element): from a state with the invariant no step
faults, and one is refused only for a port access or an INIT that has no meaning. -/
def Obligations.NoFaultFromTheInvariant : Prop :=
  ∀ s : State, RestInv s →
    (∃ t, step s = .next t)
    ∨ (∃ i rest, (s.inputs = .look i :: rest ∨ ∃ v, s.inputs = .draw i v :: rest)
        ∧ (s.phase.postInit = false ∨ s.geo.n ≤ i)
        ∧ (step s = .refused .portNotPostInit ∨ step s = .refused .portIndexOutOfRange))
    ∨ (∃ w rest, s.inputs = .issue w :: rest ∧ decodeHcw s.cfgIn w = .init s.cfgIn ∧ s.phase = .uninitialized
        ∧ (s.params.wf = false ∧ step s = .refused .paramsNotWellFormed
          ∨ s.cfgIn.wf s.params = false ∧ step s = .refused .configNotWellFormed))

/-- Rule R14: the moves of `phase` between host steps: INIT leaves `Uninitialized` for `PoweredOn` or `Failed`, the power
operations move between `PoweredOn` and `PoweredOff`, and only hardware reset leads back. -/
def Obligations.PhaseMovesAlongTheStateMachine : Prop :=
  ∀ s t : State, RestInv s → step s = .next t →
    t.phase = s.phase
    ∨ (s.phase = .uninitialized ∧ (t.phase = .poweredOn ∨ t.phase = .failed)
        ∧ ∃ w rest, s.inputs = .issue w :: rest ∧ hcwOp w = 0)
    ∨ (s.phase = .poweredOn ∧ t.phase = .poweredOff ∧ ∃ w rest, s.inputs = .issue w :: rest ∧ hcwOp w = 1)
    ∨ (s.phase = .poweredOff ∧ t.phase = .poweredOn ∧ ∃ w rest, s.inputs = .issue w :: rest ∧ hcwOp w = 2)
    ∨ (t.phase = .uninitialized ∧ ∃ rest, s.inputs = .reset :: rest)

/-- Rules R140, R179: in `Failed` no step but hardware reset leaves the phase or performs an event, and every host
operation of rule R62 gives `Err(STATE)`. -/
def Obligations.FailedUntilHardwareReset : Prop :=
  (∀ s t : State, s.busy = false → s.phase = .failed → step s = .next t → (∀ rest, s.inputs ≠ .reset :: rest) →
    t.phase = .failed ∧ t.trace = s.trace)
  ∧ (∀ (i : Instr) (s : State), Idle s → s.phase = .failed → isRuntime i ∨ (∃ cfg, i = .init cfg) →
    exec i s = .next (reporting (.err .state none) s))

/-! ### Steps -/

/-- Rules R61, R62, R142, R159, R160: with no operation in progress a step runs the decoded host command word or the
port access with that input consumed; inside one, the wire command that the next action's bytes spell. The last clause is
the model's: DSEQ itself never decodes a wire command (R60); that a step inside an operation is one action is log entry
10, and the decoder that names its command log entry 8. -/
def Obligations.StepRunsTheDecodedInstruction : Prop :=
  (∀ (s : State) (w : Hcw) (rest : List HostStep), s.busy = false → s.inputs = .issue w :: rest →
    step s = exec (decodeHcw s.cfgIn w) { s with inputs := rest })
  ∧ (∀ (s : State) (i : Nat) (v : Byte) (rest : List HostStep), s.busy = false → s.inputs = .draw i v :: rest →
    step s = exec (.fbw i v) { s with inputs := rest })
  ∧ (∀ (s : State) (i : Nat) (rest : List HostStep), s.busy = false → s.inputs = .look i :: rest →
    step s = exec (.fbr i) { s with inputs := rest })
  ∧ (∀ (s : State) (bs : List Byte) (rest : List Action) (i : Instr), s.busy = true → s.pending = .cmd bs :: rest →
    decodeWire s.params.codes bs = .ok i → step s = exec i { s with pending := rest })

/-- Rules R10, R190, R196: with no operation in progress and no host step, DSEQ waits; a change of the configuration
inputs changes them alone; hardware reset gives the reset values of rule R190 and performs no event. -/
def Obligations.StepBetweenOperations : Prop :=
  (∀ s : State, s.busy = false → s.inputs = [] → step s = .next s)
  ∧ (∀ (s : State) (cfg : Cfg) (rest : List HostStep), s.busy = false → s.inputs = .present cfg :: rest →
    step s = .next { s with inputs := rest, cfgIn := cfg })
  ∧ (∀ (s : State) (rest : List HostStep), s.busy = false → s.inputs = .reset :: rest →
    ∃ t, step s = .next t ∧ t.phase = .uninitialized ∧ t.busy = false ∧ t.result = .ok ∧ t.cs = .deasserted
      ∧ t.contrast = none ∧ t.invert = none ∧ t.trace = s.trace ∧ t.inputs = rest ∧ t.params = s.params)

/-- Rule R142: inside an operation, with no action left, a step ends it `Ok`: `busy` falls, `result` is `Ok`, and what
the operation writes at its end is written; `Fill0` and `Phase` actions perform no event and cannot fail. That an action,
and the end of an operation, is a step of its own is the model's choice (log entry 10). -/
def Obligations.StepInsideAnOperation : Prop :=
  (∀ s : State, s.busy = true → s.pending = [] →
    ∃ t, step s = .next t ∧ Idle t ∧ t.result = .ok ∧ t.results = s.results ++ [.ok] ∧ t.trace = s.trace
      ∧ t.phase = (if s.op = some .powerOff then .poweredOff else if s.op = some .powerOn then .poweredOn else s.phase)
      ∧ (∀ l, s.op = some (.contrast l) → t.contrast = some l)
      ∧ (∀ b, s.op = some (.invert b) → t.invert = some b))
  ∧ (∀ (s : State) (p : Phase) (rest : List Action), s.busy = true → s.pending = .phase p :: rest →
    step s = .next { s with phase := p, pending := rest })
  ∧ (∀ (s : State) (rest : List Action), s.busy = true → s.pending = .fill0 :: rest →
    ∃ t, step s = .next t ∧ t = { s with fb := t.fb, pending := rest, upc := s.upc + 1 }
      ∧ (∀ i, i < s.geo.n → memRead t.fb i = some 0) ∧ (∀ i, s.geo.n ≤ i → memRead t.fb i = memRead s.fb i))

/-- A word of the opcode table placed by the host is what the next step runs (the model's interface, log entry 7). -/
def Obligations.PlacedWordRunsNext : Prop :=
  ∀ (s : State) (nbits w : Nat) (i : Instr), s.params.codes = Codes.reference → s.cfgIn = Cfg.least →
    decodeTableWord nbits w = some i → step (s.withFetchWord nbits w) = exec i { s with busy := isWire i }

/-- Rules R47, R50, R196: while an operation is in progress the host has no move: every host instruction is refused,
and no step consumes a host step. That this holds of hardware reset too, which R196's table does not list, is the model's
choice (log entry 12). -/
def Obligations.HostHasNoMoveWhileBusy : Prop :=
  ∀ s : State, s.busy = true →
    (∀ i, isWire i = false → exec i s = .refused .hostMoveWhileBusy)
    ∧ (∀ t, step s = .next t → t.inputs = s.inputs ∧ t.cfgIn = s.cfgIn)

/-- Rules R44, R142: an accepted operation, done in one step, is exactly the run of steps that perform its actions one
at a time, each command as the wire command its bytes spell, to the report of its result. The steps of one action, and
the commands read back from their bytes, are the model's choice (log entries 10 and 8). -/
def Obligations.OperationIsItsSteps : Prop :=
  ∀ (i : Instr) (s : State), s.params.wf = true →
    (isRuntime i ∧ Ready s) ∨ (∃ cfg, i = .init cfg ∧ InitAccepted cfg s) →
    ∃ k, Host.Core.run core k (started i s) = exec i s

/-- Rule R72: `construct(cfg)` is hardware reset followed by INIT with `cfg` on the configuration inputs. -/
def Obligations.ConstructIsResetThenInit : Prop :=
  ∀ (s : State) (cfg : Cfg) (rest : List HostStep), s.busy = false → s.inputs = constructSteps cfg ++ rest →
    Host.Core.run core 3 s = exec (.init cfg) { hardwareReset s with inputs := rest, cfgIn := cfg }

/-- Rule R72: `clear()` leaves every framebuffer byte 0 and sends a flush of `N` zero bytes. -/
def Obligations.ClearZeroesAndFlushes : Prop :=
  ∀ (s : State) (rest : List HostStep), Ready s → s.oracle.allOk → s.inputs = clearSteps s.geo.n ++ rest →
    ∃ t new, Host.Core.run core (s.geo.n + 1) s = .next t ∧ t.inputs = rest ∧ t.result = .ok
      ∧ HoldsBytes t (List.replicate s.geo.n 0) ∧ t.trace = s.trace ++ new
      ∧ new = (flushEvents s.params.codes s.cfg (List.replicate s.geo.n 0)).map okEntry

/-- Rule R190: what hardware reset leaves, in the registers the rule gives a value for. -/
def Obligations.ResetRegisters : Prop :=
  State.reset.phase = .uninitialized ∧ State.reset.busy = false ∧ State.reset.result = .ok
    ∧ State.reset.cs = .deasserted ∧ State.reset.contrast = none ∧ State.reset.invert = none
    ∧ State.reset.trace = []

/-- Rules R61, R62, R173: the word that presents a host operation, for every natural level or flag, decodes to an
instruction with the same meaning; in particular a flag that is not 0 is never presented as 0 (256 presents 1). Port
accesses too. INIT's operand is what stands on the configuration inputs. -/
def Obligations.HostWordsKeepTheMeaning : Prop :=
  ∀ (K : Codes) (c : Cfg) (i : Instr), isWire i = false → (∀ cfg, i = .init cfg → c = cfg) →
    ∃ j, decode K c (encode K i) = .ok j ∧ (∀ flag, flag ≠ 0 → i = .invert flag → j ≠ .invert 0)
      ∧ ∀ s : State, exec j s = exec i s
end

