-- ==== Sys2Proof/Laws/Memory.lean ====
section
/-! SUPPORT. The laws of the framebuffer as a memory: read after write, what a write leaves alone, and that every
operation keeps the canonical form. -/

namespace Sys2Proof.Machine

/-- The framebuffer after reset is in its canonical form: nothing is listed (rule R24). -/
theorem wf_reset : Memory.wf State.reset.fb = true := rfl

@[simp] theorem memRead_nil (i : Nat) : memRead [] i = none := rfl

theorem memRead_cons (a : Nat) (v : Byte) (m : List Host.Cell) (i : Nat) :
    memRead ((a, v) :: m) i = if a = i then some v else memRead m i := rfl

/-- A read after a write to the same index gives the byte written. -/
theorem memRead_memWrite_same (m : List Host.Cell) (i : Nat) (v : Byte) : memRead (memWrite m i v) i = some v := by
  induction m with
  | nil => simp [memWrite, memRead]
  | cons c m ih =>
    obtain ⟨a, w⟩ := c
    simp only [memWrite]
    split
    · simp [memRead]
    · split
      · simp [memRead]
      · rw [memRead_cons, if_neg (by omega), ih]

/-- A write leaves every other index alone. -/
theorem memRead_memWrite_other (m : List Host.Cell) (i j : Nat) (v : Byte) (h : j ≠ i) :
    memRead (memWrite m i v) j = memRead m j := by
  induction m with
  | nil => simp [memWrite, memRead, Memory.unlisted, h.symm]
  | cons c m ih =>
    obtain ⟨a, w⟩ := c
    simp only [memWrite]
    split
    · rw [memRead_cons, if_neg h.symm]
    · split
      next hia => subst hia; rw [memRead_cons, memRead_cons, if_neg h.symm, if_neg h.symm]
      · rw [memRead_cons, memRead_cons, ih]

theorem memRead_memWrite (m : List Host.Cell) (i j : Nat) (v : Byte) :
    memRead (memWrite m i v) j = if j = i then some v else memRead m j := by
  split
  next h => rw [h, memRead_memWrite_same]
  next h => exact memRead_memWrite_other m i j v h

/-- The canonical form of a list with a head: the head is below every index of a canonical tail. -/
theorem wf_cons (a : Nat) (v : Byte) (m : List Host.Cell) :
    Memory.wf ((a, v) :: m) = true ↔ (∀ c ∈ m, a < c.1) ∧ Memory.wf m = true := by
  induction m generalizing a v with
  | nil => simp [Memory.wf]
  | cons b m ih =>
    obtain ⟨b, w⟩ := b
    simp only [Memory.wf, Bool.and_eq_true, decide_eq_true_eq, List.mem_cons, forall_eq_or_imp]
    constructor
    · rintro ⟨h, hm⟩
      exact ⟨⟨h, fun c hc => Nat.lt_trans h (((ih b w).mp hm).1 c hc)⟩, hm⟩
    · rintro ⟨⟨h, -⟩, hm⟩
      exact ⟨h, hm⟩

theorem mem_memWrite (m : List Host.Cell) (i : Nat) (v : Byte) (c : Host.Cell) (h : c ∈ memWrite m i v) :
    c = (i, v) ∨ c ∈ m := by
  induction m with
  | nil => simpa [memWrite] using h
  | cons d m ih =>
    obtain ⟨a, w⟩ := d
    simp only [memWrite] at h
    split at h
    · simpa using h
    · split at h
      · rcases List.mem_cons.mp h with h | h
        · exact .inl h
        · exact .inr (List.mem_cons_of_mem _ h)
      · rcases List.mem_cons.mp h with h | h
        · exact .inr (by simp [h])
        · rcases ih h with h | h
          · exact .inl h
          · exact .inr (List.mem_cons_of_mem _ h)

/-- A write keeps the canonical form. -/
theorem wf_memWrite (m : List Host.Cell) (i : Nat) (v : Byte) (h : Memory.wf m = true) :
    Memory.wf (memWrite m i v) = true := by
  induction m with
  | nil => rfl
  | cons d m ih =>
    obtain ⟨a, w⟩ := d
    obtain ⟨ha, hm⟩ := (wf_cons a w m).mp h
    simp only [memWrite]
    split
    next hia =>
      refine (wf_cons i v _).mpr ⟨fun c hc => ?_, h⟩
      rcases List.mem_cons.mp hc with rfl | hc
      · exact hia
      · exact Nat.lt_trans hia (ha c hc)
    next hia =>
      split
      next he => subst he; exact (wf_cons i v m).mpr ⟨ha, hm⟩
      next hne =>
        refine (wf_cons a w _).mpr ⟨fun c hc => ?_, ih hm⟩
        rcases mem_memWrite m i v c hc with rfl | hc
        · show a < i
          omega
        · exact ha c hc

/-- `Fill0` keeps the canonical form. -/
theorem wf_fillZero (n : Nat) (m : List Host.Cell) (h : Memory.wf m = true) : Memory.wf (fillZero n m) = true := by
  induction n generalizing m with
  | zero => exact h
  | succ n ih => exact ih _ (wf_memWrite m n 0 h)

/-- What `Fill0` leaves at every index. -/
theorem memRead_fillZero (n : Nat) (m : List Host.Cell) (i : Nat) :
    memRead (fillZero n m) i = if i < n then some 0 else memRead m i := by
  induction n generalizing m with
  | zero => simp [fillZero]
  | succ n ih =>
    rw [fillZero, ih, memRead_memWrite]
    by_cases h1 : i < n
    · rw [if_pos h1, if_pos (by omega)]
    · by_cases h2 : i = n
      · rw [if_neg h1, if_pos h2, if_pos (by omega)]
      · rw [if_neg h1, if_neg h2, if_neg (by omega)]

/-- Writing every index from `k` up to a list's first one, downwards, over a list that starts above. -/
theorem fillZero_above (n : Nat) (m : List Host.Cell) (h : ∀ c ∈ m, n ≤ c.1) :
    fillZero n m = (List.range n).map (fun i => (i, (0 : Byte))) ++ m := by
  induction n generalizing m with
  | zero => simp [fillZero]
  | succ n ih =>
    have hw : memWrite m n 0 = (n, 0) :: m := by
      cases m with
      | nil => rfl
      | cons c m =>
        obtain ⟨a, w⟩ := c
        have : n + 1 ≤ a := h (a, w) (by simp)
        simp only [memWrite]
        rw [if_pos (by omega)]
    rw [fillZero, hw, ih]
    · rw [List.range_succ]; simp
    · intro c hc
      rcases List.mem_cons.mp hc with rfl | hc
      · exact Nat.le_refl n
      · exact Nat.le_of_succ_le (h c hc)

/-- `Fill0` of a framebuffer just allocated lists exactly the indices below `n`. -/
theorem fillZero_nil (n : Nat) : fillZero n [] = (List.range n).map (fun i => (i, (0 : Byte))) := by
  simpa using fillZero_above n [] (by simp)

/-- A write at an index that is listed changes no index. -/
theorem memWrite_indices (m : List Host.Cell) (i : Nat) (v : Byte) (h : Memory.wf m = true)
    (hi : i ∈ m.map Prod.fst) : (memWrite m i v).map Prod.fst = m.map Prod.fst := by
  induction m with
  | nil => simp at hi
  | cons d m ih =>
    obtain ⟨a, w⟩ := d
    obtain ⟨ha, hm⟩ := (wf_cons a w m).mp h
    simp only [memWrite]
    have hi' : i = a ∨ i ∈ m.map Prod.fst := by simpa using hi
    split
    next hlt =>
      rcases hi' with rfl | hi'
      · omega
      · obtain ⟨c, hc, rfl⟩ := List.mem_map.mp hi'
        have := ha c hc
        omega
    next hlt =>
      split
      next he => simp [he]
      next hne =>
        rcases hi' with rfl | hi'
        · exact absurd rfl hne
        · simp [ih hm hi']

theorem readFrom_length (m : List Host.Cell) (i k : Nat) (vs : List Byte) (h : readFrom m i k = some vs) :
    vs.length = k := by
  induction k generalizing i vs with
  | zero => simp only [readFrom, Option.some.injEq] at h; subst h; rfl
  | succ k ih =>
    simp only [readFrom] at h
    split at h
    · next v vs' _ h2 =>
      simp only [Option.some.injEq] at h; subst h
      simp [ih _ _ h2]
    · exact absurd h (by simp)

/-- Reading a run of indices gives the bytes at them. -/
theorem readFrom_eq_some (m : List Host.Cell) (i k : Nat) (vs : List Byte) :
    readFrom m i k = some vs ↔ vs.length = k ∧ ∀ j, (h : j < vs.length) → memRead m (i + j) = some vs[j] := by
  induction k generalizing i vs with
  | zero =>
    simp only [readFrom, Option.some.injEq]
    constructor
    · rintro rfl; simp
    · rintro ⟨h, -⟩; exact (List.eq_nil_of_length_eq_zero h).symm
  | succ k ih =>
    simp only [readFrom]
    constructor
    · intro h
      split at h
      next v vs' h1 h2 =>
        simp only [Option.some.injEq] at h; subst h
        obtain ⟨hl, hr⟩ := (ih _ _).mp h2
        refine ⟨by simp [hl], fun j hj => ?_⟩
        cases j with
        | zero => simpa using h1
        | succ j =>
          have hj' : j < vs'.length := by simpa using hj
          have := hr j hj'
          rw [show i + 1 + j = i + (j + 1) from by omega] at this
          simpa using this
      next => exact absurd h (by simp)
    · rintro ⟨hl, hr⟩
      cases vs with
      | nil => simp at hl
      | cons v vs =>
        have h0 : memRead m i = some v := hr 0 (by simp)
        have ht : readFrom m (i + 1) k = some vs := by
          refine (ih _ _).mpr ⟨by simpa using hl, fun j hj => ?_⟩
          have := hr (j + 1) (by simpa using hj)
          rw [show i + (j + 1) = i + 1 + j from by omega] at this
          simpa using this
        rw [h0, ht]

theorem readFrom_fillZero (n : Nat) (m : List Host.Cell) :
    readFrom (fillZero n m) 0 n = some (List.replicate n 0) := by
  refine (readFrom_eq_some _ _ _ _).mpr ⟨by simp, fun j hj => ?_⟩
  rw [memRead_fillZero, if_pos (by simpa using hj)]
  simp

end Sys2Proof.Machine
end

