-- ==== Sys2Proof/Laws/State.lean ====
section
/-! SUPPORT. One lemma per field for every named update of the state: what the update leaves in it, true by
definition, so that no proof unfolds a record update. -/

namespace Sys2Proof.Machine

/-! ### accept -/

@[simp] theorem accept_params (o : Op) (as : List Action) (s : State) :
    (accept o as s).params = s.params := rfl
@[simp] theorem accept_inputs (o : Op) (as : List Action) (s : State) :
    (accept o as s).inputs = s.inputs := rfl
@[simp] theorem accept_cfgIn (o : Op) (as : List Action) (s : State) :
    (accept o as s).cfgIn = s.cfgIn := rfl
@[simp] theorem accept_oracle (o : Op) (as : List Action) (s : State) :
    (accept o as s).oracle = s.oracle := rfl
@[simp] theorem accept_cfg (o : Op) (as : List Action) (s : State) :
    (accept o as s).cfg = s.cfg := rfl
@[simp] theorem accept_geo (o : Op) (as : List Action) (s : State) :
    (accept o as s).geo = s.geo := rfl
@[simp] theorem accept_phase (o : Op) (as : List Action) (s : State) :
    (accept o as s).phase = s.phase := rfl
@[simp] theorem accept_upc (o : Op) (as : List Action) (s : State) :
    (accept o as s).upc = 0 := rfl
@[simp] theorem accept_busy (o : Op) (as : List Action) (s : State) :
    (accept o as s).busy = true := rfl
@[simp] theorem accept_result (o : Op) (as : List Action) (s : State) :
    (accept o as s).result = s.result := rfl
@[simp] theorem accept_contrast (o : Op) (as : List Action) (s : State) :
    (accept o as s).contrast = s.contrast := rfl
@[simp] theorem accept_invert (o : Op) (as : List Action) (s : State) :
    (accept o as s).invert = s.invert := rfl
@[simp] theorem accept_dc (o : Op) (as : List Action) (s : State) :
    (accept o as s).dc = s.dc := rfl
@[simp] theorem accept_cs (o : Op) (as : List Action) (s : State) :
    (accept o as s).cs = s.cs := rfl
@[simp] theorem accept_rst (o : Op) (as : List Action) (s : State) :
    (accept o as s).rst = s.rst := rfl
@[simp] theorem accept_fb (o : Op) (as : List Action) (s : State) :
    (accept o as s).fb = s.fb := rfl
@[simp] theorem accept_op (o : Op) (as : List Action) (s : State) :
    (accept o as s).op = some o := rfl
@[simp] theorem accept_pending (o : Op) (as : List Action) (s : State) :
    (accept o as s).pending = as := rfl
@[simp] theorem accept_trace (o : Op) (as : List Action) (s : State) :
    (accept o as s).trace = s.trace := rfl
@[simp] theorem accept_results (o : Op) (as : List Action) (s : State) :
    (accept o as s).results = s.results := rfl
@[simp] theorem accept_reads (o : Op) (as : List Action) (s : State) :
    (accept o as s).reads = s.reads := rfl

/-! ### report -/

@[simp] theorem report_params (r : Result) (s : State) :
    (report r s).params = s.params := rfl
@[simp] theorem report_inputs (r : Result) (s : State) :
    (report r s).inputs = s.inputs := rfl
@[simp] theorem report_cfgIn (r : Result) (s : State) :
    (report r s).cfgIn = s.cfgIn := rfl
@[simp] theorem report_oracle (r : Result) (s : State) :
    (report r s).oracle = s.oracle := rfl
@[simp] theorem report_cfg (r : Result) (s : State) :
    (report r s).cfg = s.cfg := rfl
@[simp] theorem report_geo (r : Result) (s : State) :
    (report r s).geo = s.geo := rfl
@[simp] theorem report_phase (r : Result) (s : State) :
    (report r s).phase = s.phase := rfl
@[simp] theorem report_upc (r : Result) (s : State) :
    (report r s).upc = s.upc := rfl
@[simp] theorem report_busy (r : Result) (s : State) :
    (report r s).busy = false := rfl
@[simp] theorem report_result (r : Result) (s : State) :
    (report r s).result = r := rfl
@[simp] theorem report_contrast (r : Result) (s : State) :
    (report r s).contrast = s.contrast := rfl
@[simp] theorem report_invert (r : Result) (s : State) :
    (report r s).invert = s.invert := rfl
@[simp] theorem report_dc (r : Result) (s : State) :
    (report r s).dc = s.dc := rfl
@[simp] theorem report_cs (r : Result) (s : State) :
    (report r s).cs = s.cs := rfl
@[simp] theorem report_rst (r : Result) (s : State) :
    (report r s).rst = s.rst := rfl
@[simp] theorem report_fb (r : Result) (s : State) :
    (report r s).fb = s.fb := rfl
@[simp] theorem report_op (r : Result) (s : State) :
    (report r s).op = none := rfl
@[simp] theorem report_pending (r : Result) (s : State) :
    (report r s).pending = [] := rfl
@[simp] theorem report_trace (r : Result) (s : State) :
    (report r s).trace = s.trace := rfl
@[simp] theorem report_results (r : Result) (s : State) :
    (report r s).results = s.results ++ [r] := rfl
@[simp] theorem report_reads (r : Result) (s : State) :
    (report r s).reads = s.reads := rfl

/-! ### record -/

@[simp] theorem record_params (k : Option Tag) (e : Event) (a : Answer) (s : State) :
    (record k e a s).params = s.params := rfl
@[simp] theorem record_inputs (k : Option Tag) (e : Event) (a : Answer) (s : State) :
    (record k e a s).inputs = s.inputs := rfl
@[simp] theorem record_cfgIn (k : Option Tag) (e : Event) (a : Answer) (s : State) :
    (record k e a s).cfgIn = s.cfgIn := rfl
@[simp] theorem record_oracle (k : Option Tag) (e : Event) (a : Answer) (s : State) :
    (record k e a s).oracle = s.oracle := rfl
@[simp] theorem record_cfg (k : Option Tag) (e : Event) (a : Answer) (s : State) :
    (record k e a s).cfg = s.cfg := rfl
@[simp] theorem record_geo (k : Option Tag) (e : Event) (a : Answer) (s : State) :
    (record k e a s).geo = s.geo := rfl
@[simp] theorem record_phase (k : Option Tag) (e : Event) (a : Answer) (s : State) :
    (record k e a s).phase = s.phase := rfl
@[simp] theorem record_upc (k : Option Tag) (e : Event) (a : Answer) (s : State) :
    (record k e a s).upc = s.upc := rfl
@[simp] theorem record_busy (k : Option Tag) (e : Event) (a : Answer) (s : State) :
    (record k e a s).busy = s.busy := rfl
@[simp] theorem record_result (k : Option Tag) (e : Event) (a : Answer) (s : State) :
    (record k e a s).result = s.result := rfl
@[simp] theorem record_contrast (k : Option Tag) (e : Event) (a : Answer) (s : State) :
    (record k e a s).contrast = s.contrast := rfl
@[simp] theorem record_invert (k : Option Tag) (e : Event) (a : Answer) (s : State) :
    (record k e a s).invert = s.invert := rfl
@[simp] theorem record_dc (k : Option Tag) (e : Event) (a : Answer) (s : State) :
    (record k e a s).dc = s.dc := rfl
@[simp] theorem record_cs (k : Option Tag) (e : Event) (a : Answer) (s : State) :
    (record k e a s).cs = s.cs := rfl
@[simp] theorem record_rst (k : Option Tag) (e : Event) (a : Answer) (s : State) :
    (record k e a s).rst = s.rst := rfl
@[simp] theorem record_fb (k : Option Tag) (e : Event) (a : Answer) (s : State) :
    (record k e a s).fb = s.fb := rfl
@[simp] theorem record_op (k : Option Tag) (e : Event) (a : Answer) (s : State) :
    (record k e a s).op = s.op := rfl
@[simp] theorem record_pending (k : Option Tag) (e : Event) (a : Answer) (s : State) :
    (record k e a s).pending = s.pending := rfl
@[simp] theorem record_trace (k : Option Tag) (e : Event) (a : Answer) (s : State) :
    (record k e a s).trace = s.trace ++ [⟨k, e, a⟩] := rfl
@[simp] theorem record_results (k : Option Tag) (e : Event) (a : Answer) (s : State) :
    (record k e a s).results = s.results := rfl
@[simp] theorem record_reads (k : Option Tag) (e : Event) (a : Answer) (s : State) :
    (record k e a s).reads = s.reads := rfl

/-! ### raiseErr -/

@[simp] theorem raiseErr_params (k : ErrKind) (x : Option FailInfo) (s : State) :
    (raiseErr k x s).params = s.params := rfl
@[simp] theorem raiseErr_inputs (k : ErrKind) (x : Option FailInfo) (s : State) :
    (raiseErr k x s).inputs = s.inputs := rfl
@[simp] theorem raiseErr_cfgIn (k : ErrKind) (x : Option FailInfo) (s : State) :
    (raiseErr k x s).cfgIn = s.cfgIn := rfl
@[simp] theorem raiseErr_oracle (k : ErrKind) (x : Option FailInfo) (s : State) :
    (raiseErr k x s).oracle = s.oracle := rfl
@[simp] theorem raiseErr_cfg (k : ErrKind) (x : Option FailInfo) (s : State) :
    (raiseErr k x s).cfg = s.cfg := rfl
@[simp] theorem raiseErr_geo (k : ErrKind) (x : Option FailInfo) (s : State) :
    (raiseErr k x s).geo = s.geo := rfl
@[simp] theorem raiseErr_phase (k : ErrKind) (x : Option FailInfo) (s : State) :
    (raiseErr k x s).phase = if s.op = some .init ∧ k.fatalToInit = true then .failed else s.phase := rfl
@[simp] theorem raiseErr_upc (k : ErrKind) (x : Option FailInfo) (s : State) :
    (raiseErr k x s).upc = s.upc := rfl
@[simp] theorem raiseErr_busy (k : ErrKind) (x : Option FailInfo) (s : State) :
    (raiseErr k x s).busy = false := rfl
@[simp] theorem raiseErr_result (k : ErrKind) (x : Option FailInfo) (s : State) :
    (raiseErr k x s).result = .err k x := rfl
@[simp] theorem raiseErr_contrast (k : ErrKind) (x : Option FailInfo) (s : State) :
    (raiseErr k x s).contrast = s.contrast := rfl
@[simp] theorem raiseErr_invert (k : ErrKind) (x : Option FailInfo) (s : State) :
    (raiseErr k x s).invert = s.invert := rfl
@[simp] theorem raiseErr_dc (k : ErrKind) (x : Option FailInfo) (s : State) :
    (raiseErr k x s).dc = s.dc := rfl
@[simp] theorem raiseErr_cs (k : ErrKind) (x : Option FailInfo) (s : State) :
    (raiseErr k x s).cs = s.cs := rfl
@[simp] theorem raiseErr_rst (k : ErrKind) (x : Option FailInfo) (s : State) :
    (raiseErr k x s).rst = s.rst := rfl
@[simp] theorem raiseErr_fb (k : ErrKind) (x : Option FailInfo) (s : State) :
    (raiseErr k x s).fb = s.fb := rfl
@[simp] theorem raiseErr_op (k : ErrKind) (x : Option FailInfo) (s : State) :
    (raiseErr k x s).op = none := rfl
@[simp] theorem raiseErr_pending (k : ErrKind) (x : Option FailInfo) (s : State) :
    (raiseErr k x s).pending = [] := rfl
@[simp] theorem raiseErr_trace (k : ErrKind) (x : Option FailInfo) (s : State) :
    (raiseErr k x s).trace = s.trace := rfl
@[simp] theorem raiseErr_results (k : ErrKind) (x : Option FailInfo) (s : State) :
    (raiseErr k x s).results = s.results ++ [.err k x] := rfl
@[simp] theorem raiseErr_reads (k : ErrKind) (x : Option FailInfo) (s : State) :
    (raiseErr k x s).reads = s.reads := rfl

/-! ### countAction -/

@[simp] theorem countAction_params (a : Action) (s : State) :
    (countAction a s).params = s.params := rfl
@[simp] theorem countAction_inputs (a : Action) (s : State) :
    (countAction a s).inputs = s.inputs := rfl
@[simp] theorem countAction_cfgIn (a : Action) (s : State) :
    (countAction a s).cfgIn = s.cfgIn := rfl
@[simp] theorem countAction_oracle (a : Action) (s : State) :
    (countAction a s).oracle = s.oracle := rfl
@[simp] theorem countAction_cfg (a : Action) (s : State) :
    (countAction a s).cfg = s.cfg := rfl
@[simp] theorem countAction_geo (a : Action) (s : State) :
    (countAction a s).geo = s.geo := rfl
@[simp] theorem countAction_phase (a : Action) (s : State) :
    (countAction a s).phase = s.phase := rfl
@[simp] theorem countAction_upc (a : Action) (s : State) :
    (countAction a s).upc = if a.counted then s.upc + 1 else s.upc := rfl
@[simp] theorem countAction_busy (a : Action) (s : State) :
    (countAction a s).busy = s.busy := rfl
@[simp] theorem countAction_result (a : Action) (s : State) :
    (countAction a s).result = s.result := rfl
@[simp] theorem countAction_contrast (a : Action) (s : State) :
    (countAction a s).contrast = s.contrast := rfl
@[simp] theorem countAction_invert (a : Action) (s : State) :
    (countAction a s).invert = s.invert := rfl
@[simp] theorem countAction_dc (a : Action) (s : State) :
    (countAction a s).dc = s.dc := rfl
@[simp] theorem countAction_cs (a : Action) (s : State) :
    (countAction a s).cs = s.cs := rfl
@[simp] theorem countAction_rst (a : Action) (s : State) :
    (countAction a s).rst = s.rst := rfl
@[simp] theorem countAction_fb (a : Action) (s : State) :
    (countAction a s).fb = s.fb := rfl
@[simp] theorem countAction_op (a : Action) (s : State) :
    (countAction a s).op = s.op := rfl
@[simp] theorem countAction_pending (a : Action) (s : State) :
    (countAction a s).pending = s.pending := rfl
@[simp] theorem countAction_trace (a : Action) (s : State) :
    (countAction a s).trace = s.trace := rfl
@[simp] theorem countAction_results (a : Action) (s : State) :
    (countAction a s).results = s.results := rfl
@[simp] theorem countAction_reads (a : Action) (s : State) :
    (countAction a s).reads = s.reads := rfl

/-! ### latchConfig -/

@[simp] theorem latchConfig_params (c : Cfg) (s : State) :
    (latchConfig c s).params = s.params := rfl
@[simp] theorem latchConfig_inputs (c : Cfg) (s : State) :
    (latchConfig c s).inputs = s.inputs := rfl
@[simp] theorem latchConfig_cfgIn (c : Cfg) (s : State) :
    (latchConfig c s).cfgIn = s.cfgIn := rfl
@[simp] theorem latchConfig_oracle (c : Cfg) (s : State) :
    (latchConfig c s).oracle = s.oracle := rfl
@[simp] theorem latchConfig_cfg (c : Cfg) (s : State) :
    (latchConfig c s).cfg = c := rfl
@[simp] theorem latchConfig_geo (c : Cfg) (s : State) :
    (latchConfig c s).geo = s.geo := rfl
@[simp] theorem latchConfig_phase (c : Cfg) (s : State) :
    (latchConfig c s).phase = s.phase := rfl
@[simp] theorem latchConfig_upc (c : Cfg) (s : State) :
    (latchConfig c s).upc = 0 := rfl
@[simp] theorem latchConfig_busy (c : Cfg) (s : State) :
    (latchConfig c s).busy = true := rfl
@[simp] theorem latchConfig_result (c : Cfg) (s : State) :
    (latchConfig c s).result = s.result := rfl
@[simp] theorem latchConfig_contrast (c : Cfg) (s : State) :
    (latchConfig c s).contrast = s.contrast := rfl
@[simp] theorem latchConfig_invert (c : Cfg) (s : State) :
    (latchConfig c s).invert = s.invert := rfl
@[simp] theorem latchConfig_dc (c : Cfg) (s : State) :
    (latchConfig c s).dc = s.dc := rfl
@[simp] theorem latchConfig_cs (c : Cfg) (s : State) :
    (latchConfig c s).cs = s.cs := rfl
@[simp] theorem latchConfig_rst (c : Cfg) (s : State) :
    (latchConfig c s).rst = s.rst := rfl
@[simp] theorem latchConfig_fb (c : Cfg) (s : State) :
    (latchConfig c s).fb = s.fb := rfl
@[simp] theorem latchConfig_op (c : Cfg) (s : State) :
    (latchConfig c s).op = some .init := rfl
@[simp] theorem latchConfig_pending (c : Cfg) (s : State) :
    (latchConfig c s).pending = [] := rfl
@[simp] theorem latchConfig_trace (c : Cfg) (s : State) :
    (latchConfig c s).trace = s.trace := rfl
@[simp] theorem latchConfig_results (c : Cfg) (s : State) :
    (latchConfig c s).results = s.results := rfl
@[simp] theorem latchConfig_reads (c : Cfg) (s : State) :
    (latchConfig c s).reads = s.reads := rfl

/-! ### allocate -/

@[simp] theorem allocate_params (s : State) :
    (allocate s).params = s.params := rfl
@[simp] theorem allocate_inputs (s : State) :
    (allocate s).inputs = s.inputs := rfl
@[simp] theorem allocate_cfgIn (s : State) :
    (allocate s).cfgIn = s.cfgIn := rfl
@[simp] theorem allocate_oracle (s : State) :
    (allocate s).oracle = s.oracle := rfl
@[simp] theorem allocate_cfg (s : State) :
    (allocate s).cfg = s.cfg := rfl
@[simp] theorem allocate_geo (s : State) :
    (allocate s).geo = geometry s.params.codes s.cfg := rfl
@[simp] theorem allocate_phase (s : State) :
    (allocate s).phase = s.phase := rfl
@[simp] theorem allocate_upc (s : State) :
    (allocate s).upc = s.upc := rfl
@[simp] theorem allocate_busy (s : State) :
    (allocate s).busy = s.busy := rfl
@[simp] theorem allocate_result (s : State) :
    (allocate s).result = s.result := rfl
@[simp] theorem allocate_contrast (s : State) :
    (allocate s).contrast = s.contrast := rfl
@[simp] theorem allocate_invert (s : State) :
    (allocate s).invert = s.invert := rfl
@[simp] theorem allocate_dc (s : State) :
    (allocate s).dc = s.dc := rfl
@[simp] theorem allocate_cs (s : State) :
    (allocate s).cs = s.cs := rfl
@[simp] theorem allocate_rst (s : State) :
    (allocate s).rst = s.rst := rfl
@[simp] theorem allocate_fb (s : State) :
    (allocate s).fb = [] := rfl
@[simp] theorem allocate_op (s : State) :
    (allocate s).op = s.op := rfl
@[simp] theorem allocate_pending (s : State) :
    (allocate s).pending = s.pending := rfl
@[simp] theorem allocate_trace (s : State) :
    (allocate s).trace = s.trace := rfl
@[simp] theorem allocate_results (s : State) :
    (allocate s).results = s.results := rfl
@[simp] theorem allocate_reads (s : State) :
    (allocate s).reads = s.reads := rfl

/-! ### hardwareReset -/

@[simp] theorem hardwareReset_params (s : State) :
    (hardwareReset s).params = s.params := rfl
@[simp] theorem hardwareReset_inputs (s : State) :
    (hardwareReset s).inputs = s.inputs := rfl
@[simp] theorem hardwareReset_cfgIn (s : State) :
    (hardwareReset s).cfgIn = s.cfgIn := rfl
@[simp] theorem hardwareReset_oracle (s : State) :
    (hardwareReset s).oracle = s.oracle := rfl
@[simp] theorem hardwareReset_cfg (s : State) :
    (hardwareReset s).cfg = State.reset.cfg := rfl
@[simp] theorem hardwareReset_geo (s : State) :
    (hardwareReset s).geo = State.reset.geo := rfl
@[simp] theorem hardwareReset_phase (s : State) :
    (hardwareReset s).phase = State.reset.phase := rfl
@[simp] theorem hardwareReset_upc (s : State) :
    (hardwareReset s).upc = State.reset.upc := rfl
@[simp] theorem hardwareReset_busy (s : State) :
    (hardwareReset s).busy = State.reset.busy := rfl
@[simp] theorem hardwareReset_result (s : State) :
    (hardwareReset s).result = State.reset.result := rfl
@[simp] theorem hardwareReset_contrast (s : State) :
    (hardwareReset s).contrast = State.reset.contrast := rfl
@[simp] theorem hardwareReset_invert (s : State) :
    (hardwareReset s).invert = State.reset.invert := rfl
@[simp] theorem hardwareReset_dc (s : State) :
    (hardwareReset s).dc = State.reset.dc := rfl
@[simp] theorem hardwareReset_cs (s : State) :
    (hardwareReset s).cs = State.reset.cs := rfl
@[simp] theorem hardwareReset_rst (s : State) :
    (hardwareReset s).rst = State.reset.rst := rfl
@[simp] theorem hardwareReset_fb (s : State) :
    (hardwareReset s).fb = State.reset.fb := rfl
@[simp] theorem hardwareReset_op (s : State) :
    (hardwareReset s).op = State.reset.op := rfl
@[simp] theorem hardwareReset_pending (s : State) :
    (hardwareReset s).pending = State.reset.pending := rfl
@[simp] theorem hardwareReset_trace (s : State) :
    (hardwareReset s).trace = s.trace := rfl
@[simp] theorem hardwareReset_results (s : State) :
    (hardwareReset s).results = s.results := rfl
@[simp] theorem hardwareReset_reads (s : State) :
    (hardwareReset s).reads = s.reads := rfl

/-! ### commit and finish -/

@[simp] theorem commit_params (o : Option Op) (s : State) : (commit o s).params = s.params := by
  rcases o with _ | o <;> [skip; cases o] <;> rfl
@[simp] theorem commit_inputs (o : Option Op) (s : State) : (commit o s).inputs = s.inputs := by
  rcases o with _ | o <;> [skip; cases o] <;> rfl
@[simp] theorem commit_cfgIn (o : Option Op) (s : State) : (commit o s).cfgIn = s.cfgIn := by
  rcases o with _ | o <;> [skip; cases o] <;> rfl
@[simp] theorem commit_oracle (o : Option Op) (s : State) : (commit o s).oracle = s.oracle := by
  rcases o with _ | o <;> [skip; cases o] <;> rfl
@[simp] theorem commit_cfg (o : Option Op) (s : State) : (commit o s).cfg = s.cfg := by
  rcases o with _ | o <;> [skip; cases o] <;> rfl
@[simp] theorem commit_geo (o : Option Op) (s : State) : (commit o s).geo = s.geo := by
  rcases o with _ | o <;> [skip; cases o] <;> rfl
@[simp] theorem commit_upc (o : Option Op) (s : State) : (commit o s).upc = s.upc := by
  rcases o with _ | o <;> [skip; cases o] <;> rfl
@[simp] theorem commit_busy (o : Option Op) (s : State) : (commit o s).busy = s.busy := by
  rcases o with _ | o <;> [skip; cases o] <;> rfl
@[simp] theorem commit_result (o : Option Op) (s : State) : (commit o s).result = s.result := by
  rcases o with _ | o <;> [skip; cases o] <;> rfl
@[simp] theorem commit_dc (o : Option Op) (s : State) : (commit o s).dc = s.dc := by
  rcases o with _ | o <;> [skip; cases o] <;> rfl
@[simp] theorem commit_cs (o : Option Op) (s : State) : (commit o s).cs = s.cs := by
  rcases o with _ | o <;> [skip; cases o] <;> rfl
@[simp] theorem commit_rst (o : Option Op) (s : State) : (commit o s).rst = s.rst := by
  rcases o with _ | o <;> [skip; cases o] <;> rfl
@[simp] theorem commit_fb (o : Option Op) (s : State) : (commit o s).fb = s.fb := by
  rcases o with _ | o <;> [skip; cases o] <;> rfl
@[simp] theorem commit_op (o : Option Op) (s : State) : (commit o s).op = s.op := by
  rcases o with _ | o <;> [skip; cases o] <;> rfl
@[simp] theorem commit_pending (o : Option Op) (s : State) : (commit o s).pending = s.pending := by
  rcases o with _ | o <;> [skip; cases o] <;> rfl
@[simp] theorem commit_trace (o : Option Op) (s : State) : (commit o s).trace = s.trace := by
  rcases o with _ | o <;> [skip; cases o] <;> rfl
@[simp] theorem commit_results (o : Option Op) (s : State) : (commit o s).results = s.results := by
  rcases o with _ | o <;> [skip; cases o] <;> rfl
@[simp] theorem commit_reads (o : Option Op) (s : State) : (commit o s).reads = s.reads := by
  rcases o with _ | o <;> [skip; cases o] <;> rfl
@[simp] theorem finish_params (s : State) : (finish s).params = s.params := by simp [finish]
@[simp] theorem finish_inputs (s : State) : (finish s).inputs = s.inputs := by simp [finish]
@[simp] theorem finish_cfgIn (s : State) : (finish s).cfgIn = s.cfgIn := by simp [finish]
@[simp] theorem finish_oracle (s : State) : (finish s).oracle = s.oracle := by simp [finish]
@[simp] theorem finish_cfg (s : State) : (finish s).cfg = s.cfg := by simp [finish]
@[simp] theorem finish_geo (s : State) : (finish s).geo = s.geo := by simp [finish]
@[simp] theorem finish_phase (s : State) : (finish s).phase = (commit s.op s).phase := rfl
@[simp] theorem finish_upc (s : State) : (finish s).upc = s.upc := by simp [finish]
@[simp] theorem finish_busy (s : State) : (finish s).busy = false := rfl
@[simp] theorem finish_result (s : State) : (finish s).result = .ok := rfl
@[simp] theorem finish_contrast (s : State) : (finish s).contrast = (commit s.op s).contrast := rfl
@[simp] theorem finish_invert (s : State) : (finish s).invert = (commit s.op s).invert := rfl
@[simp] theorem finish_dc (s : State) : (finish s).dc = s.dc := by simp [finish]
@[simp] theorem finish_cs (s : State) : (finish s).cs = s.cs := by simp [finish]
@[simp] theorem finish_rst (s : State) : (finish s).rst = s.rst := by simp [finish]
@[simp] theorem finish_fb (s : State) : (finish s).fb = s.fb := by simp [finish]
@[simp] theorem finish_op (s : State) : (finish s).op = none := rfl
@[simp] theorem finish_pending (s : State) : (finish s).pending = [] := rfl
@[simp] theorem finish_trace (s : State) : (finish s).trace = s.trace := by simp [finish]
@[simp] theorem finish_results (s : State) : (finish s).results = s.results ++ [.ok] := by simp [finish]
@[simp] theorem finish_reads (s : State) : (finish s).reads = s.reads := by simp [finish]

end Sys2Proof.Machine
end

