-- ==== Sys2Proof/Laws/Ops.lean ====
section
/-! SUPPORT. What the shared operations can do, said once: an event, events in order, a transaction, an action, and the
executor over a list of actions. Proofs about an instruction cite these and do not unfold the operations. -/

namespace Sys2Proof.Machine

/-! ### Actions -/

/-- The events an action list performs from a framebuffer `m` of `n` bytes, if every byte it sends holds a value. -/
def planOf (c : Cfg) (n : Nat) : List Action → List Host.Cell → Option (List Planned)
  | [], _ => some []
  | .cmd bs :: as, m => (planOf c n as m).map (cmdEvents c bs ++ ·)
  | .data :: as, m =>
    match readFrom m 0 n, planOf c n as m with
    | some vs, some plan => some (dataEvents c vs ++ plan)
    | _, _ => none
  | .line l :: as, m => (planOf c n as m).map ((none, .setRst l) :: ·)
  | .wait t :: as, m => (planOf c n as m).map ((none, .delay t) :: ·)
  | .fill0 :: as, m => planOf c n as (fillZero n m)
  | .phase _ :: as, m => planOf c n as m

/-- The framebuffer an action list leaves. -/
def fbAfter (n : Nat) (as : List Action) (m : List Host.Cell) : List Host.Cell :=
  as.foldl (fun m a => match a with | .fill0 => fillZero n m | _ => m) m

/-- The phase an action list leaves. -/
def phaseAfter (as : List Action) (p : Phase) : Phase :=
  as.foldl (fun p a => match a with | .phase q => q | _ => p) p

/-! ### The oracle -/

theorem Oracle.take_add (o : Oracle) (j k : Nat) : o.take (j + k) = o.take j ++ (o.drop j).take k := by
  induction j generalizing o with
  | zero => simp [Oracle.take, Oracle.drop]
  | succ j ih =>
    rw [Nat.succ_add]
    simp only [Oracle.take, Oracle.drop, ih, List.cons_append]

theorem Oracle.drop_add (o : Oracle) (j k : Nat) : o.drop (j + k) = (o.drop j).drop k := by
  induction j generalizing o with
  | zero => simp [Oracle.drop]
  | succ j ih =>
    rw [Nat.succ_add]
    simp only [Oracle.drop, ih]

theorem Oracle.allOk_next (o : Oracle) (h : o.allOk) : o.next.1 = .ok ∧ o.next.2.allOk := by
  obtain ⟨sc, r⟩ := o
  obtain ⟨h1, h2⟩ := h
  cases sc with
  | nil => exact ⟨h2, h1, h2⟩
  | cons a sc => exact ⟨h1 a (by simp), fun b hb => h1 b (List.mem_cons_of_mem _ hb), h2⟩

theorem Oracle.allOk_drop (o : Oracle) (k : Nat) (h : o.allOk) : (o.drop k).allOk := by
  induction k generalizing o with
  | zero => exact h
  | succ k ih => exact ih _ (o.allOk_next h).2

theorem Oracle.allOk_take (o : Oracle) (k : Nat) (h : o.allOk) : ∀ a ∈ o.take k, a = .ok := by
  induction k generalizing o with
  | zero => simp [Oracle.take]
  | succ k ih =>
    intro a ha
    rcases List.mem_cons.mp ha with rfl | ha
    · exact (o.allOk_next h).1
    · exact ih _ (o.allOk_next h).2 a ha

/-! ### Traces -/

/-- From `s`, the entries `new` were performed by `plan`, up to the first that failed (`x`), and led to `t`, in which
only what events and actions write has changed: the oracle, the trace, the lines, and `phase`, `upc`, `fb` and
`pending`. -/
structure Traced (plan : List Planned) (s : State) (x : Option FailInfo) (t : State) (new : List TraceEntry) :
    Prop where
  frame : t = { s with
    oracle := t.oracle, trace := s.trace ++ new, dc := new.foldl dcAfter s.dc, cs := new.foldl csAfter s.cs
    rst := new.foldl rstAfter s.rst, phase := t.phase, upc := t.upc, fb := t.fb, pending := t.pending }
  ended : (x = none ∧ new = plan.map okEntry)
    ∨ ∃ before e after y, plan = before ++ e :: after ∧ e.2.mayFail = true
        ∧ new = before.map okEntry ++ [failEntry y e] ∧ x = some y
  answers : answersOf new = s.oracle.take (answersOf new).length
  oracle : t.oracle = s.oracle.drop (answersOf new).length
  delays : ∀ e ∈ new, e.event.mayFail = false → e.answer = .ok

theorem answersOf_append (a b : List TraceEntry) : answersOf (a ++ b) = answersOf a ++ answersOf b := by
  simp [answersOf]

/-- Nothing performed. -/
theorem Traced.nil (s t : State)
    (h : t = { s with phase := t.phase, upc := t.upc, fb := t.fb, pending := t.pending }) : Traced [] s none t [] := by
  have hf : ∀ ph up f pe, t = { s with phase := ph, upc := up, fb := f, pending := pe } →
      Traced [] s none t [] := by
    rintro ph up f pe rfl
    exact ⟨by simp, .inl ⟨rfl, rfl⟩, rfl, rfl, by simp⟩
  exact hf _ _ _ _ h

/-- What follows a completed plan follows on. -/
theorem Traced.append {p q : List Planned} {s t u : State} {x : Option FailInfo} {a b : List TraceEntry}
    (h : Traced p s none t a) (k : Traced q t x u b) : Traced (p ++ q) s x u (a ++ b) := by
  have ha : a = p.map okEntry := by
    rcases h.ended with ⟨-, h⟩ | ⟨_, _, _, _, _, _, _, h⟩
    · exact h
    · exact absurd h (by simp)
  refine ⟨?_, ?_, ?_, ?_, ?_⟩
  · rw [k.frame, h.frame]; simp
  · rcases k.ended with ⟨hx, hb⟩ | ⟨before, e, after, y, hq, he, hb, hx⟩
    · exact .inl ⟨hx, by rw [ha, hb, List.map_append]⟩
    · exact .inr ⟨p ++ before, e, after, y, by rw [hq]; simp, he, by rw [ha, hb]; simp, hx⟩
  · rw [answersOf_append, List.length_append, Oracle.take_add, ← h.answers, ← h.oracle, ← k.answers]
  · rw [answersOf_append, List.length_append, Oracle.drop_add, ← h.oracle, ← k.oracle]
  · intro e he
    rcases List.mem_append.mp he with he | he
    · exact h.delays e he
    · exact k.delays e he

/-- A plan that failed is a longer plan that failed. -/
theorem Traced.failed {p : List Planned} {s t : State} {x : FailInfo} {a : List TraceEntry} (q : List Planned)
    (h : Traced p s (some x) t a) : Traced (p ++ q) s (some x) t a := by
  refine ⟨h.frame, ?_, h.answers, h.oracle, h.delays⟩
  rcases h.ended with ⟨h, -⟩ | ⟨before, e, after, y, hq, he, hb, hx⟩
  · exact absurd h (by simp)
  · exact .inr ⟨before, e, after ++ q, y, by rw [hq]; simp, he, hb, hx⟩

/-- A later state may differ in what actions write without events. -/
theorem Traced.weaken {p : List Planned} {s t u : State} {x : Option FailInfo} {a : List TraceEntry}
    (h : Traced p s x t a) (hu : u = { t with phase := u.phase, upc := u.upc, fb := u.fb, pending := u.pending }) :
    Traced p s x u a := by
  have ho : u.oracle = t.oracle := by rw [hu]
  refine ⟨?_, h.ended, h.answers, by rw [ho, h.oracle], h.delays⟩
  rw [hu, h.frame]

/-- The same from an earlier state that differs so. -/
theorem Traced.from {p : List Planned} {r s t : State} {x : Option FailInfo} {a : List TraceEntry}
    (hs : s = { r with phase := s.phase, upc := s.upc, fb := s.fb, pending := s.pending })
    (h : Traced p s x t a) : Traced p r x t a := by
  have := Traced.append (Traced.nil r s hs) h
  simpa using this

/-! ### Events -/

/-- An event the environment answers. -/
theorem emitAnswered_spec (k : Option Tag) (e : Event) (s : State) (he : e.mayFail = true) :
    ∃ new, Traced [(k, e)] s (emitAnswered k e s).1 (emitAnswered k e s).2 new
      ∧ (emitAnswered k e s).2.phase = s.phase ∧ (emitAnswered k e s).2.upc = s.upc
      ∧ (emitAnswered k e s).2.fb = s.fb ∧ (emitAnswered k e s).2.pending = s.pending := by
  have hans : ∀ a, answersOf [⟨k, e, a⟩] = [a] := fun a => by simp [answersOf, he]
  rcases hn : s.oracle.next with ⟨a, o⟩
  have htake : s.oracle.take 1 = [a] := by simp [Oracle.take, hn]
  have hdrop : s.oracle.drop 1 = o := by simp [Oracle.drop, hn]
  cases a with
  | ok =>
    refine ⟨[⟨k, e, .ok⟩], ⟨?_, .inl ?_, ?_, ?_, ?_⟩, ?_⟩
    · simp only [emitAnswered, hn]; cases e <;> rfl
    · exact ⟨by simp [emitAnswered, hn], rfl⟩
    · rw [hans]; exact htake.symm
    · rw [hans]
      refine Eq.trans ?_ hdrop.symm
      simp only [emitAnswered, hn]; cases e <;> rfl
    · simp
    · simp only [emitAnswered, hn]; cases e <;> exact ⟨rfl, rfl, rfl, rfl⟩
  | fail x =>
    refine ⟨[⟨k, e, .fail x⟩], ⟨?_, .inr ⟨[], (k, e), [], x, rfl, he, rfl, ?_⟩, ?_, ?_, ?_⟩, ?_⟩
    · simp only [emitAnswered, hn]; cases e <;> rfl
    · simp [emitAnswered, hn]
    · rw [hans]; exact htake.symm
    · rw [hans]
      refine Eq.trans ?_ hdrop.symm
      simp only [emitAnswered, hn]; rfl
    · intro e' he' hm
      obtain rfl : e' = _ := by simpa using he'
      rw [he] at hm
      exact absurd hm (by simp)
    · simp only [emitAnswered, hn]; exact ⟨rfl, rfl, rfl, rfl⟩

/-- One event: performed as planned, and only the oracle, the trace and the line registers have changed. -/
theorem emit_spec (k : Option Tag) (e : Event) (s : State) :
    ∃ new, Traced [(k, e)] s (emit k e s).1 (emit k e s).2 new
      ∧ (emit k e s).2.phase = s.phase ∧ (emit k e s).2.upc = s.upc ∧ (emit k e s).2.fb = s.fb
      ∧ (emit k e s).2.pending = s.pending := by
  cases e with
  | delay t =>
    refine ⟨[⟨k, .delay t, .ok⟩], ⟨rfl, .inl ⟨rfl, rfl⟩, rfl, rfl, ?_⟩, rfl, rfl, rfl, rfl⟩
    intro e he _
    obtain rfl : e = _ := by simpa using he
    rfl
  | writeBytes a bs => exact emitAnswered_spec k (.writeBytes a bs) s rfl
  | setDc l => exact emitAnswered_spec k (.setDc l) s rfl
  | setCs l => exact emitAnswered_spec k (.setCs l) s rfl
  | setRst l => exact emitAnswered_spec k (.setRst l) s rfl

/-- Events in order: performed as planned up to the first that failed, and only the oracle, the trace and the line
registers have changed. -/
theorem emitAll_spec (k : Option Tag) (es : List Event) (s : State) :
    ∃ new, Traced (es.map (fun e => (k, e))) s (emitAll k es s).1 (emitAll k es s).2 new
      ∧ (emitAll k es s).2.phase = s.phase ∧ (emitAll k es s).2.upc = s.upc ∧ (emitAll k es s).2.fb = s.fb
      ∧ (emitAll k es s).2.pending = s.pending := by
  induction es generalizing s with
  | nil => exact ⟨[], Traced.nil s s rfl, rfl, rfl, rfl, rfl⟩
  | cons e es ih =>
    obtain ⟨a, ha, h1, h2, h3, h4⟩ := emit_spec k e s
    simp only [emitAll]
    rcases hx : emit k e s with ⟨_ | x, s'⟩
    · rw [hx] at ha h1 h2 h3 h4
      obtain ⟨b, hb, k1, k2, k3, k4⟩ := ih s'
      exact ⟨a ++ b, ha.append hb, k1.trans h1, k2.trans h2, k3.trans h3, k4.trans h4⟩
    · rw [hx] at ha h1 h2 h3 h4
      exact ⟨a, ha.failed (es.map fun e => (k, e)), h1, h2, h3, h4⟩

theorem transaction_command (c : Cfg) (bs : List Byte) :
    (transaction c .command bs).map (fun e => (some Tag.command, e)) = cmdEvents c bs := by
  simp only [transaction, cmdEvents]; cases c.variant <;> rfl

theorem transaction_data (c : Cfg) (bs : List Byte) :
    (transaction c .data bs).map (fun e => (some Tag.data, e)) = dataEvents c bs := by
  simp only [transaction, dataEvents]; cases c.variant <;> rfl

/-- A command transaction (rules R81, R83, R85). -/
theorem send_command_spec (bs : List Byte) (s : State) :
    ∃ new, Traced (cmdEvents s.cfg bs) s (send .command bs s).1 (send .command bs s).2 new
      ∧ (send .command bs s).2.phase = s.phase ∧ (send .command bs s).2.upc = s.upc
      ∧ (send .command bs s).2.fb = s.fb ∧ (send .command bs s).2.pending = s.pending := by
  rw [← transaction_command]
  exact emitAll_spec _ _ _

/-- A data transaction (rules R82, R84, R85). -/
theorem send_data_spec (bs : List Byte) (s : State) :
    ∃ new, Traced (dataEvents s.cfg bs) s (send .data bs s).1 (send .data bs s).2 new
      ∧ (send .data bs s).2.phase = s.phase ∧ (send .data bs s).2.upc = s.upc
      ∧ (send .data bs s).2.fb = s.fb ∧ (send .data bs s).2.pending = s.pending := by
  rw [← transaction_data]
  exact emitAll_spec _ _ _

/-! ### Actions and the executor -/

/-- The plan of one action. -/
def actionPlan (s : State) : Action → Option (List Planned)
  | .cmd bs => some (cmdEvents s.cfg bs)
  | .data => (framebufferBytes s).map (dataEvents s.cfg)
  | .line l => some [(none, .setRst l)]
  | .wait t => some [(none, .delay t)]
  | .fill0 => some []
  | .phase _ => some []

/-- What one action can do: it performs its plan, and then has its own write and is counted; or it performs its plan
up to the first failure, and the error entry follows; or it faults, having no plan (rule R142). -/
theorem turn_spec (a : Action) (s : State) :
    (∃ plan new u, actionPlan s a = some plan ∧ turn a s = .done u ∧ Traced plan s none u new
      ∧ u.phase = phaseAfter [a] s.phase ∧ u.fb = fbAfter s.geo.n [a] s.fb ∧ u.pending = s.pending
      ∧ u.upc = if a.counted then s.upc + 1 else s.upc)
    ∨ (∃ plan new u x, actionPlan s a = some plan ∧ turn a s = .aborted (raiseErr .transport (some x) u)
      ∧ Traced plan s (some x) u new ∧ u.phase = s.phase ∧ u.fb = s.fb ∧ u.pending = s.pending ∧ u.upc = s.upc)
    ∨ (actionPlan s a = none ∧ turn a s = .fault .unwrittenFramebuffer) := by
  have key : ∀ (plan : List Planned) (r : Option FailInfo × State), actionPlan s a = some plan →
      perform a s = performedOf r → a.counted = true → phaseAfter [a] s.phase = s.phase →
      fbAfter s.geo.n [a] s.fb = s.fb →
      (∃ new, Traced plan s r.1 r.2 new ∧ r.2.phase = s.phase ∧ r.2.upc = s.upc ∧ r.2.fb = s.fb
        ∧ r.2.pending = s.pending) →
      (∃ plan new u, actionPlan s a = some plan ∧ turn a s = .done u ∧ Traced plan s none u new
        ∧ u.phase = phaseAfter [a] s.phase ∧ u.fb = fbAfter s.geo.n [a] s.fb ∧ u.pending = s.pending
        ∧ u.upc = if a.counted then s.upc + 1 else s.upc)
      ∨ (∃ plan new u x, actionPlan s a = some plan ∧ turn a s = .aborted (raiseErr .transport (some x) u)
        ∧ Traced plan s (some x) u new ∧ u.phase = s.phase ∧ u.fb = s.fb ∧ u.pending = s.pending
        ∧ u.upc = s.upc) := by
    rintro plan ⟨_ | x, u⟩ hplan hp hc hph hfb ⟨new, ht, h1, h2, h3, h4⟩
    · refine .inl ⟨plan, new, countAction a u, hplan, by rw [turn, hp]; rfl, ht.weaken rfl, ?_, ?_, ?_, ?_⟩
      · rw [hph]; exact h1
      · rw [hfb]; exact h3
      · exact h4
      · have hu : u.upc = s.upc := h2
        rw [countAction_upc, hu]
    · exact .inr ⟨plan, new, u, x, hplan, by rw [turn, hp]; rfl, ht, h1, h3, h4, h2⟩
  cases a with
  | cmd bs =>
    rcases key _ _ rfl rfl rfl rfl rfl (send_command_spec bs s) with h | h
    · exact .inl h
    · exact .inr (.inl h)
  | data =>
    cases hv : framebufferBytes s with
    | none => exact .inr (.inr ⟨by simp [actionPlan, hv], by simp [turn, perform, hv]⟩)
    | some vs =>
      rcases key _ (send .data vs s) (by simp [actionPlan, hv]) (by simp [perform, hv]) rfl rfl rfl
        (send_data_spec vs s) with h | h
      · exact .inl h
      · exact .inr (.inl h)
  | line l =>
    rcases key _ (emitAll none [.setRst l] s) rfl rfl rfl rfl rfl (emitAll_spec none [.setRst l] s) with h | h
    · exact .inl h
    · exact .inr (.inl h)
  | wait t =>
    rcases key _ (emitAll none [.delay t] s) rfl rfl rfl rfl rfl (emitAll_spec none [.delay t] s) with h | h
    · exact .inl h
    · exact .inr (.inl h)
  | fill0 => exact .inl ⟨[], [], _, rfl, rfl, Traced.nil _ _ rfl, rfl, rfl, rfl, rfl⟩
  | phase p => exact .inl ⟨[], [], _, rfl, rfl, Traced.nil _ _ rfl, rfl, rfl, rfl, rfl⟩

theorem planOf_cons (s : State) (a : Action) (as : List Action) (plan : List Planned)
    (h : planOf s.cfg s.geo.n (a :: as) s.fb = some plan) :
    ∃ p q, actionPlan s a = some p ∧ planOf s.cfg s.geo.n as (fbAfter s.geo.n [a] s.fb) = some q ∧ plan = p ++ q := by
  cases a with
  | cmd bs =>
    obtain ⟨q, hq, rfl⟩ := Option.map_eq_some_iff.mp h
    exact ⟨_, q, rfl, hq, rfl⟩
  | data =>
    simp only [planOf] at h
    split at h
    next vs q hv hq =>
      obtain rfl : _ = plan := by simpa using h
      exact ⟨dataEvents s.cfg vs, q, by simp [actionPlan, framebufferBytes, hv], hq, rfl⟩
    next => exact absurd h (by simp)
  | line l =>
    obtain ⟨q, hq, rfl⟩ := Option.map_eq_some_iff.mp h
    exact ⟨_, q, rfl, hq, rfl⟩
  | wait t =>
    obtain ⟨q, hq, rfl⟩ := Option.map_eq_some_iff.mp h
    exact ⟨_, q, rfl, hq, rfl⟩
  | fill0 => exact ⟨[], plan, rfl, h, rfl⟩
  | phase p => exact ⟨[], plan, rfl, h, rfl⟩

/-- What the executor can do with an action list that has a plan: it performs the whole plan and the operation ends
`Ok`, in the phase and with the framebuffer the list leaves; or it performs the plan up to the first failure, and the
error entry follows, in the phase and with the framebuffer that the completed actions left (rules R85, R140, R142,
R157). -/
theorem run_spec (as : List Action) (s : State) (plan : List Planned)
    (h : planOf s.cfg s.geo.n as s.fb = some plan) :
    (∃ new u, run as s = .next (finish u) ∧ Traced plan s none u new
      ∧ u.phase = phaseAfter as s.phase ∧ u.fb = fbAfter s.geo.n as s.fb)
    ∨ (∃ new u x pre post, run as s = .next (raiseErr .transport (some x) u) ∧ Traced plan s (some x) u new
      ∧ as = pre ++ post ∧ u.phase = phaseAfter pre s.phase ∧ u.fb = fbAfter s.geo.n pre s.fb) := by
  induction as generalizing s plan with
  | nil =>
    obtain rfl : [] = plan := by simpa [planOf] using h
    exact .inl ⟨[], s, rfl, Traced.nil s s rfl, rfl, rfl⟩
  | cons a as ih =>
    obtain ⟨p, q, hp, hq, rfl⟩ := planOf_cons s a as plan h
    have hp' : actionPlan { s with pending := as } a = some p := by
      rw [← hp]; cases a <;> rfl
    simp only [run]
    rcases turn_spec a { s with pending := as } with
      ⟨p', new, u, h1, h2, h3, h4, h5, -⟩ | ⟨p', new, u, x, h1, h2, h3, h4, h5, -⟩ | ⟨h1, -⟩
    · obtain rfl : p = p' := by simpa [hp'] using h1
      have h3' : Traced p s none u new := h3.from rfl
      have hc : u.cfg = s.cfg := by rw [h3'.frame]
      have hg : u.geo = s.geo := by rw [h3'.frame]
      rw [h2]
      rcases ih u q (by rw [hc, hg, h5]; exact hq) with ⟨new', v, k1, k2, k3, k4⟩ | ⟨new', v, x, pre, post, k1, k2, k3, k4, k5⟩
      · refine .inl ⟨new ++ new', v, k1, h3'.append k2, ?_, ?_⟩
        · rw [k3, h4]; rfl
        · rw [k4, h5, hg]; rfl
      · refine .inr ⟨new ++ new', v, x, a :: pre, post, k1, h3'.append k2, by rw [k3]; rfl, ?_, ?_⟩
        · rw [k4, h4]; rfl
        · rw [k5, h5, hg]; rfl
    · obtain rfl : p = p' := by simpa [hp'] using h1
      rw [h2]
      exact .inr ⟨new, u, x, [], a :: as, rfl, (h3.from rfl).failed q, rfl, h4, h5⟩
    · rw [hp'] at h1; exact absurd h1 (by simp)

/-- An executor whose action list has no plan faults only for a byte that holds no value; it never refuses. -/
theorem run_ne_refused (as : List Action) (s : State) (r : Refusal) : run as s ≠ .refused r := by
  induction as generalizing s with
  | nil => simp [run]
  | cons a as ih =>
    simp only [run]
    split
    · exact ih _
    · simp
    · simp

/-- Every entry performed was planned. -/
theorem Traced.planned {p : List Planned} {s t : State} {x : Option FailInfo} {a : List TraceEntry}
    (h : Traced p s x t a) : ∀ e ∈ a, (e.tag, e.event) ∈ p := by
  intro e he
  rcases h.ended with ⟨-, rfl⟩ | ⟨before, d, after, y, rfl, -, rfl, -⟩
  · obtain ⟨d, hd, rfl⟩ := List.mem_map.mp he
    exact hd
  · rcases List.mem_append.mp he with he | he
    · obtain ⟨d', hd, rfl⟩ := List.mem_map.mp he
      exact List.mem_append_left _ hd
    · obtain rfl : e = failEntry y d := by simpa using he
      exact List.mem_append_right _ (by simp [failEntry])

/-- A plan completed is its events answered `ok`. -/
theorem Traced.complete {p : List Planned} {s t : State} {a : List TraceEntry} (h : Traced p s none t a) :
    a = p.map okEntry := by
  rcases h.ended with ⟨-, h⟩ | ⟨_, _, _, _, _, _, _, h⟩
  · exact h
  · exact absurd h (by simp)

/-- Entries that drive no line of a kind leave its register as it was. -/
theorem foldl_rstAfter (a : List TraceEntry) (l : RstLevel) (h : ∀ e ∈ a, ∀ q, e.event ≠ .setRst q) :
    a.foldl rstAfter l = l := by
  induction a with
  | nil => rfl
  | cons e a ih =>
    have he : rstAfter l e = l := by
      simp only [rstAfter]
      split
      next q hq _ => exact absurd hq (h e (by simp) q)
      next => rfl
    rw [List.foldl_cons, he]
    exact ih fun e he => h e (List.mem_cons_of_mem _ he)

theorem foldl_dcAfter (a : List TraceEntry) (l : DcLevel) (h : ∀ e ∈ a, ∀ q, e.event ≠ .setDc q) :
    a.foldl dcAfter l = l := by
  induction a with
  | nil => rfl
  | cons e a ih =>
    have he : dcAfter l e = l := by
      simp only [dcAfter]
      split
      next q hq _ => exact absurd hq (h e (by simp) q)
      next => rfl
    rw [List.foldl_cons, he]
    exact ih fun e he => h e (List.mem_cons_of_mem _ he)

theorem foldl_csAfter (a : List TraceEntry) (l : CsLevel) (h : ∀ e ∈ a, ∀ q, e.event ≠ .setCs q) :
    a.foldl csAfter l = l := by
  induction a with
  | nil => rfl
  | cons e a ih =>
    have he : csAfter l e = l := by
      simp only [csAfter]
      split
      next q hq _ => exact absurd hq (h e (by simp) q)
      next => rfl
    rw [List.foldl_cons, he]
    exact ih fun e he => h e (List.mem_cons_of_mem _ he)

/-- With every event answered `ok` no failure is traced. -/
theorem Traced.ok_of_allOk {p : List Planned} {s t : State} {x : Option FailInfo} {a : List TraceEntry}
    (h : Traced p s x t a) (ho : s.oracle.allOk) : x = none := by
  rcases h.ended with ⟨hx, -⟩ | ⟨before, e, after, y, -, he, ha, -⟩
  · exact hx
  · have hmem : Answer.fail y ∈ answersOf a := by
      rw [ha, answersOf_append]
      refine List.mem_append_right _ ?_
      have he' : (failEntry y e).event.mayFail = true := he
      simp [answersOf, he']
      rfl
    rw [h.answers] at hmem
    exact absurd (s.oracle.allOk_take _ ho _ hmem) (by simp)

end Sys2Proof.Machine
end

