-- ==== Sys2Proof/Laws/Exec.lean ====
section
/-! SUPPORT. What an instruction can do to what the outside sees, said once for every instruction: the trace grows by
transactions, reset-line events and delays, up to the first event that failed. -/

namespace Sys2Proof.Machine

/-- One transaction of an action list's commands, one data transaction, one reset-line event or one delay. -/
def Piece (c : Cfg) (cmds : List Action) (p : List Planned) : Prop :=
  (∃ bs, Action.cmd bs ∈ cmds ∧ p = cmdEvents c bs) ∨ (∃ vs, p = dataEvents c vs)
    ∨ (∃ l, p = [(none, .setRst l)]) ∨ (∃ d, p = [(none, .delay d)])

theorem Piece.mono {c : Cfg} {as bs : List Action} {p : List Planned} (h : Piece c as p) (hs : ∀ a ∈ as, a ∈ bs) :
    Piece c bs p := by
  rcases h with ⟨b, h, rfl⟩ | h | h | h
  · exact .inl ⟨b, hs _ h, rfl⟩
  · exact .inr (.inl h)
  · exact .inr (.inr (.inl h))
  · exact .inr (.inr (.inr h))

/-- One turn ends with the action done, or with the error entry, or faults; its events are at most one piece. -/
theorem turn_traced (a : Action) (s : State) :
    (∃ ps new u, turn a s = .done u ∧ Traced (List.flatten ps) s none u new ∧ ∀ p ∈ ps, Piece s.cfg [a] p)
    ∨ (∃ ps new u x, turn a s = .aborted (raiseErr .transport (some x) u) ∧ Traced (List.flatten ps) s (some x) u new
        ∧ (∀ p ∈ ps, Piece s.cfg [a] p) ∧ u.op = s.op ∧ u.phase = s.phase)
    ∨ turn a s = .fault .unwrittenFramebuffer := by
  have piece : ∀ plan, actionPlan s a = some plan → ∃ ps : List (List Planned), ps.flatten = plan ∧
      ∀ p ∈ ps, Piece s.cfg [a] p := by
    intro plan h
    cases a with
    | cmd bs => exact ⟨[plan], by simp, by simpa using .inl ⟨bs, by simp, (Option.some.inj h).symm⟩⟩
    | data =>
      obtain ⟨vs, -, rfl⟩ := Option.map_eq_some_iff.mp h
      exact ⟨[dataEvents s.cfg vs], by simp, by simpa using .inr (.inl ⟨vs, rfl⟩)⟩
    | line l => exact ⟨[plan], by simp, by simpa using .inr (.inr (.inl ⟨l, (Option.some.inj h).symm⟩))⟩
    | wait d => exact ⟨[plan], by simp, by simpa using .inr (.inr (.inr ⟨d, (Option.some.inj h).symm⟩))⟩
    | fill0 => exact ⟨[], Option.some.inj h, by simp⟩
    | phase q => exact ⟨[], Option.some.inj h, by simp⟩
  rcases turn_spec a s with ⟨plan, new, u, h1, h2, h3, -⟩ | ⟨plan, new, u, x, h1, h2, h3, h4, -⟩ | ⟨-, h⟩
  · obtain ⟨ps, rfl, hp⟩ := piece plan h1
    exact .inl ⟨ps, new, u, h2, h3, hp⟩
  · obtain ⟨ps, rfl, hp⟩ := piece plan h1
    exact .inr (.inl ⟨ps, new, u, x, h2, h3, hp, by rw [h3.frame], h4⟩)
  · exact .inr (.inr h)

/-- What the executor can do with any action list: it ends `Ok`, or in the error entry after the event that failed, or
faults; its events are pieces of the list's actions, in order. -/
theorem run_traced (as : List Action) (s : State) :
    (∃ ps new u, run as s = .next (finish u) ∧ Traced (List.flatten ps) s none u new ∧ ∀ p ∈ ps, Piece s.cfg as p)
    ∨ (∃ ps new u x, run as s = .next (raiseErr .transport (some x) u) ∧ Traced (List.flatten ps) s (some x) u new
        ∧ ∀ p ∈ ps, Piece s.cfg as p)
    ∨ run as s = .fault .unwrittenFramebuffer := by
  induction as generalizing s with
  | nil => exact .inl ⟨[], [], s, rfl, Traced.nil s s rfl, by simp⟩
  | cons a as ih =>
    simp only [run]
    rcases turn_traced a { s with pending := as } with ⟨ps, new, u, h1, h2, h3⟩ | ⟨ps, new, u, x, h1, h2, h3, -⟩ | h
    · have h2' : Traced (List.flatten ps) s none u new := h2.from rfl
      have hc : u.cfg = s.cfg := by rw [h2'.frame]
      have hps : ∀ p ∈ ps, Piece s.cfg (a :: as) p := fun p hp => (h3 p hp).mono (by simp)
      rw [h1]
      rcases ih u with ⟨qs, new', v, k1, k2, k3⟩ | ⟨qs, new', v, x, k1, k2, k3⟩ | k
      · refine .inl ⟨ps ++ qs, new ++ new', v, k1, by rw [List.flatten_append]; exact h2'.append k2, ?_⟩
        intro p hp
        rcases List.mem_append.mp hp with hp | hp
        · exact hps p hp
        · exact hc ▸ (k3 p hp).mono fun b hb => List.mem_cons_of_mem _ hb
      · refine .inr (.inl ⟨ps ++ qs, new ++ new', v, x, k1, by rw [List.flatten_append]; exact h2'.append k2, ?_⟩)
        intro p hp
        rcases List.mem_append.mp hp with hp | hp
        · exact hps p hp
        · exact hc ▸ (k3 p hp).mono fun b hb => List.mem_cons_of_mem _ hb
      · exact .inr (.inr k)
    · rw [h1]
      exact .inr (.inl ⟨ps, new, u, x, rfl, h2.from rfl, fun p hp => (h3 p hp).mono (by simp)⟩)
    · rw [h]
      exact .inr (.inr rfl)

/-! ### Every instruction -/

/-- What the outside sees of an instruction that led from `s` to `t`: it performed the entries `new`, by `plan` up to
the first that failed, and the environment's answers, the lines and the records moved accordingly. -/
structure Outward (plan : List Planned) (s : State) (x : Option FailInfo) (t : State) (new : List TraceEntry) :
    Prop where
  trace : t.trace = s.trace ++ new
  ended : (x = none ∧ new = plan.map okEntry)
    ∨ ∃ before e after y, plan = before ++ e :: after ∧ e.2.mayFail = true
        ∧ new = before.map okEntry ++ [failEntry y e] ∧ x = some y
  answers : answersOf new = s.oracle.take (answersOf new).length
  oracle : t.oracle = s.oracle.drop (answersOf new).length
  delays : ∀ e ∈ new, e.event.mayFail = false → e.answer = .ok
  dc : t.dc = new.foldl dcAfter s.dc
  cs : t.cs = new.foldl csAfter s.cs
  rst : t.rst = new.foldl rstAfter s.rst
  params : t.params = s.params
  inputs : t.inputs = s.inputs
  cfgIn : t.cfgIn = s.cfgIn
  results : ∃ rs, t.results = s.results ++ rs
  reads : ∃ rs, t.reads = s.reads ++ rs

/-- The states differ in nothing that the outside sees. -/
theorem Outward.quiet (s t : State)
    (h : t = { s with cfg := t.cfg, geo := t.geo, phase := t.phase, upc := t.upc, busy := t.busy, result := t.result,
                      contrast := t.contrast, invert := t.invert, fb := t.fb, op := t.op, pending := t.pending,
                      results := t.results, reads := t.reads })
    (hr : ∃ rs, t.results = s.results ++ rs) (hd : ∃ rs, t.reads = s.reads ++ rs) : Outward [] s none t [] := by
  have ho : t.oracle = s.oracle := by rw [h]
  refine ⟨?_, .inl ⟨rfl, rfl⟩, rfl, by rw [ho]; rfl, by simp, ?_, ?_, ?_, ?_, ?_, ?_, hr, hd⟩
  · rw [h]; simp
  all_goals (rw [h]; try rfl)

/-- What a traced run shows the outside, from a state that shows the same and to a state that does. -/
theorem Traced.outward {plan : List Planned} {r s u t : State} {x : Option FailInfo} {new : List TraceEntry}
    (h : Traced plan s x u new)
    (hs : s = { r with cfg := s.cfg, geo := s.geo, phase := s.phase, upc := s.upc, busy := s.busy, fb := s.fb, op := s.op,
                       pending := s.pending })
    (ht : t = { u with phase := t.phase, busy := t.busy, result := t.result, contrast := t.contrast,
                       invert := t.invert, op := t.op, pending := t.pending, results := t.results })
    (hr : ∃ rs, t.results = u.results ++ rs) : Outward plan r x t new := by
  have hso : s.oracle = r.oracle := by rw [hs]
  have hto : t.oracle = u.oracle := by rw [ht]
  have htr : s.trace = r.trace := by rw [hs]
  have hut : u.trace = s.trace ++ new := by rw [h.frame]
  have hres : u.results = s.results := by rw [h.frame]
  have hsr : s.results = r.results := by rw [hs]
  have hrd : u.reads = s.reads := by rw [h.frame]
  have hsd : s.reads = r.reads := by rw [hs]
  have htd : t.reads = u.reads := by rw [ht]
  refine ⟨?_, h.ended, by rw [← hso]; exact h.answers, by rw [hto, ← hso]; exact h.oracle, h.delays,
    ?_, ?_, ?_, ?_, ?_, ?_, ?_, ?_⟩
  · rw [← htr, ← hut, ht]
  · rw [ht, h.frame, hs]
  · rw [ht, h.frame, hs]
  · rw [ht, h.frame, hs]
  · rw [ht, h.frame, hs]
  · rw [ht, h.frame, hs]
  · rw [ht, h.frame, hs]
  · obtain ⟨rs, hrs⟩ := hr
    exact ⟨rs, by rw [hrs, hres, hsr]⟩
  · exact ⟨[], by rw [htd, hrd, hsd, List.append_nil]⟩

/-- The actions of an accepted host operation, and the command of a wire command. -/
def instrActions (p : Params) : Instr → List Action
  | .init cfg => initActions p cfg.hasRst (effectiveRotation cfg.rotationIn)
  | .powerOff => [.cmd (dispOffBytes p.codes)]
  | .powerOn => [.cmd (dispOnBytes p.codes)]
  | .contrast level => [.cmd (evrBytes p.codes level)]
  | .invert flag => [.cmd (invBytes p.codes flag)]
  | .flush => flushActions p.codes
  | .reserved6 => []
  | .reserved7 => []
  | .fbw _ _ => []
  | .fbr _ => []
  | i =>
    match encode p.codes i with
    | .wire bs => [.cmd bs]
    | .hcw _ => []
    | .portWrite _ _ => []
    | .portRead _ => []

theorem report_outward {plan : List Planned} {r s u t : State} {x : Option FailInfo} {new : List TraceEntry} (q : Result)
    (h : Traced plan s x u new)
    (hs : s = { r with cfg := s.cfg, geo := s.geo, phase := s.phase, upc := s.upc, busy := s.busy, fb := s.fb, op := s.op,
                       pending := s.pending })
    (ht : t = { u with phase := t.phase, busy := t.busy, result := t.result, contrast := t.contrast,
                       invert := t.invert, op := t.op, pending := t.pending, results := u.results ++ [q] }) :
    Outward plan r x t new := by
  have hr : t.results = u.results ++ [q] := by rw [ht]
  exact h.outward hs (by rw [hr]; exact ht) ⟨[q], hr⟩

theorem finish_results_only (u : State) :
    finish u = { u with phase := (finish u).phase, busy := (finish u).busy, result := (finish u).result
                        contrast := (finish u).contrast, invert := (finish u).invert, op := (finish u).op
                        pending := (finish u).pending, results := u.results ++ [.ok] } := by
  unfold finish report commit
  rcases u.op with _ | o
  · rfl
  · cases o <;> rfl

theorem run_outward (as : List Action) (r s t : State)
    (hs : s = { r with cfg := s.cfg, geo := s.geo, phase := s.phase, upc := s.upc, busy := s.busy, fb := s.fb, op := s.op,
                       pending := s.pending })
    (h : run as s = .next t) :
    ∃ ps x new, Outward (List.flatten ps) r x t new ∧ (∀ p ∈ ps, Piece s.cfg as p) ∧ t.cfg = s.cfg ∧ t.geo = s.geo := by
  rcases run_traced as s with ⟨ps, new, u, h1, h2, h3⟩ | ⟨ps, new, u, x, h1, h2, h3⟩ | h1
  · obtain rfl : finish u = t := by rw [h1] at h; simpa using h
    exact ⟨ps, none, new, report_outward .ok h2 hs (finish_results_only u), h3,
      by rw [finish_cfg, h2.frame], by rw [finish_geo, h2.frame]⟩
  · obtain rfl : raiseErr .transport (some x) u = t := by rw [h1] at h; simpa using h
    exact ⟨ps, some x, new, report_outward _ h2 hs rfl, h3, by rw [raiseErr_cfg, h2.frame],
      by rw [raiseErr_geo, h2.frame]⟩
  · rw [h1] at h; exact absurd h (by simp)

theorem sendCommand_outward (bs : List Byte) (s t : State) (h : sendCommand bs s = .next t) :
    ∃ ps x new, Outward (List.flatten ps) s x t new ∧ (∀ p ∈ ps, Piece s.cfg [.cmd bs] p) ∧ t.cfg = s.cfg ∧ t.geo = s.geo := by
  unfold sendCommand at h
  rcases turn_traced (.cmd bs) s with ⟨ps, new, u, h1, h2, h3⟩ | ⟨ps, new, u, x, h1, h2, h3, -⟩ | h1
  · obtain rfl : u = t := by rw [h1] at h; simpa using h
    exact ⟨ps, none, new, h2.outward rfl rfl ⟨[], by simp⟩, h3, by rw [h2.frame], by rw [h2.frame]⟩
  · obtain rfl : raiseErr .transport (some x) u = t := by rw [h1] at h; simpa using h
    exact ⟨ps, some x, new, report_outward _ h2 rfl rfl, h3, by rw [raiseErr_cfg, h2.frame],
      by rw [raiseErr_geo, h2.frame]⟩
  · rw [h1] at h; exact absurd h (by simp)

theorem runtimeOp_outward (o : Op) (as : List Action) (s t : State) (h : runtimeOp o as s = .next t) :
    ∃ ps x new, Outward (List.flatten ps) s x t new ∧ (∀ p ∈ ps, Piece s.cfg as p) ∧ t.cfg = s.cfg ∧ t.geo = s.geo := by
  unfold runtimeOp at h
  split at h
  · exact absurd h (by simp)
  split at h
  · exact run_outward as s (accept o as s) t rfl h
  · obtain rfl : raiseErr .state none s = t := by simpa using h
    exact ⟨[], none, [], Outward.quiet _ _ rfl ⟨[_], raiseErr_results _ _ _⟩ ⟨[], by simp⟩, by simp, by simp, by simp⟩

/-- Every instruction that leads to a next state: what the outside sees of it, and that the configuration and derived
registers change at most by an INIT issued in `Uninitialized`. -/
theorem exec_outward (i : Instr) (s t : State) (h : exec i s = .next t) :
    ∃ ps x new, Outward (List.flatten ps) s x t new ∧ (∀ p ∈ ps, Piece t.cfg (instrActions s.params i) p)
      ∧ ((∀ cfg, i = .init cfg → s.phase ≠ .uninitialized) → t.cfg = s.cfg ∧ t.geo = s.geo) := by
  have fin : ∀ as, (∃ ps x new, Outward (List.flatten ps) s x t new ∧ (∀ p ∈ ps, Piece s.cfg as p) ∧ t.cfg = s.cfg
        ∧ t.geo = s.geo) → as = instrActions s.params i →
      ∃ ps x new, Outward (List.flatten ps) s x t new ∧ (∀ p ∈ ps, Piece t.cfg (instrActions s.params i) p)
        ∧ ((∀ cfg, i = .init cfg → s.phase ≠ .uninitialized) → t.cfg = s.cfg ∧ t.geo = s.geo) := by
    rintro _ ⟨ps, x, new, h1, h2, h3, h4⟩ rfl
    exact ⟨ps, x, new, h1, h3 ▸ h2, fun _ => ⟨h3, h4⟩⟩
  have err : ∀ k y, raiseErr k y s = t → ∃ ps x new, Outward (List.flatten ps) s x t new
      ∧ (∀ p ∈ ps, Piece t.cfg (instrActions s.params i) p)
      ∧ ((∀ cfg, i = .init cfg → s.phase ≠ .uninitialized) → t.cfg = s.cfg ∧ t.geo = s.geo) := by
    rintro k y rfl
    exact ⟨[], none, [], Outward.quiet _ _ rfl ⟨[_], raiseErr_results _ _ _⟩ ⟨[], by simp⟩, by simp, fun _ => by simp⟩
  cases i with
  | init cfg =>
    simp only [exec, execInit] at h
    split at h
    · exact absurd h (by simp)
    split at h
    · exact err _ _ (by simpa using h)
    next hph =>
    have hq : s.phase = .uninitialized := by simpa using hph
    split at h
    · exact absurd h (by simp)
    split at h
    · exact absurd h (by simp)
    split at h
    · obtain rfl : raiseErr .config none (latchConfig cfg s) = t := by simpa using h
      exact ⟨[], none, [], Outward.quiet _ _ rfl ⟨[_], raiseErr_results _ _ _⟩ ⟨[], by simp [latchConfig, accept]⟩,
        by simp, fun hc => absurd hq (hc cfg rfl)⟩
    · obtain ⟨ps, x, new, h1, h2, h3, -⟩ := run_outward _ s (allocate (latchConfig cfg s)) t rfl h
      exact ⟨ps, x, new, h1, by rw [h3]; exact h2, fun hc => absurd hq (hc cfg rfl)⟩
  | powerOff => exact fin _ (runtimeOp_outward _ _ s t h) rfl
  | powerOn => exact fin _ (runtimeOp_outward _ _ s t h) rfl
  | contrast level => exact fin _ (runtimeOp_outward _ _ s t h) rfl
  | invert flag => exact fin _ (runtimeOp_outward _ _ s t h) rfl
  | flush => exact fin _ (runtimeOp_outward _ _ s t h) rfl
  | reserved6 =>
    simp only [exec, execReserved6, reservedOp] at h
    split at h
    · exact absurd h (by simp)
    · exact err _ _ (by simpa using h)
  | reserved7 =>
    simp only [exec, execReserved7, reservedOp] at h
    split at h
    · exact absurd h (by simp)
    · exact err _ _ (by simpa using h)
  | fbw j v =>
    simp only [exec, execFbw] at h
    split at h
    · exact absurd h (by simp)
    · obtain rfl : _ = t := by simpa using h
      exact ⟨[], none, [], Outward.quiet _ _ rfl ⟨[], by simp⟩ ⟨[], by simp⟩, by simp, fun _ => ⟨rfl, rfl⟩⟩
  | fbr j =>
    simp only [exec, execFbr] at h
    split at h
    · exact absurd h (by simp)
    split at h
    · obtain rfl : _ = t := by simpa using h
      exact ⟨[], none, [], Outward.quiet _ _ rfl ⟨[], by simp⟩ ⟨[_], rfl⟩, by simp, fun _ => ⟨rfl, rfl⟩⟩
    · exact absurd h (by simp)
  | dispOff => exact fin _ (sendCommand_outward _ s t h) rfl
  | dispOn => exact fin _ (sendCommand_outward _ s t h) rfl
  | scroll line => exact fin _ (sendCommand_outward _ s t h) rfl
  | page q => exact fin _ (sendCommand_outward _ s t h) rfl
  | col c => exact fin _ (sendCommand_outward _ s t h) rfl
  | evr r => exact fin _ (sendCommand_outward _ s t h) rfl
  | inv f => exact fin _ (sendCommand_outward _ s t h) rfl
  | scan rot => exact fin _ (sendCommand_outward _ s t h) rfl
  | inc rot => exact fin _ (sendCommand_outward _ s t h) rfl
  | softReset => exact fin _ (sendCommand_outward _ s t h) rfl
  | tempComp => exact fin _ (sendCommand_outward _ s t h) rfl
  | powerCtrl => exact fin _ (sendCommand_outward _ s t h) rfl
  | bias => exact fin _ (sendCommand_outward _ s t h) rfl
  | ev2 => exact fin _ (sendCommand_outward _ s t h) rfl
  | analogA => exact fin _ (sendCommand_outward _ s t h) rfl
  | analogB => exact fin _ (sendCommand_outward _ s t h) rfl
  | lineCfg => exact fin _ (sendCommand_outward _ s t h) rfl
  | comEnd => exact fin _ (sendCommand_outward _ s t h) rfl

end Sys2Proof.Machine
end

