-- ==== Sys2Proof/Laws/Operations.lean ====
section
/-! SUPPORT. What the action lists of the operations perform, and what INIT and a runtime operation can do, said once
each: the events of the rules, up to the first that fails. -/

namespace Sys2Proof.Machine

/-! ### The bytes and events of the action lists -/

theorem pageBytes_zero (K : Codes) : pageBytes K 0 = [K.pageBase] := by simp [pageBytes, packed, lowField]

theorem colBytes_zero (K : Codes) : colBytes K 0 = [K.colHiBase, K.colLoBase] := by
  simp [colBytes, nibblePair, lowField]

theorem scrollBytes_zero (K : Codes) : scrollBytes K 0 = [K.scrollBase] := by simp [scrollBytes, packed, lowField]

/-- A field of `k` bits is the operand modulo `2 ^ k` (rule R65). -/
theorem lowField_eq_mod (k p : Nat) : lowField (2 ^ k - 1) p = BitVec.ofNat 8 (p % 2 ^ k) := by
  unfold lowField
  rw [Nat.and_two_pow_sub_one_eq_mod]

theorem effectiveRotation_val (r : Nat) : (effectiveRotation r).val = r % 4 := by
  unfold effectiveRotation
  have h : r &&& 3 = r % 4 := Nat.and_two_pow_sub_one_eq_mod r 2
  simp [Fin.ofNat, h]

theorem orientation_bytes (K : Codes) (r : Fin 4) :
    scanBytes K r = [(pairOf K r.val).1] ∧ incBytes K r = [(pairOf K r.val).2] := by
  match r with
  | 0 => exact ⟨rfl, rfl⟩
  | 1 => exact ⟨rfl, rfl⟩
  | 2 => exact ⟨rfl, rfl⟩
  | 3 => exact ⟨rfl, rfl⟩

/-- The bytes of a transaction answered `ok`, as a tagged stream (rule R9). -/
theorem bytesOf_append (a b : List TraceEntry) : bytesOf (a ++ b) = bytesOf a ++ bytesOf b := by simp [bytesOf]

theorem bytesOf_command (c : Cfg) (bs : List Byte) :
    bytesOf ((cmdEvents c bs).map okEntry) = bs.map (fun b => (Tag.command, b)) := by
  simp only [cmdEvents]
  cases c.variant <;> simp [bytesOf, entryBytes, okEntry]

theorem bytesOf_data (c : Cfg) (bs : List Byte) :
    bytesOf ((dataEvents c bs).map okEntry) = bs.map (fun b => (Tag.data, b)) := by
  simp only [dataEvents]
  cases c.variant <;> simp [bytesOf, entryBytes, okEntry]

/-- One command transaction has one plan. -/
theorem planOf_command (c : Cfg) (n : Nat) (bs : List Byte) (m : List Host.Cell) :
    planOf c n [.cmd bs] m = some (cmdEvents c bs) := by
  simp [planOf]

/-- FLUSH performs page 0, column 0 and the framebuffer's bytes (rule R155). -/
theorem planOf_flush (K : Codes) (c : Cfg) (n : Nat) (m : List Host.Cell) (vs : List Byte)
    (h : readFrom m 0 n = some vs) : planOf c n (flushActions K) m = some (flushEvents K c vs) := by
  simp [planOf, flushActions, h, flushEvents, pageBytes_zero, colBytes_zero]

/-- INIT performs the reset step, the base list, the orientation pair, a flush of zeros and DISP_ON (rule R144). -/
theorem planOf_init (p : Params) (c : Cfg) :
    planOf c (c.height / 8 * c.width) (initActions p c.hasRst (effectiveRotation c.rotationIn)) [] =
      some (initEvents p c) := by
  obtain ⟨hs, hi⟩ := orientation_bytes p.codes (effectiveRotation c.rotationIn)
  have hz := readFrom_fillZero (c.height / 8 * c.width) []
  rw [effectiveRotation_val] at hs hi
  simp only [initActions, initEvents, resetEvents, resetActions]
  cases c.hasRst <;>
    simp [planOf, baseActions, orientationActions, flushActions, configCommands, flushEvents, pageBytes_zero,
      colBytes_zero, scrollBytes_zero, hs, hi, hz, dispOffBytes, tempCompBytes, powerCtrlBytes, biasBytes, ev2Bytes,
      analogABytes, analogBBytes, lineCfgBytes, comEndBytes, dispOnBytes, softResetBytes]

/-- INIT leaves `PoweredOn` and a framebuffer of zeros when its list is performed to the end (rule R144). -/
theorem initActions_after (p : Params) (rst : Bool) (rot : Fin 4) (n : Nat) (q : Phase) :
    phaseAfter (initActions p rst rot) q = .poweredOn ∧ fbAfter n (initActions p rst rot) [] = fillZero n [] := by
  simp only [initActions, resetActions]
  cases rst <;> exact ⟨rfl, rfl⟩

/-! ### INIT and the runtime operations -/

/-- An accepted INIT is the executor over its action list, from the latched and allocated state (rules R130, R142). -/
theorem execInit_accepted (cfg : Cfg) (s : State) (h : InitAccepted cfg s) :
    exec (.init cfg) s =
      run (initActions s.params cfg.hasRst (effectiveRotation cfg.rotationIn)) (allocate (latchConfig cfg s)) := by
  simp [exec, execInit, h.idle, h.fresh, h.params, h.config, h.lines]
  rfl

/-- What an accepted INIT can do: the whole list, ending `Ok`, or its events up to the first failure and the error
entry. -/
theorem execInit_spec (cfg : Cfg) (s : State) (h : InitAccepted cfg s) :
    (∃ new u, exec (.init cfg) s = .next (finish u)
        ∧ Traced (initEvents s.params cfg) (allocate (latchConfig cfg s)) none u new
        ∧ u.phase = .poweredOn ∧ u.fb = fillZero (cfg.height / 8 * cfg.width) [])
    ∨ (∃ new u x pre, exec (.init cfg) s = .next (raiseErr .transport (some x) u)
        ∧ Traced (initEvents s.params cfg) (allocate (latchConfig cfg s)) (some x) u new
        ∧ u.fb = fbAfter (cfg.height / 8 * cfg.width) pre []) := by
  rw [execInit_accepted cfg s h]
  rcases run_spec _ (allocate (latchConfig cfg s)) _ (planOf_init s.params cfg) with
    ⟨new, u, h1, h2, h3, h4⟩ | ⟨new, u, x, pre, _, h1, h2, -, -, h5⟩
  · have ha := initActions_after s.params cfg.hasRst (effectiveRotation cfg.rotationIn) (cfg.height / 8 * cfg.width)
    exact .inl ⟨new, u, h1, h2, h3.trans (ha _).1, h4.trans (ha s.phase).2⟩
  · exact .inr ⟨new, u, x, pre, h1, h2, h5⟩

/-- What an accepted runtime operation with a plan can do: all of it, ending `Ok`, or its events up to the first
failure and the error entry (rules R142, R157). -/
theorem runtimeOp_spec (o : Op) (as : List Action) (s : State) (plan : List Planned) (hr : Ready s)
    (hp : planOf s.cfg s.geo.n as s.fb = some plan) :
    (∃ new u, runtimeOp o as s = .next (finish u) ∧ Traced plan (accept o as s) none u new
        ∧ u.phase = phaseAfter as s.phase ∧ u.fb = fbAfter s.geo.n as s.fb)
    ∨ (∃ new u x pre post, runtimeOp o as s = .next (raiseErr .transport (some x) u)
        ∧ Traced plan (accept o as s) (some x) u new ∧ as = pre ++ post ∧ u.phase = phaseAfter pre s.phase
        ∧ u.fb = fbAfter s.geo.n pre s.fb) := by
  have h : runtimeOp o as s = run as (accept o as s) := by simp [runtimeOp, hr.1, hr.2]
  rw [h]
  exact run_spec as (accept o as s) plan hp

end Sys2Proof.Machine
end

