-- ==== Sys2Proof/Laws/PerInstr.lean ====
section
/-! SUPPORT. Laws stated of every instruction as syntax, one lemma per constructor. WireLength: how many bytes of a
command transaction encode the instruction, whatever the codes are: one or two for a wire command, fixed by the command
and never by its operand (rules R64, R67, R68), and none for a host command word or a port access. -/

namespace Sys2Proof.Laws.WireLength

/-- The bytes of a command transaction that an encoding is made of. -/
def byteCount : Encoding → Option Nat
  | .wire bs => some bs.length
  | .hcw _ => none
  | .portWrite _ _ => none
  | .portRead _ => none

/-- The length column of rule R68. -/
def expected : Instr → Option Nat
  | .init _ => none
  | .powerOff => none
  | .powerOn => none
  | .contrast _ => none
  | .invert _ => none
  | .flush => none
  | .reserved6 => none
  | .reserved7 => none
  | .dispOff => some 1
  | .dispOn => some 1
  | .scroll _ => some 1
  | .page _ => some 1
  | .col _ => some 2
  | .evr _ => some 1
  | .inv _ => some 1
  | .scan _ => some 1
  | .inc _ => some 1
  | .softReset => some 1
  | .tempComp => some 1
  | .powerCtrl => some 1
  | .bias => some 1
  | .ev2 => some 2
  | .analogA => some 1
  | .analogB => some 1
  | .lineCfg => some 1
  | .comEnd => some 2
  | .fbw _ _ => none
  | .fbr _ => none

/-- The instruction's encoding has the length of its row, for every `Codes`. -/
def Statement (i : Instr) : Prop := ∀ K : Codes, byteCount (encode K i) = expected i

theorem init (cfg : Cfg) : Statement (.init cfg) := fun _ => rfl
theorem powerOff : Statement .powerOff := fun _ => rfl
theorem powerOn : Statement .powerOn := fun _ => rfl
theorem contrast (level : Nat) : Statement (.contrast level) := fun _ => rfl
theorem invert (flag : Nat) : Statement (.invert flag) := fun _ => rfl
theorem flush : Statement .flush := fun _ => rfl
theorem reserved6 : Statement .reserved6 := fun _ => rfl
theorem reserved7 : Statement .reserved7 := fun _ => rfl
theorem dispOff : Statement .dispOff := fun _ => rfl
theorem dispOn : Statement .dispOn := fun _ => rfl
theorem scroll (line : Nat) : Statement (.scroll line) := fun _ => rfl
theorem page (p : Nat) : Statement (.page p) := fun _ => rfl
theorem col (c : Nat) : Statement (.col c) := fun _ => rfl
theorem evr (r : Nat) : Statement (.evr r) := fun _ => rfl
theorem inv (f : Nat) : Statement (.inv f) := fun _ => rfl
theorem scan (rot : Fin 4) : Statement (.scan rot) := fun _ => rfl
theorem inc (rot : Fin 4) : Statement (.inc rot) := fun _ => rfl
theorem softReset : Statement .softReset := fun _ => rfl
theorem tempComp : Statement .tempComp := fun _ => rfl
theorem powerCtrl : Statement .powerCtrl := fun _ => rfl
theorem bias : Statement .bias := fun _ => rfl
theorem ev2 : Statement .ev2 := fun _ => rfl
theorem analogA : Statement .analogA := fun _ => rfl
theorem analogB : Statement .analogB := fun _ => rfl
theorem lineCfg : Statement .lineCfg := fun _ => rfl
theorem comEnd : Statement .comEnd := fun _ => rfl
theorem fbw (i : Nat) (v : Byte) : Statement (.fbw i v) := fun _ => rfl
theorem fbr (i : Nat) : Statement (.fbr i) := fun _ => rfl

end Sys2Proof.Laws.WireLength
end

