-- ==== Sys2Proof/Tests/Slice0.lean ====
section
/-! SUPPORT. The model's own tests: ill-formed terms that the checks refuse; every constructor's decoding from a word
written out from the spec's encoding; single steps against the vectors of 95_test_vectors.md; and, for every obligation
with hypotheses, a witness that meets them. Expected values are the spec's. -/

namespace Sys2Proof.Machine.Tests

/-! ### Small states -/

/-- Q: Bus, `A = 0x3C`, width 4, height 8. -/
def bus : Cfg := { variant := .bus, width := 4, height := 8 }

/-- P2: Serial with a reset line, 16 by 8, rotation 1. -/
def serial : Cfg :=
  { variant := .serial, width := 16, height := 8, rotationIn := 1, hasDc := true, hasCs := true, hasRst := true }

/-- The smallest legal geometry (O9), Serial, software reset. -/
def tiny : Cfg := { variant := .serial, width := 1, height := 8, hasDc := true, hasCs := true }

/-- A state after an INIT with `cfg`, its framebuffer holding `vs`. -/
def live (cfg : Cfg) (vs : List Byte) : State :=
  { State.reset with
    cfg := cfg
    geo := geometry Codes.reference cfg
    phase := .poweredOn
    fb := (List.range vs.length).zip vs }

/-- The same state, the environment failing the next event but `k`. -/
def failing (k : Nat) (s : State) : State := { s with oracle := ⟨List.replicate k .ok ++ [.fail 7], .ok⟩ }

/-- The outcome is a next state of which `p` holds. -/
def lands (o : Host.Outcome State Fault Refusal) (p : State → Bool) : Bool :=
  match o with
  | .next t => p t
  | .fault _ => false
  | .refused _ => false

/-- The outcome is this refusal. -/
def refuses (o : Host.Outcome State Fault Refusal) (r : Refusal) : Bool :=
  match o with
  | .next _ => false
  | .fault _ => false
  | .refused r' => r == r'

/-- The outcome is this fault. -/
def faults (o : Host.Outcome State Fault Refusal) (f : Fault) : Bool :=
  match o with
  | .next _ => false
  | .fault f' => f == f'
  | .refused _ => false

/-- `W(a,[bs])` (rule R73), in a command and in a data transaction. -/
def w (a : Nat) (bs : List Byte) : TraceEntry := ⟨some .command, .writeBytes (some a) bs, .ok⟩
def d (a : Nat) (bs : List Byte) : TraceEntry := ⟨some .data, .writeBytes (some a) bs, .ok⟩

/-- `DC=C CS=1 W(-,[bs]) CS=0` (T1). -/
def ws (bs : List Byte) : List TraceEntry :=
  [⟨some .command, .setDc .command, .ok⟩, ⟨some .command, .setCs .asserted, .ok⟩,
   ⟨some .command, .writeBytes none bs, .ok⟩, ⟨some .command, .setCs .deasserted, .ok⟩]

/-- `DC=D CS=1 W(-,[bs]) CS=0` (T3). -/
def ds (bs : List Byte) : List TraceEntry :=
  [⟨some .data, .setDc .data, .ok⟩, ⟨some .data, .setCs .asserted, .ok⟩,
   ⟨some .data, .writeBytes none bs, .ok⟩, ⟨some .data, .setCs .deasserted, .ok⟩]

/-- The instruction's trace on the small Bus state. -/
def sends (i : Instr) (tr : List TraceEntry) : Bool := lands (exec i (live bus [1, 2, 3, 4])) (fun t => t.trace == tr)

/-! ### WellFormed: a term that each check refuses -/

theorem test_refused_displayOn : Codes.wf { Codes.reference with displayOn := 0xAE } = false := by decide
theorem test_refused_contrastBase : Codes.wf { Codes.reference with contrastBase := 0x24 } = false := by decide
theorem test_refused_invertBase : Codes.wf { Codes.reference with invertBase := 0xA7 } = false := by decide
theorem test_refused_scrollBase : Codes.wf { Codes.reference with scrollBase := 0x60 } = false := by decide
theorem test_refused_pageBase : Codes.wf { Codes.reference with pageBase := 0xB8 } = false := by decide
theorem test_refused_colHiBase : Codes.wf { Codes.reference with colHiBase := 0x11 } = false := by decide
theorem test_refused_colLoBase : Codes.wf { Codes.reference with colLoBase := 0x08 } = false := by decide
theorem test_accepted_reference : Params.reference.wf = true := by decide
theorem test_refused_tShort_zero : Params.wf { Params.reference with tShort := 0 } = false := by decide
theorem test_refused_tLong_equal : Params.wf { Params.reference with tLong := 1 } = false := by decide
theorem test_refused_codes : Params.wf { Params.reference with codes := { Codes.reference with pageBase := 0xB1 } } = false := by
  decide
/-- O10: height 60 is no multiple of 8. -/
theorem test_refused_height : Cfg.wf Params.reference { bus with height := 60 } = false := by decide
theorem test_refused_height_zero : Cfg.wf Params.reference { bus with height := 0 } = false := by decide
theorem test_refused_height_max : Cfg.wf Params.reference { bus with height := 136 } = false := by decide
theorem test_refused_width_zero : Cfg.wf Params.reference { bus with width := 0 } = false := by decide
theorem test_refused_width_max : Cfg.wf Params.reference { bus with width := 257 } = false := by decide
/-- T11: `A = 0x7F` leaves no room for `A + 1` in seven bits; the Serial variant does not ask. -/
theorem test_refused_address : Cfg.wf Params.reference { bus with busAddr := 0x7F } = false
    ∧ Cfg.wf Params.reference { tiny with busAddr := 0x7F } = true := by decide
/-- E7, E8, E9. -/
theorem test_lacksLine : Cfg.lacksLine { tiny with hasDc := false } = true
    ∧ Cfg.lacksLine { tiny with hasCs := false } = true ∧ bus.lacksLine = false := by decide
theorem test_illFormed_init : wellFormed (.init { bus with height := 12 }) = false := by decide
theorem test_illFormed_contrast : wellFormed (.contrast 256) = false ∧ wellFormed (.contrast 255) = true := by decide
theorem test_illFormed_invert : wellFormed (.invert 256) = false ∧ wellFormed (.invert 255) = true := by decide
/-- Rule R62: flag 256 presents 1. -/
theorem test_invert_presents : encode Codes.reference (.invert 256) = .hcw 0x401
    ∧ encode Codes.reference (.invert 0) = .hcw 0x400 ∧ encode Codes.reference (.invert 128) = .hcw 0x480 := by decide
theorem test_illFormed_scroll : wellFormed (.scroll 64) = false ∧ wellFormed (.scroll 63) = true := by decide
theorem test_illFormed_page : wellFormed (.page 16) = false ∧ wellFormed (.page 15) = true := by decide
theorem test_illFormed_col : wellFormed (.col 256) = false ∧ wellFormed (.col 255) = true := by decide
theorem test_illFormed_evr : wellFormed (.evr 8) = false ∧ wellFormed (.evr 7) = true := by decide
theorem test_illFormed_inv : wellFormed (.inv 2) = false ∧ wellFormed (.inv 1) = true := by decide

/-! ### Decoding: words written out bit by bit (rules R61, R62, R64, R68; codes of CFG_REF) -/

theorem test_decode_init : decodeHcw bus 0b000_00000000#11 = .init bus := by decide
theorem test_decode_powerOff : decodeHcw bus 0b001_11111111#11 = .powerOff := by decide
theorem test_decode_powerOn : decodeHcw bus 0b010_00000000#11 = .powerOn := by decide
/-- Q1: 0x30D is `contrast(13)`. -/
theorem test_decode_contrast : decodeHcw bus 0b011_00001101#11 = .contrast 13 := by decide
/-- Q2: 0x480 is `invert(128)`. -/
theorem test_decode_invert : decodeHcw bus 0b100_10000000#11 = .invert 128 := by decide
theorem test_decode_flush : decodeHcw bus 0b101_00000000#11 = .flush := by decide
theorem test_decode_reserved6 : decodeHcw bus 0b110_11111111#11 = .reserved6 := by decide
theorem test_decode_reserved7 : decodeHcw bus 0b111_00000000#11 = .reserved7 := by decide
theorem test_decode_dispOff : decodeTableWord 8 0b10101110 = some .dispOff := by decide
theorem test_decode_dispOn : decodeTableWord 8 0b10101111 = some .dispOn := by decide
/-- K6: 100 = 0x64, the field 0x24. -/
theorem test_decode_scroll : decodeTableWord 8 0b01_100100 = some (.scroll 36) := by decide
theorem test_decode_page : decodeTableWord 8 0b1011_0111 = some (.page 7) := by decide
/-- K15: the high nibble first. -/
theorem test_decode_col : decodeTableWord 16 0b0001_0101_0000_1010 = some (.col 0x5A) := by decide
theorem test_decode_evr : decodeTableWord 8 0b00100_101 = some (.evr 5) := by decide
theorem test_decode_inv : decodeTableWord 8 0b1010011_1 = some (.inv 1) := by decide
/-- K25, rotation 3 and rotation 2. -/
theorem test_decode_scan : decodeTableWord 8 0b11000100 = some (.scan 3) ∧ decodeTableWord 8 0b11000110 = some (.scan 2) := by
  decide
/-- K26: rotations 0 and 2 share a byte. -/
theorem test_decode_inc : decodeTableWord 8 0b10001011 = some (.inc 1) ∧ decodeTableWord 8 0b10001001 = some (.inc 0) := by
  decide
theorem test_decode_softReset : decodeTableWord 8 0b11100010 = some .softReset := by decide
theorem test_decode_tempComp : decodeTableWord 8 0b00100100 = some .tempComp := by decide
theorem test_decode_powerCtrl : decodeTableWord 8 0b00101110 = some .powerCtrl := by decide
theorem test_decode_bias : decodeTableWord 8 0b11101011 = some .bias := by decide
theorem test_decode_ev2 : decodeTableWord 16 0b10000001_01000000 = some .ev2 := by decide
theorem test_decode_analogA : decodeTableWord 8 0b10000100 = some .analogA := by decide
theorem test_decode_analogB : decodeTableWord 8 0b10100100 = some .analogB := by decide
theorem test_decode_lineCfg : decodeTableWord 8 0b10100000 = some .lineCfg := by decide
theorem test_decode_comEnd : decodeTableWord 16 0b11110001_00111111 = some .comEnd := by decide
/-- The port has no bit encoding (rule R71). -/
theorem test_decode_fbw : decode Codes.reference bus (.portWrite 2 0x5A) = .ok (.fbw 2 0x5A) := by decide
theorem test_decode_fbr : decode Codes.reference bus (.portRead 2) = .ok (.fbr 2) := by decide
/-- Bytes that are the code of no command, and no byte or three, are rejected by name. -/
theorem test_decode_rejects : decodeWire Codes.reference [0xFF] = .error (.unknownByte 0xFF)
    ∧ decodeWire Codes.reference [0x81, 0x41] = .error (.unknownPair 0x81 0x41)
    ∧ decodeWire Codes.reference [] = .error .emptyCommand
    ∧ decodeWire Codes.reference [0xAE, 0xAF, 0xE2] = .error .tooLong := by decide
/-- A placed word is what the next step runs. -/
theorem test_withFetchWord : lands (step (State.reset.withFetchWord 16 0x7FF)) (fun t => t.result == .err .illegalOp none)
    ∧ lands (step (State.reset.withFetchWord 8 0xE2)) (fun t => t.trace == [w 0x3C [0xE2]]) := by decide

/-! ### Wire commands (vectors K, T) -/

theorem test_dispOff : sends .dispOff [w 0x3C [0xAE]] := by decide
theorem test_dispOn : sends .dispOn [w 0x3C [0xAF]] := by decide
/-- K5, K6. -/
theorem test_scroll : sends (.scroll 64) [w 0x3C [0x40]] ∧ sends (.scroll 100) [w 0x3C [0x64]] := by decide
/-- K9, K10. -/
theorem test_page : sends (.page 15) [w 0x3C [0xBF]] ∧ sends (.page 16) [w 0x3C [0xB0]] := by decide
/-- K12, K14: both bytes in one transaction. -/
theorem test_col : sends (.col 191) [w 0x3C [0x1B, 0x0F]] ∧ sends (.col 256) [w 0x3C [0x10, 0x00]] := by decide
/-- K18, K20. -/
theorem test_evr : sends (.evr 8) [w 0x3C [0x20]] ∧ sends (.evr 255) [w 0x3C [0x27]] := by decide
/-- K23: a truth test, not `& 1`; K21. -/
theorem test_inv : sends (.inv 2) [w 0x3C [0xA7]] ∧ sends (.inv 0) [w 0x3C [0xA6]] := by decide
/-- K25. -/
theorem test_scan : sends (.scan 2) [w 0x3C [0xC6]] ∧ sends (.scan 3) [w 0x3C [0xC4]] := by decide
/-- K26. -/
theorem test_inc : sends (.inc 2) [w 0x3C [0x89]] ∧ sends (.inc 3) [w 0x3C [0x8B]] := by decide
theorem test_softReset : sends .softReset [w 0x3C [0xE2]] := by decide
theorem test_tempComp : sends .tempComp [w 0x3C [0x24]] := by decide
theorem test_powerCtrl : sends .powerCtrl [w 0x3C [0x2E]] := by decide
theorem test_bias : sends .bias [w 0x3C [0xEB]] := by decide
theorem test_ev2 : sends .ev2 [w 0x3C [0x81, 0x40]] := by decide
theorem test_analogA : sends .analogA [w 0x3C [0x84]] := by decide
theorem test_analogB : sends .analogB [w 0x3C [0xA4]] := by decide
theorem test_lineCfg : sends .lineCfg [w 0x3C [0xA0]] := by decide
theorem test_comEnd : sends .comEnd [w 0x3C [0xF1, 0x3F]] := by decide
/-- T1, and T7: the write fails, chip-select stays asserted, nothing follows. -/
theorem test_serial_command : lands (exec .dispOn (live serial [])) (fun t => t.trace == ws [0xAF])
    ∧ lands (exec .dispOn (failing 2 (live serial []))) (fun t =>
        t.trace == (ws [0xAF]).take 2 ++ [⟨some .command, .writeBytes none [0xAF], .fail 7⟩]
        && t.dc == .command && t.cs == .asserted && t.result == .err .transport (some 7)) := by decide
/-- T8: the assertion fails, its line keeps its level. T10: the deassertion fails, after the bytes. -/
theorem test_serial_lines : lands (exec .dispOn (failing 1 (live serial []))) (fun t => t.cs == .deasserted)
    ∧ lands (exec .dispOn (failing 3 (live serial []))) (fun t => t.cs == .asserted && t.trace.length == 4) := by decide
/-- T6: the data address is the command address plus one, without wrap. -/
theorem test_bus_data : lands (exec .flush (live { bus with width := 1, busAddr := 0x3D } [0x55])) (fun t =>
    t.trace == [w 0x3D [0xB0], w 0x3D [0x10, 0x00], d 0x3E [0x55]]) := by decide

/-! ### Orientation and layout (vectors O, V6) -/

/-- V6, O2; O8 masks a rotation of 255. -/
theorem test_geometry : geometry Codes.reference { bus with width := 192, height := 64, rotationIn := 1 } =
      ⟨8, 1536, 1, .hpack, 64, 192⟩
    ∧ geometry Codes.reference { bus with width := 16, height := 8, rotationIn := 255 } = ⟨1, 16, 3, .hpack, 8, 16⟩ := by
  decide
/-- Rules R54, R55: the corner pixels; none outside. -/
theorem test_pixelPos : pixelPos Params.reference (geometry Codes.reference bus) 3 7 = some ⟨3, 7⟩
    ∧ pixelPos Params.reference (geometry Codes.reference serial) 7 15 = some ⟨15, 7⟩
    ∧ pixelPos Params.reference (geometry Codes.reference bus) 4 0 = none := by decide

/-! ### Host operations (vectors I, Q, E, P) -/

/-- Before INIT, with `cfg` accepted. -/
def fresh : State := State.reset

set_option maxRecDepth 4000 in
/-- P1's shape on the smallest Bus geometry: 18 events (I3), the stream of I1, the phase and the zeroed byte. -/
theorem test_init_bus : lands (exec (.init { bus with width := 1 }) fresh) (fun t =>
    t.phase == .poweredOn && t.result == .ok && t.trace.length == 18 && t.fb == [(0, 0)]
    && t.contrast == none
    && bytesOf t.trace ==
      [0xE2, 0xAE, 0x24, 0x2E, 0xEB, 0x81, 0x40, 0x40, 0x84, 0xA4, 0xA0, 0xF1, 0x3F, 0xC0, 0x89, 0xB0, 0x10,
       0x00].map (fun b => (Tag.command, b)) ++ [(.data, 0), (.command, 0xAF)]) := by decide
/-- P4: the fifth event fails: five events, `Failed`, `upc` 4, the configuration latched, the framebuffer empty. -/
theorem test_init_fails : lands (exec (.init { bus with width := 8 }) (failing 3 fresh)) (fun t =>
    t.phase == .failed && t.result == .err .transport (some 7) && t.upc == 4 && t.trace.length == 5 && t.fb == []
    && t.geo.n == 8 && !t.busy) := by decide
/-- P5: no chip-select: `Err(CONFIG)`, no event. E3: INIT again is `Err(STATE)`. -/
theorem test_init_errors : lands (exec (.init { serial with hasCs := false }) fresh) (fun t =>
      t.phase == .failed && t.result == .err .config none && t.trace == [])
    ∧ lands (exec (.init serial) (live bus [])) (fun t => t.result == .err .state none && t.cfg == bus) := by decide
/-- O10, U10. -/
theorem test_init_refused : refuses (exec (.init { bus with height := 60 }) fresh) .configNotWellFormed
    ∧ refuses (exec (.init bus) { fresh with params := { Params.reference with tLong := 1 } }) .paramsNotWellFormed := by
  decide
/-- Q3. -/
theorem test_powerOff : lands (exec .powerOff (live bus [1, 2, 3, 4])) (fun t =>
    t.phase == .poweredOff && t.trace == [w 0x3C [0xAE]]) := by decide
/-- Q3: `poweron()` when already on is sent all the same; E4. -/
theorem test_powerOn : lands (exec .powerOn (live bus [1, 2, 3, 4])) (fun t =>
      t.phase == .poweredOn && t.trace == [w 0x3C [0xAF]])
    ∧ lands (exec .powerOn { fresh with phase := .failed }) (fun t => t.result == .err .state none && t.trace == []) := by
  decide
/-- Q1, level 13; Q5: a failure keeps the shadow. -/
theorem test_contrast : lands (exec (.contrast 13) (live bus [])) (fun t =>
      t.contrast == some 5 && t.trace == [w 0x3C [0x25]])
    ∧ lands (exec (.contrast 5) (failing 0 { live bus [] with contrast := some 2 })) (fun t =>
      t.contrast == some 2 && t.phase == .poweredOn && t.result == .err .transport (some 7)) := by decide
/-- Q2, flag 128 and flag 0. -/
theorem test_invert : lands (exec (.invert 128) (live bus [])) (fun t =>
      t.invert == some 1 && t.trace == [w 0x3C [0xA7]])
    ∧ lands (exec (.invert 0) (live bus [])) (fun t => t.invert == some 0 && t.trace == [w 0x3C [0xA6]]) := by decide
/-- Q4, first row, and its Serial form. -/
theorem test_flush : lands (exec .flush (live bus [1, 2, 3, 4])) (fun t =>
      t.trace == [w 0x3C [0xB0], w 0x3C [0x10, 0x00], d 0x3D [1, 2, 3, 4]])
    ∧ lands (exec .flush (live { tiny with width := 2 } [8, 9])) (fun t =>
      t.trace == ws [0xB0] ++ ws [0x10, 0x00] ++ ds [8, 9] && t.dc == .data) := by decide
/-- Rule R24 (U8), and Q6. -/
theorem test_flush_stops : faults (exec .flush (live bus [1, 2, 3])) .unwrittenFramebuffer
    ∧ lands (exec .flush (failing 2 (live bus [1, 2, 3, 4]))) (fun t =>
      t.phase == .poweredOn && t.result == .err .transport (some 7)) := by decide
/-- E6. -/
theorem test_reserved6 : lands (exec .reserved6 { fresh with phase := .failed }) (fun t =>
    t.result == .err .illegalOp none && t.trace == []) := by decide
/-- E10: the shadow stays. -/
theorem test_reserved7 : lands (exec .reserved7 { live bus [] with contrast := some 0 }) (fun t =>
    t.result == .err .illegalOp none && t.contrast == some 0) := by decide
/-- Q7. -/
theorem test_fbw : lands (exec (.fbw 2 0x5A) (live bus [0, 0, 0, 0])) (fun t =>
      t.fb == [(0, 0), (1, 0), (2, 0x5A), (3, 0)] && t.trace == [])
    ∧ refuses (exec (.fbw 4 0) (live bus [0, 0, 0, 0])) .portIndexOutOfRange := by decide
/-- Q7; rule R161. -/
theorem test_fbr : lands (exec (.fbr 2) (live bus [0, 0, 0x5A, 0])) (fun t => t.reads == [(2, 0x5A)])
    ∧ refuses (exec (.fbr 0) fresh) .portNotPostInit := by decide
/-- Rules R10, R13, R16, R20, R24: what the host and the wires see. -/
theorem test_hostPort : hostReadResult fresh = some .ok ∧ hostReadConfig fresh = none
    ∧ hostReadConfig { live serial [] with busy := true } = some serial
    ∧ hostReadResult { live serial [] with busy := true } = none
    ∧ hostReadGeometry (live bus []) = ⟨1, 4, 0, .vpack, 4, 8⟩
    ∧ csElectrical Params.reference fresh.cs = 1 ∧ dcElectrical Params.reference .data = 1
    ∧ rstElectrical Params.reference .asserted = 0 ∧ powerState (live bus []) = some .on := by
  refine ⟨rfl, rfl, rfl, rfl, rfl, ?_⟩
  decide

/-! ### Witnesses: for every obligation with hypotheses, states and operands that meet them -/

theorem live_holds : HoldsBytes (live bus [1, 2, 3, 4]) [1, 2, 3, 4] := by
  refine ⟨by decide, ?_⟩
  decide

theorem live_holds_serial : HoldsBytes (live { tiny with width := 2 } [8, 9]) [8, 9] := by
  refine ⟨by decide, ?_⟩
  decide

theorem live_allOk : (live bus [1, 2, 3, 4]).oracle.allOk := ⟨by decide, rfl⟩

theorem live_ready : Ready (live bus [1, 2, 3, 4]) := ⟨rfl, rfl⟩

theorem fresh_accepts_bus : InitAccepted bus fresh := ⟨rfl, rfl, by decide, by decide, rfl⟩

theorem fresh_accepts_serial : InitAccepted serial (failing 3 fresh) := ⟨rfl, rfl, by decide, by decide, rfl⟩

/-- A state between operations, post-init, with a full framebuffer, and an input. -/
def resting (inputs : List HostStep) : State := { live bus [1, 2, 3, 4] with inputs := inputs }

theorem resting_inv (inputs : List HostStep) : RestInv (resting inputs) :=
  ⟨rfl, rfl, rfl, .inr (.inl rfl), by show Memory.wf (live bus [1, 2, 3, 4]).fb = true; decide,
    fun _ => by show Params.wf Params.reference = true ∧ Cfg.wf Params.reference bus = true; decide,
    fun _ => ⟨rfl, rfl, by show (live bus [1, 2, 3, 4]).fb.map Prod.fst = List.range (live bus []).geo.n; decide⟩,
    fun h => by cases h⟩

theorem fresh_inv (inputs : List HostStep) (cfgIn : Cfg) : RestInv { fresh with inputs := inputs, cfgIn := cfgIn } :=
  ⟨rfl, rfl, rfl, .inl rfl, rfl, fun h => absurd rfl h, fun h => (by cases h), fun _ => ⟨rfl, rfl⟩⟩

/-- Inside an operation, with these actions before it. -/
def inside (o : Op) (as : List Action) : State := { live bus [1, 2, 3, 4] with busy := true, op := some o, pending := as }

theorem witness_HostWordFieldsSelectTheOperation :
    (7 : Nat) < 8 ∧ (255 : Nat) < 256 ∧ decodeHcw bus (BitVec.ofNat 11 (7 * 256 + 255)) = .reserved7
      ∧ decodeHcw bus (BitVec.ofNat 11 (0 * 256 + 0)) = .init bus := by decide

theorem witness_ReservedWordsReportIllegalOp :
    Idle fresh ∧ ((6 : Nat) = 6 ∨ (6 : Nat) = 7) ∧ (255 : Nat) < 256
      ∧ lands (exec .reserved6 fresh) (fun t => t.result == .err .illegalOp none) :=
  ⟨⟨rfl, rfl, rfl⟩, .inl rfl, by decide, by decide⟩

theorem witness_HostInstructionsRoundTrip :
    wellFormed (.contrast 255) = true ∧ isWire (.contrast 255) = false ∧ (∀ cfg, Instr.contrast 255 = .init cfg → bus = cfg)
      ∧ wellFormed (.init bus) = true ∧ isWire (.init bus) = false ∧ (∀ cfg, Instr.init bus = .init cfg → bus = cfg) :=
  ⟨by decide, rfl, fun _ h => (by cases h), by decide, rfl, fun _ h => (by cases h; rfl)⟩

theorem witness_WireCommandsRoundTripInMeaning :
    Codes.reference.wf = true ∧ isWire (.evr 4) = true ∧ isWire (.col 4095) = true := by decide

theorem witness_WireDecodeIsSound :
    decodeWire Codes.reference [0x24] = .ok .tempComp ∧ decodeWire Codes.reference [0x1F, 0x0F] = .ok (.col 255) := by
  decide

theorem witness_ReferenceWireRoundTrip :
    wellFormed (.scroll 63) = true ∧ isWire (.scroll 63) = true ∧ Instr.scroll 63 ≠ .evr 4 ∧ Instr.scroll 63 ≠ .inc 2
      ∧ Instr.scroll 63 ≠ .inc 3 := by decide

theorem witness_PackedFieldsKeepTheBase : Codes.reference.wf = true := by decide

theorem witness_GeometryFollowsTheLayoutTable : (254 : Nat) % 2 = 0 ∧ (255 : Nat) % 2 = 1 := by decide

theorem witness_PixelsLieInsideTheFramebuffer :
    serial.shaped = true ∧ 7 < (geometry Codes.reference serial).lwidth ∧ 15 < (geometry Codes.reference serial).lheight := by
  decide

theorem witness_DistinctPixelsHaveDistinctBits :
    bus.shaped = true ∧ pixelPos Params.reference (geometry Codes.reference bus) 3 7 = some ⟨3, 7⟩ := by decide

/-- Every constructor of the statement, and the premise on the environment. -/
theorem witness_FixedCommandsSendTheirByte :
    (live bus [1, 2, 3, 4]).oracle.allOk
      ∧ [Instr.dispOff, .dispOn, .softReset, .tempComp, .powerCtrl, .bias, .analogA, .analogB, .lineCfg, .scan 3,
         .inc 3].map (fixedCommand (live bus [1, 2, 3, 4]).params.codes) =
        [0xAE, 0xAF, 0xE2, 0x24, 0x2E, 0xEB, 0x84, 0xA4, 0xA0, 0xC4, 0x8B].map some := ⟨live_allOk, by decide⟩

theorem witness_PackedCommandsSendBaseAndField :
    (live bus [1, 2, 3, 4]).oracle.allOk
      ∧ [Instr.scroll 64, .page 15, .evr 13, .inv 2].map (packedCommand (live bus [1, 2, 3, 4]).params.codes) =
        [some (0x40, 0), some (0xB0, 15), some (0x20, 5), some (0xA6, 1)] := ⟨live_allOk, by decide⟩

theorem witness_PairCommandsSendTwoBytes :
    (live bus [1, 2, 3, 4]).oracle.allOk
      ∧ [Instr.ev2, .comEnd, .col 191].map (pairCommand (live bus [1, 2, 3, 4]).params.codes) =
        [some ((0x81, 0), (0x40, 0)), some ((0xF1, 0), (0x3F, 0)), some ((0x10, 11), (0x00, 15))] := ⟨live_allOk, by decide⟩

/-- Both outcomes are reached. -/
theorem witness_WireCommandOutcomes :
    isWire .ev2 = true ∧ encode (live serial []).params.codes .ev2 = .wire [0x81, 0x40]
      ∧ lands (exec .ev2 (live serial [])) (fun t => t.result == .ok)
      ∧ lands (exec .ev2 (failing 3 { live serial [] with op := some .init })) (fun t => t.phase == .failed) := by decide

/-- INIT is accepted in both variants, and runs into a failure in the second. -/
theorem witness_InitRunsItsActionList : InitAccepted bus fresh ∧ InitAccepted serial (failing 3 fresh)
    ∧ lands (exec (.init serial) (failing 3 fresh)) (fun t => t.phase == .failed) :=
  ⟨fresh_accepts_bus, fresh_accepts_serial, by decide⟩

theorem witness_InitByteStream : InitAccepted bus fresh ∧ fresh.oracle.allOk ∧ InitAccepted serial fresh
    ∧ serial.hasRst = true :=
  ⟨fresh_accepts_bus, ⟨by decide, rfl⟩, ⟨rfl, rfl, by decide, by decide, rfl⟩, rfl⟩

set_option maxRecDepth 4000 in
theorem witness_InitRejectsMissingLines :
    Idle fresh ∧ fresh.phase = .uninitialized ∧ fresh.params.wf = true
      ∧ Cfg.wf fresh.params { serial with hasCs := false } = true ∧ serial.variant = .serial
      ∧ lands (exec (.init bus) fresh) (fun t => t.result == .ok) :=
  ⟨⟨rfl, rfl, rfl⟩, rfl, by decide, by decide, rfl, by decide⟩

theorem witness_StateErrorOutsideThePhases :
    Idle (live bus []) ∧ (live bus []).phase ≠ .uninitialized ∧ isRuntime .flush ∧ Idle fresh
      ∧ fresh.phase.postInit = false :=
  ⟨⟨rfl, rfl, rfl⟩, by decide, .inr (.inr (.inr (.inr rfl))), ⟨rfl, rfl, rfl⟩, rfl⟩

/-- One page too many. -/
def tall : Cfg := { bus with height := 136 }

/-- Equal durations. -/
def slow : State := { fresh with params := { Params.reference with tShort := 10 } }

/-- The largest legal geometry and address. -/
def largest : Cfg := { bus with width := 256, height := 128, busAddr := 0x7E }

/-- A witness for each clause, at the boundary. -/
theorem witness_InitRefusesIllegalArguments :
    fresh.busy = false ∧ fresh.phase = .uninitialized ∧ fresh.params.codes = Codes.reference
      ∧ ¬ (0 < slow.params.tShort ∧ slow.params.tShort < slow.params.tLong) ∧ slow.busy = false
      ∧ slow.phase = .uninitialized
      ∧ (Codes.reference.displayOn ≠ Codes.reference.displayOff ∧ Codes.reference.contrastBase &&& 0x07 = 0
          ∧ Codes.reference.invertBase &&& 0x01 = 0 ∧ Codes.reference.scrollBase &&& 0x3F = 0
          ∧ Codes.reference.pageBase &&& 0x0F = 0 ∧ Codes.reference.colHiBase &&& 0x0F = 0
          ∧ Codes.reference.colLoBase &&& 0x0F = 0 ∧ 0 < fresh.params.tShort ∧ fresh.params.tShort < fresh.params.tLong)
      ∧ ¬ (1 ≤ tall.width ∧ tall.width ≤ fresh.params.wMax ∧ 8 ≤ tall.height ∧ tall.height ≤ fresh.params.hMax
            ∧ tall.height % 8 = 0 ∧ (tall.variant = .bus → tall.busAddr + 1 < 2 ^ fresh.params.addrBits))
      ∧ (1 ≤ largest.width ∧ largest.width ≤ fresh.params.wMax ∧ 8 ≤ largest.height
          ∧ largest.height ≤ fresh.params.hMax ∧ largest.height % 8 = 0
          ∧ (largest.variant = .bus → largest.busAddr + 1 < 2 ^ fresh.params.addrBits)) := by decide

theorem witness_PowerOffSendsAndSwitches : Ready (live bus [1, 2, 3, 4]) := live_ready

theorem witness_PowerOnSendsAndSwitches : Ready { live serial [] with phase := .poweredOff } := ⟨rfl, rfl⟩

theorem witness_ContrastSendsAndShadows : Ready (failing 0 (live bus [1, 2, 3, 4])) := ⟨rfl, rfl⟩

theorem witness_InvertSendsAndShadows : Ready { live bus [1, 2, 3, 4] with phase := .poweredOff } := ⟨rfl, rfl⟩

theorem witness_FlushSendsTheFramebuffer : Ready (live bus [1, 2, 3, 4]) ∧ HoldsBytes (live bus [1, 2, 3, 4]) [1, 2, 3, 4] :=
  ⟨live_ready, live_holds⟩

theorem witness_FlushOfUnwrittenBytesStops :
    Ready (live bus [1, 2, 3]) ∧ (live bus [1, 2, 3]).oracle.allOk ∧ 3 < (live bus [1, 2, 3]).geo.n
      ∧ memRead (live bus [1, 2, 3]).fb 3 = none
      ∧ { inside .flush [.data] with fb := [(0, 1), (1, 2), (2, 3)] }.busy = true
      ∧ { inside .flush [.data] with fb := [(0, 1), (1, 2), (2, 3)] }.pending = .data :: []
      ∧ 3 < { inside .flush [.data] with fb := [(0, 1), (1, 2), (2, 3)] }.geo.n
      ∧ memRead { inside .flush [.data] with fb := [(0, 1), (1, 2), (2, 3)] }.fb 3 = none :=
  ⟨⟨rfl, rfl⟩, ⟨by decide, rfl⟩, by decide, by decide, rfl, rfl, by decide, by decide⟩

theorem witness_RuntimeOperationsEndOkWhenAnswered :
    isRuntime .flush ∧ Ready (live { tiny with width := 2 } [8, 9]) ∧ HoldsBytes (live { tiny with width := 2 } [8, 9]) [8, 9]
      ∧ (live { tiny with width := 2 } [8, 9]).oracle.allOk ∧ (live { tiny with width := 2 } [8, 9]).cfg.variant = .serial :=
  ⟨.inr (.inr (.inr (.inr rfl))), ⟨rfl, rfl⟩, live_holds_serial, ⟨by decide, rfl⟩, rfl⟩

theorem witness_SameOperationTwiceSendsTwice :
    isRuntime (.invert 1) ∧ Ready (live bus [1, 2, 3, 4]) ∧ HoldsBytes (live bus [1, 2, 3, 4]) [1, 2, 3, 4]
      ∧ (live bus [1, 2, 3, 4]).oracle.allOk :=
  ⟨.inr (.inr (.inr (.inl ⟨1, rfl⟩))), live_ready, live_holds, live_allOk⟩

theorem witness_FlushByteStreamIsTheFramebuffer :
    Ready (live bus [1, 2, 3, 4]) ∧ HoldsBytes (live bus [1, 2, 3, 4]) [1, 2, 3, 4] ∧ (live bus [1, 2, 3, 4]).oracle.allOk :=
  ⟨live_ready, live_holds, live_allOk⟩

theorem witness_PowerCycleSendsOffThenOn : Ready (live bus [1, 2, 3, 4]) ∧ (live bus [1, 2, 3, 4]).oracle.allOk :=
  ⟨live_ready, live_allOk⟩

/-- The third clause: both INITs, with rotation 5 and rotation 1, lead to a next state. -/
theorem witness_OutOfRangeOperandsAreMasked :
    (128 : Nat) ≠ 0 ∧ InitAccepted { bus with rotationIn := 5 } (failing 1 fresh)
      ∧ lands (exec (.init { bus with rotationIn := 5 }) (failing 1 fresh)) (fun t => t.geo.rot == 1)
      ∧ lands (exec (.init { bus with rotationIn := 5 % 4 }) (failing 1 fresh)) (fun t => t.geo.rot == 1)
      ∧ Ready (live bus [1, 2, 3, 4]) ∧ (live bus [1, 2, 3, 4]).oracle.allOk
      ∧ InitAccepted { bus with rotationIn := 5 } fresh ∧ fresh.oracle.allOk :=
  ⟨by decide, ⟨rfl, rfl, by decide, by decide, rfl⟩, by decide, by decide, live_ready, live_allOk,
    ⟨rfl, rfl, by decide, by decide, rfl⟩, ⟨by decide, rfl⟩⟩

/-- Both clauses: an INIT that fails, and one that is refused its phase. -/
theorem witness_RaiseWritesResultAndPhase :
    (inside .init []).op = some .init ∧ (ErrKind.transport = .config ∨ ErrKind.transport = .transport)
      ∧ ¬ ((inside .flush []).op = some .init ∧ (ErrKind.transport = .config ∨ ErrKind.transport = .transport))
      ∧ ¬ (fresh.op = some .init ∧ (ErrKind.state = .config ∨ ErrKind.state = .transport)) := by decide

theorem witness_PortWriteChangesOneByte : Ready (live bus [1, 2, 3, 4]) ∧ 3 < (live bus [1, 2, 3, 4]).geo.n :=
  ⟨live_ready, by decide⟩

theorem witness_PortReadReturnsTheByte : Ready (live bus [1, 2, 3, 4]) ∧ 3 < (live bus [1, 2, 3, 4]).geo.n
    ∧ memRead (live bus [1, 2, 3, 4]).fb 3 = some 4 := ⟨live_ready, by decide, by decide⟩

/-- A witness for each clause; the second at the index `N` itself. -/
theorem witness_PortAccessesWithoutMeaning :
    (fresh.busy = false ∧ fresh.phase.postInit = false)
      ∧ (Ready (live bus [1, 2, 3]) ∧ (live bus [1, 2, 3]).geo.n ≤ 4)
      ∧ (Ready (live bus [1, 2, 3]) ∧ 3 < (live bus [1, 2, 3]).geo.n ∧ memRead (live bus [1, 2, 3]).fb 3 = none) :=
  ⟨⟨rfl, rfl⟩, ⟨⟨rfl, rfl⟩, by decide⟩, ⟨⟨rfl, rfl⟩, by decide, by decide⟩⟩

/-- An INIT in another phase, and an instruction that is no INIT: the clause is of no use to an INIT in
`Uninitialized`. -/
theorem witness_ConfigWrittenOnlyByInit :
    lands (exec (.init serial) (live bus [])) (fun t => t.cfg == bus) ∧ (live bus []).phase ≠ .uninitialized
      ∧ lands (exec .powerOff (live bus [])) (fun t => t.cfg == bus)
      ∧ ∀ cfg, Instr.powerOff = .init cfg → (live bus []).phase ≠ .uninitialized :=
  ⟨by decide, by decide, by decide, fun _ h => (by cases h)⟩

/-- A step that grows all three records' kinds: an event and a result, and a read. -/
theorem witness_OutputsOnlyGrow :
    lands (step (resting [.issue (hcwWord 1 0)])) (fun t => t.trace.length == 1 && t.results == [.ok])
      ∧ lands (step (resting [.look 2])) (fun t => t.reads == [(2, 3)]) := by decide

theorem witness_AnswersAreTheEnvironments :
    lands (exec .flush (failing 1 (live bus [1, 2, 3, 4]))) (fun t => t.trace.length == 2 && t.oracle == ⟨[], .ok⟩) := by
  decide

theorem witness_LineRegistersFollowTheTrace :
    lands (exec .dispOn (failing 3 (live serial []))) (fun t => t.cs == .asserted && t.trace.length == 4) := by decide

theorem witness_SerialTransactionsAreFramed :
    lands (exec .dispOn (live serial [])) (fun t => t.cfg.variant == .serial && t.trace == (live serial []).trace ++ ws [0xAF]) := by
  decide

/-- The soft reset's write, followed by the settle delay. -/
theorem witness_NoCommandWhileTheChipSettles :
    InitAccepted bus (failing 1 fresh)
      ∧ lands (exec (.init bus) (failing 1 fresh)) (fun t =>
          t.trace == fresh.trace ++ [] ++ w 0x3C [0xE2] :: [⟨none, .delay 10, .ok⟩, ⟨some .command, .writeBytes (some 0x3C) [0xAE], .fail 7⟩])
      ∧ Event.mayFail (.delay 10) = false :=
  ⟨⟨rfl, rfl, by decide, by decide, rfl⟩, by decide, rfl⟩

theorem witness_OnlyListedCommandsAreSent :
    isWire (.contrast 13) = false
      ∧ lands (exec (.contrast 13) (live bus [])) (fun t => t.trace == (live bus []).trace ++ [w 0x3C [0x25]]) := by decide

theorem witness_InvariantKeptByStep : RestInv (resting [.issue (hcwWord 1 0)])
    ∧ lands (step (resting [.issue (hcwWord 1 0)])) (fun t => t.phase == .poweredOff) :=
  ⟨resting_inv _, by decide⟩

theorem witness_CanonicalFramebufferKept : Memory.wf (resting [.draw 2 0]).fb = true
    ∧ lands (step (resting [.draw 2 0])) (fun t => t.fb == [(0, 1), (1, 2), (2, 0), (3, 4)]) := by decide

/-- Each of the three outcomes is reached. -/
theorem witness_NoFaultFromTheInvariant :
    RestInv (resting [.issue (hcwWord 5 0)]) ∧ lands (step (resting [.issue (hcwWord 5 0)])) (fun t => t.result == .ok)
      ∧ RestInv (resting [.look 4]) ∧ refuses (step (resting [.look 4])) .portIndexOutOfRange
      ∧ RestInv { fresh with inputs := [.issue (hcwWord 0 0)], cfgIn := tall }
      ∧ refuses (step { fresh with inputs := [.issue (hcwWord 0 0)], cfgIn := tall }) .configNotWellFormed :=
  ⟨resting_inv _, by decide, resting_inv _, by decide, fresh_inv _ _, by decide⟩

theorem witness_PhaseMovesAlongTheStateMachine :
    RestInv (resting [.issue (hcwWord 1 0)]) ∧ RestInv { fresh with inputs := [.issue (hcwWord 0 0)], cfgIn := bus }
      ∧ RestInv (resting [.reset]) ∧ lands (step (resting [.reset])) (fun t => t.phase == .uninitialized) :=
  ⟨resting_inv _, fresh_inv _ _, resting_inv _, by decide⟩

/-- Both clauses. -/
theorem witness_FailedUntilHardwareReset :
    lands (step { fresh with phase := .failed, inputs := [.issue (hcwWord 5 0)] }) (fun t => t.result == .err .state none)
      ∧ Idle { fresh with phase := .failed } ∧ isRuntime (.contrast 3) :=
  ⟨by decide, ⟨rfl, rfl, rfl⟩, .inr (.inr (.inl ⟨3, rfl⟩))⟩

/-- The four clauses. -/
theorem witness_StepRunsTheDecodedInstruction :
    (resting [.issue 0x30D]).busy = false ∧ (resting [.issue 0x30D]).inputs = [.issue 0x30D]
      ∧ (resting [.draw 3 9]).inputs = [.draw 3 9] ∧ (resting [.look 3]).inputs = [.look 3]
      ∧ (inside .flush [.cmd [0xB0], .data]).busy = true
      ∧ (inside .flush [.cmd [0xB0], .data]).pending = .cmd [0xB0] :: [.data]
      ∧ decodeWire Codes.reference [0xB0] = .ok (.page 0) := by decide

/-- The three clauses. -/
theorem witness_StepBetweenOperations :
    (resting []).busy = false ∧ (resting []).inputs = [] ∧ (resting [.present serial]).inputs = .present serial :: []
      ∧ (resting [.reset]).inputs = .reset :: [] := by decide

/-- The three clauses, the first with each operation that writes at its end. -/
theorem witness_StepInsideAnOperation :
    (inside .powerOff []).busy = true ∧ (inside .powerOff []).pending = [] ∧ (inside .powerOff []).op = some .powerOff
      ∧ (inside (.contrast 5) []).op = some (.contrast 5) ∧ (inside (.invert 1) []).op = some (.invert 1)
      ∧ (inside .init [.phase .cleared]).pending = .phase .cleared :: []
      ∧ (inside .init [.fill0, .data]).pending = .fill0 :: [.data] := by decide

theorem witness_PlacedWordRunsNext :
    (live bus [1, 2, 3, 4]).params.codes = Codes.reference ∧ State.reset.cfgIn = Cfg.least
      ∧ decodeTableWord 16 0x3FF = some (.contrast 255) ∧ decodeTableWord 8 0xBF = some (.page 15) := by decide

theorem witness_HostHasNoMoveWhileBusy : (inside .flush [.data]).busy = true ∧ isWire (.fbr 0) = false
    ∧ lands (step (inside .flush [.data])) (fun t => t.inputs == []) := by decide

theorem witness_OperationIsItsSteps :
    fresh.params.wf = true ∧ isRuntime .flush ∧ Ready (live bus [1, 2, 3, 4]) ∧ InitAccepted bus fresh :=
  ⟨by decide, .inr (.inr (.inr (.inr rfl))), live_ready, fresh_accepts_bus⟩

theorem witness_ConstructIsResetThenInit :
    (resting (constructSteps serial)).busy = false
      ∧ (resting (constructSteps serial)).inputs = constructSteps serial ++ [] := ⟨rfl, by simp [resting]⟩

theorem witness_ClearZeroesAndFlushes :
    Ready (resting (clearSteps 4)) ∧ (resting (clearSteps 4)).oracle.allOk
      ∧ (resting (clearSteps 4)).inputs = clearSteps (resting (clearSteps 4)).geo.n ++ [] :=
  ⟨⟨rfl, rfl⟩, ⟨by decide, rfl⟩, by decide⟩

theorem witness_HostWordsKeepTheMeaning :
    isWire (.invert 256) = false ∧ (∀ cfg, Instr.invert 256 = .init cfg → bus = cfg)
      ∧ decode Codes.reference bus (encode Codes.reference (.invert 256)) = .ok (.invert 1)
      ∧ decode Codes.reference bus (encode Codes.reference (.contrast 300)) = .ok (.contrast 44)
      ∧ (∀ cfg, Instr.init bus = .init cfg → bus = cfg) :=
  ⟨rfl, fun _ h => (by cases h), by decide, by decide, fun _ h => (by cases h; rfl)⟩

end Sys2Proof.Machine.Tests
end

section
/-! `WF_CODES`, the order of the durations and `WF_CFG`, condition by condition (rules R5, R6, R10). -/

namespace Sys2Proof

/-- `WF_CODES`, condition by condition (rule R5). -/
theorem Codes.wf_iff (K : Codes) : K.wf = true ↔
    K.displayOn ≠ K.displayOff ∧ K.contrastBase &&& 0x07 = 0 ∧ K.invertBase &&& 0x01 = 0 ∧ K.scrollBase &&& 0x3F = 0
      ∧ K.pageBase &&& 0x0F = 0 ∧ K.colHiBase &&& 0x0F = 0 ∧ K.colLoBase &&& 0x0F = 0 := by
  simp [Codes.wf, and_assoc]

/-- `WF_CODES` and the order of the durations, condition by condition (rules R5, R6). -/
theorem Params.wf_iff (p : Params) : p.wf = true ↔
    p.codes.displayOn ≠ p.codes.displayOff ∧ p.codes.contrastBase &&& 0x07 = 0 ∧ p.codes.invertBase &&& 0x01 = 0
      ∧ p.codes.scrollBase &&& 0x3F = 0 ∧ p.codes.pageBase &&& 0x0F = 0 ∧ p.codes.colHiBase &&& 0x0F = 0
      ∧ p.codes.colLoBase &&& 0x0F = 0 ∧ 0 < p.tShort ∧ p.tShort < p.tLong := by
  simp only [Params.wf, Bool.and_eq_true, Codes.wf_iff, decide_eq_true_eq, and_assoc]

/-- The bus address is asked of the Bus variant only (rule R10). -/
theorem Cfg.addressed_iff (p : Params) (c : Cfg) :
    c.addressed p = true ↔ (c.variant = .bus → c.busAddr + 1 < 2 ^ p.addrBits) := by
  unfold Cfg.addressed
  split <;> simp_all

/-- `WF_CFG`, condition by condition (rule R10). -/
theorem Cfg.wf_iff (p : Params) (c : Cfg) : c.wf p = true ↔
    1 ≤ c.width ∧ c.width ≤ p.wMax ∧ 8 ≤ c.height ∧ c.height ≤ p.hMax ∧ c.height % 8 = 0
      ∧ (c.variant = .bus → c.busAddr + 1 < 2 ^ p.addrBits) := by
  simp only [Cfg.wf, Cfg.shaped, Bool.and_eq_true, Cfg.addressed_iff, decide_eq_true_eq]
  tauto

end Sys2Proof
end

section
/-! The wire commands' decoder against their encoder, for every `Codes` (rules R64 to R67, R118, R119): a packed field
and its base, what a decoded command is, that every wire command's bytes decode, and that a wire command means what its
bytes are. -/

namespace Sys2Proof.Machine

/-! ### A packed field and its base -/

/-- A field is the operand's bits under the mask (rule R65). -/
theorem lowField_eq_and (mask p : Nat) : lowField mask p = BitVec.ofNat 8 p &&& BitVec.ofNat 8 mask :=
  BitVec.ofNat_and ..

/-- A base clear under the mask is what a packed byte has outside it (rule R118). -/
theorem base_of_packed {base m : Byte} (x : Byte) (h : base &&& m = 0) : (base ||| x &&& m) &&& ~~~m = base := by
  ext i hi
  have hbit : (base &&& m)[i] = false := by simp [h]
  simp only [BitVec.getElem_and, BitVec.getElem_or, BitVec.getElem_not] at hbit ⊢
  revert hbit
  cases base[i] <;> cases m[i] <;> simp

/-- A byte is its bits outside the mask and its bits under it. -/
theorem outside_or_under (b m : Byte) : b &&& ~~~m ||| b &&& m = b := by
  ext i hi
  simp [← Bool.and_or_distrib_left]

/-- The base shows outside the field's mask, whatever the operand. -/
theorem packed_base {base : Byte} {mask : Nat} (p : Nat) (h : base &&& BitVec.ofNat 8 mask = 0) :
    (base ||| lowField mask p) &&& ~~~BitVec.ofNat 8 mask = base := by
  rw [lowField_eq_and]
  exact base_of_packed _ h

/-- A byte's own field, packed over what the byte has outside the mask, gives the byte. -/
theorem packed_field (b : Byte) (mask : Nat) :
    (b &&& ~~~BitVec.ofNat 8 mask) ||| lowField mask (b &&& BitVec.ofNat 8 mask).toNat = b := by
  rw [lowField_eq_and, BitVec.ofNat_toNat, BitVec.setWidth_eq, BitVec.and_assoc, BitVec.and_self, outside_or_under]

/-- A byte that shows the base outside the mask is that base packed with its own field (rule R65). -/
theorem packed_of_masked {base b : Byte} {mask : Nat} (h : b &&& ~~~BitVec.ofNat 8 mask = base) :
    packed base mask (b &&& BitVec.ofNat 8 mask).toNat = [b] := by
  rw [packed, ← h, packed_field]

/-- The truth bit lies under the mask of bit 0 (rule R106). -/
theorem truthBit_under (f : Nat) : truthBit f = truthBit f &&& 0x01 := by
  unfold truthBit
  split <;> rfl

/-- The truth value of bit 0 is bit 0. -/
theorem truthBit_bit0 : ∀ b : Byte, truthBit (b &&& 0x01).toNat = b &&& 0x01 := by decide

/-- A field read from a byte is no more than its mask. -/
theorem field_le (b m : Byte) : (b &&& m).toNat ≤ m.toNat := by
  rw [BitVec.toNat_and]
  exact Nat.and_le_right

/-- A column put together from its two nibbles gives them back (rule R104). -/
theorem nibbles_of_column {hi lo : Nat} (h : lo < 16) :
    lowField 0x0F ((hi * 16 + lo) >>> 4) = lowField 0x0F hi ∧ lowField 0x0F (hi * 16 + lo) = lowField 0x0F lo := by
  have hhi : (hi * 16 + lo) >>> 4 = hi := by rw [Nat.shiftRight_eq_div_pow]; omega
  have hlo : (hi * 16 + lo) % 2 ^ 4 = lo % 2 ^ 4 := by omega
  refine ⟨by rw [hhi], (lowField_eq_mod 4 _).trans ?_⟩
  rw [hlo]
  exact (lowField_eq_mod 4 lo).symm

/-! ### What a decoded command is -/

/-- `i` is a wire command that its encoding holds whole, and its bytes are `bs`. -/
structure Spells (K : Codes) (i : Instr) (bs : List Byte) : Prop where
  wire : isWire i = true
  whole : wellFormed i = true
  bytes : encode K i = .wire bs

theorem decodeFixed_spells {K : Codes} {b : Byte} {i : Instr} (h : decodeFixed K b = some i) : Spells K i [b] := by
  unfold decodeFixed at h
  split_ifs at h <;> cases h <;> subst b <;> exact ⟨rfl, rfl, rfl⟩

theorem decodeOrientation_spells {K : Codes} {b : Byte} {i : Instr} (h : decodeOrientation K b = some i) :
    Spells K i [b] := by
  unfold decodeOrientation at h
  split_ifs at h <;> cases h <;> subst b <;> exact ⟨rfl, rfl, rfl⟩

theorem decodePacked_spells {K : Codes} {b : Byte} {i : Instr} (h : decodePacked K b = some i) : Spells K i [b] := by
  unfold decodePacked at h
  split_ifs at h with hscroll hpage hevr hinv <;> cases h
  · exact ⟨rfl, decide_eq_true (Nat.lt_succ_of_le (field_le b 0x3F)),
      congrArg Encoding.wire (packed_of_masked (mask := 0x3F) hscroll)⟩
  · exact ⟨rfl, decide_eq_true (Nat.lt_succ_of_le (field_le b 0x0F)),
      congrArg Encoding.wire (packed_of_masked (mask := 0x0F) hpage)⟩
  · exact ⟨rfl, decide_eq_true (Nat.lt_succ_of_le (field_le b 0x07)),
      congrArg Encoding.wire (packed_of_masked (mask := 0x07) hevr)⟩
  · refine ⟨rfl, decide_eq_true (Nat.lt_succ_of_le (field_le b 0x01)), ?_⟩
    rw [encode, invBytes, truthBit_bit0, ← hinv]
    exact congrArg (fun x => Encoding.wire [x]) (outside_or_under b 0x01)

theorem decodeByte_spells {K : Codes} {b : Byte} {i : Instr} (h : decodeByte K b = some i) : Spells K i [b] := by
  rcases Option.or_eq_some_iff.mp h with h | ⟨-, h⟩
  · exact decodeFixed_spells h
  rcases Option.or_eq_some_iff.mp h with h | ⟨-, h⟩
  · exact decodeOrientation_spells h
  · exact decodePacked_spells h

theorem decodePair_spells {K : Codes} {b0 b1 : Byte} {i : Instr} (h : decodePair K b0 b1 = some i) :
    Spells K i [b0, b1] := by
  unfold decodePair at h
  split_ifs at h with hev hcom hcol <;> cases h
  · rw [hev.1, hev.2]; exact ⟨rfl, rfl, rfl⟩
  · rw [hcom.1, hcom.2]; exact ⟨rfl, rfl, rfl⟩
  · obtain ⟨hhi, hlo⟩ := hcol
    have h0 : (b0 &&& 0x0F).toNat ≤ 15 := field_le b0 0x0F
    have h1 : (b1 &&& 0x0F).toNat ≤ 15 := field_le b1 0x0F
    obtain ⟨n0, n1⟩ := nibbles_of_column (hi := (b0 &&& 0x0F).toNat) (Nat.lt_succ_of_le h1)
    refine ⟨rfl, decide_eq_true (by omega), ?_⟩
    rw [encode, colBytes, nibblePair, n0, n1, ← hhi, ← hlo]
    exact congrArg₂ (fun x y => Encoding.wire [x, y]) (packed_field b0 0x0F) (packed_field b1 0x0F)

/-- Bytes that decode are the bytes of the command they decode to, whose operand is whole, for every `Codes`. -/
theorem decodeWire_spells {K : Codes} {bs : List Byte} {i : Instr} (h : decodeWire K bs = .ok i) : Spells K i bs := by
  match bs with
  | [] => cases h
  | [b] =>
    cases hb : decodeByte K b with
    | none => simp [decodeWire, hb] at h
    | some j =>
      obtain rfl : j = i := by simpa [decodeWire, hb] using h
      exact decodeByte_spells hb
  | [b0, b1] =>
    cases hb : decodePair K b0 b1 with
    | none => simp [decodeWire, hb] at h
    | some j =>
      obtain rfl : j = i := by simpa [decodeWire, hb] using h
      exact decodePair_spells hb
  | _ :: _ :: _ :: _ => cases h

/-! ### Which bytes decode -/

/-- The codes of the fixed one-byte commands but the orientation commands (format W1 of rule R64). -/
def fixedCodes (K : Codes) : List Byte :=
  [K.displayOff, K.displayOn, K.softReset, K.tempCompInit, K.powerCtrlInit, K.biasInit, K.analogA, K.analogB, K.lineCfg]

theorem decodeFixed_isSome {K : Codes} {b : Byte} : (decodeFixed K b).isSome ↔ b ∈ fixedCodes K := by
  unfold decodeFixed fixedCodes
  split_ifs <;> simp_all

theorem decodeOrientation_isSome {K : Codes} {b : Byte} :
    (decodeOrientation K b).isSome ↔ ∃ rot, b = (orientationRow K rot).scan ∨ b = (orientationRow K rot).inc := by
  unfold decodeOrientation
  split_ifs <;> simp_all [Fin.exists_fin_succ, orientationRow]

theorem decodePacked_isSome {K : Codes} {b : Byte} :
    (decodePacked K b).isSome ↔ b &&& 0xC0 = K.scrollBase ∨ b &&& 0xF0 = K.pageBase ∨ b &&& 0xF8 = K.contrastBase
      ∨ b &&& 0xFE = K.invertBase := by
  unfold decodePacked
  split_ifs <;> simp_all

theorem decodeByte_isSome {K : Codes} {b : Byte} :
    (decodeByte K b).isSome ↔ (decodeFixed K b).isSome ∨ (decodeOrientation K b).isSome ∨ (decodePacked K b).isSome := by
  simp [decodeByte, Option.isSome_or]

theorem decodePair_isSome {K : Codes} {b0 b1 : Byte} :
    (decodePair K b0 b1).isSome ↔ (b0 = K.evCmd ∧ b1 = K.evInit) ∨ (b0 = K.comEndCmd ∧ b1 = K.comEndInit)
      ∨ (b0 &&& 0xF0 = K.colHiBase ∧ b1 &&& 0xF0 = K.colLoBase) := by
  unfold decodePair
  split_ifs <;> simp_all

theorem decodeWire_byte {K : Codes} {b : Byte} (h : (decodeByte K b).isSome) : ∃ j, decodeWire K [b] = .ok j := by
  obtain ⟨j, hj⟩ := Option.isSome_iff_exists.mp h
  exact ⟨j, by simp [decodeWire, hj]⟩

theorem decodeWire_pair {K : Codes} {b0 b1 : Byte} (h : (decodePair K b0 b1).isSome) :
    ∃ j, decodeWire K [b0, b1] = .ok j := by
  obtain ⟨j, hj⟩ := Option.isSome_iff_exists.mp h
  exact ⟨j, by simp [decodeWire, hj]⟩

/-- Every wire command's bytes decode under `WF_CODES`: a fixed or orientation command by its table, a packed one by its
base, which its field leaves alone. -/
theorem wire_decodes {K : Codes} {i : Instr} (hK : K.wf = true) (hi : isWire i = true) :
    ∃ bs, encode K i = .wire bs ∧ ∃ j, decodeWire K bs = .ok j := by
  obtain ⟨-, hcontrast, hinvert, hscroll, hpage, hhi, hlo⟩ := (Codes.wf_iff K).mp hK
  have fixed : ∀ b ∈ fixedCodes K, ∃ j, decodeWire K [b] = .ok j :=
    fun b hb => decodeWire_byte (decodeByte_isSome.mpr (.inl (decodeFixed_isSome.mpr hb)))
  have oriented : ∀ rot b, b = (orientationRow K rot).scan ∨ b = (orientationRow K rot).inc →
      ∃ j, decodeWire K [b] = .ok j :=
    fun rot b hb => decodeWire_byte (decodeByte_isSome.mpr (.inr (.inl (decodeOrientation_isSome.mpr ⟨rot, hb⟩))))
  have byBase : ∀ b, b &&& 0xC0 = K.scrollBase ∨ b &&& 0xF0 = K.pageBase ∨ b &&& 0xF8 = K.contrastBase
      ∨ b &&& 0xFE = K.invertBase → ∃ j, decodeWire K [b] = .ok j :=
    fun b hb => decodeWire_byte (decodeByte_isSome.mpr (.inr (.inr (decodePacked_isSome.mpr hb))))
  cases i with
  | dispOff | dispOn | softReset | tempComp | powerCtrl | bias | analogA | analogB | lineCfg =>
    exact ⟨_, rfl, fixed _ (by simp [fixedCodes])⟩
  | scan rot => exact ⟨_, rfl, oriented rot _ (.inl rfl)⟩
  | inc rot => exact ⟨_, rfl, oriented rot _ (.inr rfl)⟩
  | scroll line => exact ⟨_, rfl, byBase _ (.inl (packed_base line hscroll))⟩
  | page p => exact ⟨_, rfl, byBase _ (.inr (.inl (packed_base p hpage)))⟩
  | evr r => exact ⟨_, rfl, byBase _ (.inr (.inr (.inl (packed_base r hcontrast))))⟩
  | inv f =>
    refine ⟨_, rfl, byBase _ (.inr (.inr (.inr ?_)))⟩
    rw [truthBit_under]
    exact base_of_packed _ hinvert
  | ev2 => exact ⟨_, rfl, decodeWire_pair (decodePair_isSome.mpr (.inl ⟨rfl, rfl⟩))⟩
  | comEnd => exact ⟨_, rfl, decodeWire_pair (decodePair_isSome.mpr (.inr (.inl ⟨rfl, rfl⟩)))⟩
  | col c =>
    exact ⟨_, rfl, decodeWire_pair (decodePair_isSome.mpr (.inr (.inr ⟨packed_base _ hhi, packed_base _ hlo⟩)))⟩
  | _ => cases hi

/-! ### What a wire command means -/

/-- An instruction that is encoded as bytes is the transmission of these bytes, and nothing else (rules R87, R119). -/
theorem exec_of_encode_wire {i : Instr} {bs : List Byte} (s : State) (h : encode s.params.codes i = .wire bs) :
    exec i s = sendCommand bs s := by
  cases i <;> cases h <;> rfl

/-- Settles O5: a wire command's bytes decode, the decoder is sound, and the meaning is the bytes' alone. -/
theorem wireCommandsRoundTripInMeaning : Obligations.WireCommandsRoundTripInMeaning := by
  intro K c i hK hi
  obtain ⟨bs, hbs, j, hj⟩ := wire_decodes hK hi
  obtain ⟨hwire, hwhole, hbytes⟩ := decodeWire_spells hj
  refine ⟨j, hwire, hwhole, by rw [hbs]; exact hj, hbytes.trans hbs.symm, ?_⟩
  rintro s rfl
  rw [exec_of_encode_wire s hbytes, exec_of_encode_wire s hbs]

end Sys2Proof.Machine
end

section
/-! INIT's checks (rules R5, R6, R10, R130, R177): what INIT answers when no operation is in progress, by the phase and
by the legality of the parameters and the configuration. -/

namespace Sys2Proof.Machine

/-- INIT in `Uninitialized` with illegal parameters. -/
theorem execInit_illegalParams {cfg : Cfg} {s : State} (hb : s.busy = false) (hp : s.phase = .uninitialized)
    (h : s.params.wf = false) : exec (.init cfg) s = .refused .paramsNotWellFormed := by
  simp [exec, execInit, hb, hp, h]

/-- INIT in `Uninitialized` with legal parameters and an illegal configuration. -/
theorem execInit_illegalConfig {cfg : Cfg} {s : State} (hb : s.busy = false) (hp : s.phase = .uninitialized)
    (hw : s.params.wf = true) (h : cfg.wf s.params = false) :
    exec (.init cfg) s = .refused .configNotWellFormed := by
  simp [exec, execInit, hb, hp, hw, h]

/-- INIT in `Uninitialized` with legal arguments completes: it reports a missing line, or is accepted. -/
theorem execInit_legal {cfg : Cfg} {s : State} (hb : s.busy = false) (hp : s.phase = .uninitialized)
    (hw : s.params.wf = true) (hc : cfg.wf s.params = true) : ∃ t, exec (.init cfg) s = .next t := by
  cases hl : cfg.lacksLine with
  | true => exact ⟨raiseErr .config none (latchConfig cfg s), by simp [exec, execInit, hb, hp, hw, hc, hl]⟩
  | false =>
    rcases execInit_spec cfg s ⟨hb, hp, hw, hc, hl⟩ with ⟨_, u, h, -⟩ | ⟨_, u, x, _, h, -⟩
    · exact ⟨finish u, h⟩
    · exact ⟨raiseErr .transport (some x) u, h⟩

/-- INIT outside `Uninitialized` reports `Err(STATE)` (rule R174). -/
theorem execInit_outsidePhase {cfg : Cfg} {s : State} (hb : s.busy = false) (hp : s.phase ≠ .uninitialized) :
    exec (.init cfg) s = .next (raiseErr .state none s) := by
  simp [exec, execInit, hb, hp]

/-- INIT's answer in every phase: it completes, or its arguments have no meaning in `Uninitialized`. -/
theorem execInit_outcome {cfg : Cfg} {s : State} (hb : s.busy = false) :
    (∃ t, exec (.init cfg) s = .next t)
    ∨ s.phase = .uninitialized
        ∧ (s.params.wf = false ∧ exec (.init cfg) s = .refused .paramsNotWellFormed
          ∨ cfg.wf s.params = false ∧ exec (.init cfg) s = .refused .configNotWellFormed) := by
  by_cases hp : s.phase = .uninitialized
  · cases hw : s.params.wf with
    | false => exact .inr ⟨hp, .inl ⟨rfl, execInit_illegalParams hb hp hw⟩⟩
    | true =>
      cases hc : cfg.wf s.params with
      | false => exact .inr ⟨hp, .inr ⟨rfl, execInit_illegalConfig hb hp hw hc⟩⟩
      | true => exact .inl (execInit_legal hb hp hw hc)
  · exact .inl ⟨_, execInit_outsidePhase hb hp⟩

/-- Settles O20: INIT's answer in `Uninitialized`, by the legality of the parameters and then of the configuration. -/
theorem initRefusesIllegalArguments : Obligations.InitRefusesIllegalArguments := by
  rintro cfg s _ rfl hb hp
  rw [← Params.wf_iff, ← Cfg.wf_iff]
  refine ⟨fun hw => execInit_illegalParams hb hp (by simpa using hw), fun hw => ⟨fun hc => ?_, fun hc => ?_⟩⟩
  · exact execInit_illegalConfig hb hp hw (by simpa using hc)
  · exact execInit_legal hb hp hw hc

end Sys2Proof.Machine
end

section
/-! The records of what DSEQ has shown the outside (rules R9, R23, R44): every step keeps the parameters, and the trace,
the results and the reads of before stand at the head of those after. -/

namespace Sys2Proof.Machine

/-- The parameters are the same, and each record has only grown at its end. -/
structure Grows (s t : State) : Prop where
  params : t.params = s.params
  trace : s.trace <+: t.trace
  results : s.results <+: t.results
  reads : s.reads <+: t.reads

theorem Grows.refl (s : State) : Grows s s := ⟨rfl, List.prefix_rfl, List.prefix_rfl, List.prefix_rfl⟩

theorem Grows.trans {s t u : State} (h : Grows s t) (k : Grows t u) : Grows s u :=
  ⟨k.params.trans h.params, h.trace.trans k.trace, h.results.trans k.results, h.reads.trans k.reads⟩

theorem Outward.grows {plan : List Planned} {s t : State} {x : Option FailInfo} {new : List TraceEntry}
    (h : Outward plan s x t new) : Grows s t := by
  obtain ⟨rs, hrs⟩ := h.results
  obtain ⟨ds, hds⟩ := h.reads
  exact ⟨h.params, ⟨new, h.trace.symm⟩, ⟨rs, hrs.symm⟩, ⟨ds, hds.symm⟩⟩

theorem Traced.grows {plan : List Planned} {s t : State} {x : Option FailInfo} {new : List TraceEntry}
    (h : Traced plan s x t new) : Grows s t :=
  (h.outward rfl rfl ⟨[], by simp⟩).grows

theorem raiseErr_grows (k : ErrKind) (x : Option FailInfo) (s : State) : Grows s (raiseErr k x s) :=
  ⟨rfl, List.prefix_rfl, List.prefix_append .., List.prefix_rfl⟩

theorem finish_grows (s : State) : Grows s (finish s) :=
  ⟨by simp, by simp, by simp, by simp⟩

theorem exec_grows {i : Instr} {s t : State} (h : exec i s = .next t) : Grows s t := by
  obtain ⟨_, _, _, hout, -⟩ := exec_outward i s t h
  exact hout.grows

/-- The state a step goes on from with what was fetched. -/
def Fetched.source (s : State) : Fetched → State
  | .idle => s
  | .instr _ u => u
  | .action _ u => u
  | .finished => s
  | .present _ u => u
  | .reset u => u
  | .undecodable _ => s

theorem fetchEncoding_source (e : Encoding) (s u : State) :
    (fetchEncoding e u).source s = u ∨ (fetchEncoding e u).source s = s := by
  unfold fetchEncoding
  split
  · exact .inl rfl
  · exact .inr rfl

/-- The fetch takes an input or an action at most, and leaves the rest of the state alone. -/
theorem fetch_source (s : State) : ∃ ins as, (fetch s).source s = { s with inputs := ins, pending := as } := by
  have encoded : ∀ e ins as, ∃ ins' as', (fetchEncoding e { s with inputs := ins, pending := as }).source s
      = { s with inputs := ins', pending := as' } := by
    intro e ins as
    rcases fetchEncoding_source e s { s with inputs := ins, pending := as } with h | h
    · exact ⟨ins, as, h⟩
    · exact ⟨s.inputs, s.pending, h⟩
  have action : ∃ ins as, (fetchAction s).source s = { s with inputs := ins, pending := as } := by
    unfold fetchAction
    split
    next => exact ⟨_, _, rfl⟩
    next bs rest _ => exact encoded (.wire bs) s.inputs rest
    all_goals exact ⟨_, _, rfl⟩
  have hostStep : ∃ ins as, (fetchHostStep s).source s = { s with inputs := ins, pending := as } := by
    unfold fetchHostStep
    split
    next => exact ⟨_, _, rfl⟩
    next w rest _ => exact encoded (.hcw w) rest s.pending
    next i v rest _ => exact encoded (.portWrite i v) rest s.pending
    next i rest _ => exact encoded (.portRead i) rest s.pending
    all_goals exact ⟨_, _, rfl⟩
  unfold fetch
  split
  · exact action
  · exact hostStep

theorem fetch_grows (s : State) : Grows s ((fetch s).source s) := by
  obtain ⟨ins, as, h⟩ := fetch_source s
  rw [h]
  exact ⟨rfl, List.prefix_rfl, List.prefix_rfl, List.prefix_rfl⟩

theorem turn_grows (a : Action) (s : State) :
    (∀ t, turn a s = .done t → Grows s t) ∧ ∀ t, turn a s = .aborted t → Grows s t := by
  rcases turn_traced a s with ⟨_, _, u, hu, htr, -⟩ | ⟨_, _, u, x, hu, htr, -⟩ | hu <;> rw [hu]
  · exact ⟨by rintro _ ⟨⟩; exact htr.grows, by rintro _ ⟨⟩⟩
  · exact ⟨by rintro _ ⟨⟩, by rintro _ ⟨⟩; exact htr.grows.trans (raiseErr_grows _ _ _)⟩
  · exact ⟨by rintro _ ⟨⟩, by rintro _ ⟨⟩⟩

theorem carryOut_grows {f : Fetched} {s t : State} (h : carryOut f s = .next t) : Grows (f.source s) t := by
  cases f with
  | idle => cases h; exact Grows.refl s
  | instr i u => exact exec_grows h
  | action a u =>
    obtain ⟨hdone, haborted⟩ := turn_grows a u
    rw [carryOut] at h
    split at h <;> cases h
    · exact hdone _ ‹_›
    · exact haborted _ ‹_›
  | finished => cases h; exact finish_grows s
  | present cfg u => cases h; exact ⟨rfl, List.prefix_rfl, List.prefix_rfl, List.prefix_rfl⟩
  | reset u => cases h; exact ⟨rfl, List.prefix_rfl, List.prefix_rfl, List.prefix_rfl⟩
  | undecodable e => cases h

theorem step_grows {s t : State} (h : step s = .next t) : Grows s t :=
  (fetch_grows s).trans (carryOut_grows h)

/-- Settles O37: the fetch shows nothing, and what is carried out only appends to the records. -/
theorem outputsOnlyGrow : Obligations.OutputsOnlyGrow := by
  intro s t h
  obtain ⟨hparams, ⟨tr, htr⟩, ⟨rs, hrs⟩, ⟨ds, hds⟩⟩ := step_grows h
  exact ⟨hparams, ⟨tr, htr.symm⟩, ⟨rs, hrs.symm⟩, ⟨ds, hds.symm⟩⟩

end Sys2Proof.Machine
end

section
/-! What a step does between operations (rule R196), host step by host step, and that no host step faults from the rest
invariant: a post-init framebuffer holds a byte at every index below `N` (rules R21, R24). -/

namespace Sys2Proof.Machine

/-! ### The host steps -/

section
variable {s : State} {rest : List HostStep} (hb : s.busy = false)
include hb

theorem step_waiting (hi : s.inputs = []) : step s = .next s := by
  simp [step, fetch, hb, fetchHostStep, hi, carryOut]

theorem step_issue {w : Hcw} (hi : s.inputs = .issue w :: rest) :
    step s = exec (decodeHcw s.cfgIn w) { s with inputs := rest } := by
  simp [step, fetch, hb, fetchHostStep, hi, carryOut, fetchEncoding, decode]

theorem step_draw {i : Nat} {v : Byte} (hi : s.inputs = .draw i v :: rest) :
    step s = exec (.fbw i v) { s with inputs := rest } := by
  simp [step, fetch, hb, fetchHostStep, hi, carryOut, fetchEncoding, decode]

theorem step_look {i : Nat} (hi : s.inputs = .look i :: rest) :
    step s = exec (.fbr i) { s with inputs := rest } := by
  simp [step, fetch, hb, fetchHostStep, hi, carryOut, fetchEncoding, decode]

theorem step_present {cfg : Cfg} (hi : s.inputs = .present cfg :: rest) :
    step s = .next { s with inputs := rest, cfgIn := cfg } := by
  simp [step, fetch, hb, fetchHostStep, hi, carryOut]

theorem step_reset (hi : s.inputs = .reset :: rest) : step s = .next (hardwareReset { s with inputs := rest }) := by
  simp [step, fetch, hb, fetchHostStep, hi, carryOut]

end

/-! ### The framebuffer of a post-init phase -/

theorem memRead_of_listed {m : List Host.Cell} {i : Nat} (h : i ∈ m.map Prod.fst) : ∃ v, memRead m i = some v := by
  induction m with
  | nil => simp at h
  | cons c m ih =>
    obtain ⟨a, w⟩ := c
    by_cases ha : a = i
    · exact ⟨w, by rw [memRead_cons, if_pos ha]⟩
    · rw [memRead_cons, if_neg ha]
      exact ih (by simpa [Ne.symm ha] using h)

theorem readFrom_of_listed {m : List Host.Cell} {i k : Nat} (h : ∀ j, i ≤ j → j < i + k → j ∈ m.map Prod.fst) :
    ∃ vs, readFrom m i k = some vs := by
  induction k generalizing i with
  | zero => exact ⟨[], rfl⟩
  | succ k ih =>
    obtain ⟨v, hv⟩ := memRead_of_listed (h i (by omega) (by omega))
    obtain ⟨vs, hvs⟩ := ih (i := i + 1) fun j h1 h2 => h j (by omega) (by omega)
    exact ⟨v :: vs, by simp [readFrom, hv, hvs]⟩

/-- Every index below `N` is listed in a post-init phase (rule R21). -/
theorem RestInv.listed {s : State} (h : RestInv s) (hp : s.phase.postInit = true) {i : Nat} (hi : i < s.geo.n) :
    i ∈ s.fb.map Prod.fst := by
  obtain ⟨-, -, hfb⟩ := h.built hp
  rw [hfb]
  exact List.mem_range.mpr hi

theorem RestInv.readable {s : State} (h : RestInv s) (hp : s.phase.postInit = true) :
    ∃ vs, readFrom s.fb 0 s.geo.n = some vs :=
  readFrom_of_listed fun _ _ hj => h.listed hp (by omega)

/-- The host steps still to come are no part of the invariant. -/
theorem RestInv.withInputs {s : State} (h : RestInv s) (ins : List HostStep) : RestInv { s with inputs := ins } :=
  ⟨h.idle, h.noOp, h.noAction, h.settled, h.canonical, h.admitted, h.built, h.unsent⟩

/-! ### No host step faults -/

/-- A runtime operation completes in every phase if its list has a plan in the post-init phases. -/
theorem runtimeOp_completes {o : Op} {as : List Action} {s : State} (hb : s.busy = false)
    (hp : s.phase.postInit = true → ∃ plan, planOf s.cfg s.geo.n as s.fb = some plan) :
    ∃ t, runtimeOp o as s = .next t := by
  cases hq : s.phase.postInit with
  | false => exact ⟨raiseErr .state none s, by simp [runtimeOp, hb, hq]⟩
  | true =>
    obtain ⟨plan, hplan⟩ := hp hq
    rcases runtimeOp_spec o as s plan ⟨hb, hq⟩ hplan with ⟨_, u, h, -⟩ | ⟨_, u, x, _, _, h, -⟩
    · exact ⟨finish u, h⟩
    · exact ⟨raiseErr .transport (some x) u, h⟩

theorem RestInv.runtime_completes {s : State} (h : RestInv s) {i : Instr} (hi : isRuntime i) :
    ∃ t, exec i s = .next t := by
  have command : ∀ o bs, ∃ t, runtimeOp o [.cmd bs] s = .next t :=
    fun _ _ => runtimeOp_completes h.idle fun _ => ⟨_, planOf_command ..⟩
  rcases hi with rfl | rfl | ⟨level, rfl⟩ | ⟨flag, rfl⟩ | rfl
  · exact command ..
  · exact command ..
  · exact command ..
  · exact command ..
  · refine runtimeOp_completes h.idle fun hp => ?_
    obtain ⟨vs, hvs⟩ := h.readable hp
    exact ⟨_, planOf_flush _ _ _ _ vs hvs⟩

/-- The operations of the opcode map (rule R62). -/
theorem decodeHcw_cases (c : Cfg) (w : Hcw) :
    decodeHcw c w = .init c ∨ isRuntime (decodeHcw c w) ∨ decodeHcw c w = .reserved6 ∨ decodeHcw c w = .reserved7 := by
  unfold decodeHcw isRuntime
  split <;> simp

/-- A reserved opcode reports `Err(ILLEGAL_OP)` (rule R175). -/
theorem execReserved_idle {i : Instr} {s : State} (hi : i = .reserved6 ∨ i = .reserved7) (hb : s.busy = false) :
    exec i s = .next (raiseErr .illegalOp none s) := by
  rcases hi with rfl | rfl
  · simp [exec, execReserved6, reservedOp, hb]
  · simp [exec, execReserved7, reservedOp, hb]

/-- The port's answer with no operation in progress (rule R161). -/
theorem portCheck_cases {i : Nat} {s : State} (hb : s.busy = false) :
    (s.phase.postInit = false ∧ portCheck i s = some .portNotPostInit)
    ∨ (s.geo.n ≤ i ∧ portCheck i s = some .portIndexOutOfRange)
    ∨ (s.phase.postInit = true ∧ i < s.geo.n ∧ portCheck i s = none) := by
  cases hp : s.phase.postInit with
  | false => exact .inl ⟨rfl, by simp [portCheck, hb, hp]⟩
  | true =>
    rcases Nat.lt_or_ge i s.geo.n with hi | hi
    · exact .inr (.inr ⟨rfl, hi, by simp [portCheck, hb, hp, hi]⟩)
    · exact .inr (.inl ⟨hi, by simp [portCheck, hb, hp, hi]⟩)

/-- A port access completes from the invariant, or has no meaning in its phase or at its index. -/
theorem RestInv.port_outcome {s : State} (h : RestInv s) {i : Nat} {e : Instr} (he : e = .fbr i ∨ ∃ v, e = .fbw i v) :
    (∃ t, exec e s = .next t)
    ∨ (s.phase.postInit = false ∨ s.geo.n ≤ i)
        ∧ (exec e s = .refused .portNotPostInit ∨ exec e s = .refused .portIndexOutOfRange) := by
  have refusal : ∀ r, portCheck i s = some r → exec e s = .refused r := by
    intro r hr
    rcases he with rfl | ⟨v, rfl⟩
    · simp [exec, execFbr, hr]
    · simp [exec, execFbw, hr]
  rcases portCheck_cases (i := i) h.idle with ⟨hp, hr⟩ | ⟨hi, hr⟩ | ⟨hp, hi, hr⟩
  · exact .inr ⟨.inl hp, .inl (refusal _ hr)⟩
  · exact .inr ⟨.inr hi, .inr (refusal _ hr)⟩
  · obtain ⟨b, hb⟩ := memRead_of_listed (h.listed hp hi)
    rcases he with rfl | ⟨v, rfl⟩
    · exact .inl ⟨{ s with reads := s.reads ++ [(i, b)] }, by simp [exec, execFbr, hr, hb]⟩
    · exact .inl ⟨{ s with fb := memWrite s.fb i v }, by simp [exec, execFbw, hr]⟩

/-- Settles O46, by the host's next step. -/
theorem noFaultFromTheInvariant : Obligations.NoFaultFromTheInvariant := by
  intro s h
  have hb := h.idle
  rcases hin : s.inputs with _ | ⟨_ | _ | _ | _ | _, rest⟩
  case nil => exact .inl ⟨s, step_waiting hb hin⟩
  case cons.issue w =>
    rw [step_issue hb hin]
    rcases decodeHcw_cases s.cfgIn w with hd | hd | hd
    · rw [hd]
      rcases execInit_outcome (cfg := s.cfgIn) (s := { s with inputs := rest }) hb with ht | ⟨hp, ht⟩
      · exact .inl ht
      · exact .inr (.inr ⟨w, rest, rfl, hd, hp, ht⟩)
    · exact .inl ((h.withInputs rest).runtime_completes hd)
    · exact .inl ⟨_, execReserved_idle hd hb⟩
  case cons.draw i v =>
    rw [step_draw hb hin]
    rcases (h.withInputs rest).port_outcome (.inr ⟨v, rfl⟩) with ht | ⟨hi, ht⟩
    · exact .inl ht
    · exact .inr (.inl ⟨i, rest, .inr ⟨v, rfl⟩, hi, ht⟩)
  case cons.look i =>
    rw [step_look hb hin]
    rcases (h.withInputs rest).port_outcome (.inl rfl) with ht | ⟨hi, ht⟩
    · exact .inl ht
    · exact .inr (.inl ⟨i, rest, .inl rfl, hi, ht⟩)
  case cons.present cfg => exact .inl ⟨_, step_present hb hin⟩
  case cons.reset => exact .inl ⟨_, step_reset hb hin⟩

end Sys2Proof.Machine
end

section
/-! An accepted runtime operation (rules R142, R150, R157): it sends its transactions up to the first failure, and what
it writes at its end is written exactly if it ended `Ok`. -/

namespace Sys2Proof.Machine

/-! ### Actions that are a transaction -/

/-- The action sends one transaction. -/
def Action.transmits : Action → Bool
  | .cmd _ => true
  | .data => true
  | .line _ => false
  | .wait _ => false
  | .fill0 => false
  | .phase _ => false

/-- Transactions leave the phase and the framebuffer alone. -/
theorem after_of_transmits {as : List Action} (h : ∀ a ∈ as, a.transmits = true) (n : Nat) (p : Phase)
    (m : List Host.Cell) : phaseAfter as p = p ∧ fbAfter n as m = m := by
  induction as with
  | nil => exact ⟨rfl, rfl⟩
  | cons a as ih =>
    obtain ⟨ha, has⟩ := List.forall_mem_cons.mp h
    cases a with
    | cmd | data => exact ih has
    | line | wait | fill0 | phase => cases ha

/-- An event of a transaction (rules R81 to R84). -/
def OfTransaction (c : Cfg) (e : Event) : Prop := ∃ k bs, e ∈ transaction c k bs

theorem OfTransaction.ne_setRst {c : Cfg} {e : Event} (h : OfTransaction c e) (l : RstLevel) : e ≠ .setRst l := by
  rintro rfl
  obtain ⟨k, bs, h⟩ := h
  rw [transaction] at h
  split at h <;> simp at h

/-- In the Bus variant a transaction is one write. -/
theorem OfTransaction.isWrite {c : Cfg} {e : Event} (h : OfTransaction c e) (hc : c.variant = .bus) :
    ∃ a bs, e = .writeBytes a bs := by
  obtain ⟨k, bs, h⟩ := h
  exact ⟨_, bs, by simpa [transaction, hc] using h⟩

theorem ofTransaction_of_cmdEvents {c : Cfg} {bs : List Byte} : ∀ e ∈ cmdEvents c bs, OfTransaction c e.2 := by
  rw [← transaction_command]
  exact List.forall_mem_map.mpr fun e he => ⟨.command, bs, he⟩

theorem ofTransaction_of_dataEvents {c : Cfg} {vs : List Byte} : ∀ e ∈ dataEvents c vs, OfTransaction c e.2 := by
  rw [← transaction_data]
  exact List.forall_mem_map.mpr fun e he => ⟨.data, vs, he⟩

theorem planOf_transmits {c : Cfg} {n : Nat} {as : List Action} {m : List Host.Cell} {plan : List Planned}
    (has : ∀ a ∈ as, a.transmits = true) (h : planOf c n as m = some plan) : ∀ e ∈ plan, OfTransaction c e.2 := by
  induction as generalizing plan with
  | nil => cases h; simp
  | cons a as ih =>
    obtain ⟨ha, hrest⟩ := List.forall_mem_cons.mp has
    cases a with
    | cmd bs =>
      obtain ⟨q, hq, rfl⟩ := Option.map_eq_some_iff.mp h
      exact List.forall_mem_append.mpr ⟨ofTransaction_of_cmdEvents, ih hrest hq⟩
    | data =>
      rw [planOf] at h
      split at h <;> cases h
      next vs q _ hq => exact List.forall_mem_append.mpr ⟨ofTransaction_of_dataEvents, ih hrest hq⟩
    | line | wait | fill0 | phase => cases ha

/-! ### What a traced run keeps -/

section
variable {plan : List Planned} {s u : State} {x : Option FailInfo} {new : List TraceEntry} (h : Traced plan s x u new)
include h

theorem Traced.trace : u.trace = s.trace ++ new := by rw [h.frame]
theorem Traced.params : u.params = s.params := by rw [h.frame]
theorem Traced.inputs : u.inputs = s.inputs := by rw [h.frame]
theorem Traced.cfgIn : u.cfgIn = s.cfgIn := by rw [h.frame]
theorem Traced.cfg : u.cfg = s.cfg := by rw [h.frame]
theorem Traced.geo : u.geo = s.geo := by rw [h.frame]
theorem Traced.op : u.op = s.op := by rw [h.frame]
theorem Traced.contrast : u.contrast = s.contrast := by rw [h.frame]
theorem Traced.invert : u.invert = s.invert := by rw [h.frame]
theorem Traced.results : u.results = s.results := by rw [h.frame]
theorem Traced.reads : u.reads = s.reads := by rw [h.frame]
theorem Traced.dc : u.dc = new.foldl dcAfter s.dc := by rw [h.frame]
theorem Traced.cs : u.cs = new.foldl csAfter s.cs := by rw [h.frame]
theorem Traced.rst : u.rst = new.foldl rstAfter s.rst := by rw [h.frame]

end

/-! ### The frame and the end of a runtime operation -/

/-- A traced run that failed: its last entry is the failure, and the payload is what is reported (rule R85). -/
theorem Traced.failure {plan : List Planned} {s u : State} {x : FailInfo} {new : List TraceEntry}
    (h : Traced plan s (some x) u new) :
    ∃ before e after y, plan = before ++ e :: after ∧ e.2.mayFail = true ∧ new = before.map okEntry ++ [failEntry y e]
      ∧ Result.err .transport (some x) = .err .transport (some y) := by
  rcases h.ended with ⟨hx, -⟩ | ⟨before, e, after, y, hplan, he, hnew, hx⟩
  · cases hx
  · exact ⟨before, e, after, y, hplan, he, hnew, congrArg _ hx⟩

/-- Transactions keep the frame of a runtime operation. -/
theorem Traced.runtimeFrame {o : Op} {as : List Action} {plan : List Planned} {s u : State} {x : Option FailInfo}
    {new : List TraceEntry} (h : Traced plan (accept o as s) x u new) (hplan : ∀ e ∈ plan, OfTransaction s.cfg e.2)
    (hfb : u.fb = s.fb) : RuntimeFrame s u := by
  have hnew : ∀ e ∈ new, OfTransaction s.cfg e.event := fun e he => hplan _ (h.planned e he)
  have hrst : u.rst = s.rst := h.rst.trans (foldl_rstAfter _ _ fun e he => (hnew e he).ne_setRst)
  refine ⟨h.params, h.inputs, h.cfgIn, h.cfg, h.geo, hfb, hrst, h.reads, fun hc => ⟨?_, ?_⟩⟩
  · refine h.dc.trans (foldl_dcAfter _ _ fun e he q hq => ?_)
    obtain ⟨a, bs, hw⟩ := (hnew e he).isWrite hc
    cases hw.symm.trans hq
  · refine h.cs.trans (foldl_csAfter _ _ fun e he q hq => ?_)
    obtain ⟨a, bs, hw⟩ := (hnew e he).isWrite hc
    cases hw.symm.trans hq

theorem RuntimeFrame.after_finish {s u : State} (h : RuntimeFrame s u) : RuntimeFrame s (finish u) :=
  ⟨by simp [h.params], by simp [h.inputs], by simp [h.cfgIn], by simp [h.cfg], by simp [h.geo], by simp [h.fb],
    by simp [h.rst], by simp [h.reads], by simpa using h.busLines⟩

theorem RuntimeFrame.after_raiseErr {s u : State} (h : RuntimeFrame s u) (k : ErrKind) (x : Option FailInfo) :
    RuntimeFrame s (raiseErr k x u) :=
  ⟨h.params, h.inputs, h.cfgIn, h.cfg, h.geo, h.fb, h.rst, h.reads, h.busLines⟩

/-- What the operation `o`, accepted in `s`, writes at its end is in `t` exactly if it ended `Ok`; otherwise phase and
shadows are as before (rules R151 to R154, R157). -/
structure Commits (o : Op) (s t : State) : Prop where
  phase : t.phase = if t.result = .ok then (commit (some o) s).phase else s.phase
  contrast : t.contrast = if t.result = .ok then (commit (some o) s).contrast else s.contrast
  invert : t.invert = if t.result = .ok then (commit (some o) s).invert else s.invert

theorem commit_phase_of_eq {s u : State} (o : Op) (h : u.phase = s.phase) :
    (commit (some o) u).phase = (commit (some o) s).phase := by
  cases o with
  | powerOff | powerOn => rfl
  | init | contrast | invert | flush => exact h

theorem commit_contrast_of_eq {s u : State} (o : Op) (h : u.contrast = s.contrast) :
    (commit (some o) u).contrast = (commit (some o) s).contrast := by
  cases o with
  | contrast => rfl
  | init | powerOff | powerOn | invert | flush => exact h

theorem commit_invert_of_eq {s u : State} (o : Op) (h : u.invert = s.invert) :
    (commit (some o) u).invert = (commit (some o) s).invert := by
  cases o with
  | invert => rfl
  | init | powerOff | powerOn | contrast | flush => exact h

theorem finish_commits {o : Op} {s u : State} (hop : u.op = some o) (hphase : u.phase = s.phase)
    (hcontrast : u.contrast = s.contrast) (hinvert : u.invert = s.invert) : Commits o s (finish u) :=
  ⟨by simp [hop, commit_phase_of_eq o hphase], by simp [hop, commit_contrast_of_eq o hcontrast],
    by simp [hop, commit_invert_of_eq o hinvert]⟩

theorem raiseErr_commits {o : Op} {s u : State} (k : ErrKind) (x : Option FailInfo) (ho : o ≠ .init)
    (hop : u.op = some o) (hphase : u.phase = s.phase) (hcontrast : u.contrast = s.contrast)
    (hinvert : u.invert = s.invert) : Commits o s (raiseErr k x u) :=
  ⟨by simp [hop, ho, hphase], by simp [hcontrast], by simp [hinvert]⟩

/-- An accepted runtime operation whose list has a plan completes, whatever the environment answers. -/
theorem completes_of_plan {i : Instr} {o : Op} {as : List Action} {plan : List Planned} {s : State} (hr : Ready s)
    (hi : exec i s = runtimeOp o as s) (ho : o ≠ .init) (has : ∀ a ∈ as, a.transmits = true)
    (hp : planOf s.cfg s.geo.n as s.fb = some plan) : Completes i plan s (Commits o s) := by
  have hplan := planOf_transmits has hp
  rcases runtimeOp_spec o as s plan hr hp with
    ⟨new, u, hu, htr, hphase, hfb⟩ | ⟨new, u, x, pre, post, hu, htr, hpre, hphase, hfb⟩
  · obtain ⟨hph, hm⟩ := after_of_transmits has s.geo.n s.phase s.fb
    exact ⟨finish u, new, hi.trans hu, by simp [htr.trace], .inl ⟨htr.complete, rfl⟩, ⟨rfl, rfl, rfl⟩,
      by simp [htr.results], (htr.runtimeFrame hplan (hfb.trans hm)).after_finish,
      finish_commits htr.op (hphase.trans hph) htr.contrast htr.invert⟩
  · obtain ⟨hph, hm⟩ := after_of_transmits (as := pre) (fun a ha => has a (by simp [hpre, ha])) s.geo.n s.phase s.fb
    exact ⟨raiseErr .transport (some x) u, new, hi.trans hu, by simp [htr.trace], .inr htr.failure, ⟨rfl, rfl, rfl⟩,
      by simp [htr.results], (htr.runtimeFrame hplan (hfb.trans hm)).after_raiseErr _ _,
      raiseErr_commits _ _ ho htr.op (hphase.trans hph) htr.contrast htr.invert⟩

theorem Completes.mono {i : Instr} {plan : List Planned} {s : State} {P Q : State → Prop} (h : Completes i plan s P)
    (hPQ : ∀ t, P t → Q t) : Completes i plan s Q := by
  obtain ⟨t, new, hex, htr, hperf, hidle, hres, hframe, hP⟩ := h
  exact ⟨t, new, hex, htr, hperf, hidle, hres, hframe, hPQ t hP⟩

/-- With every event answered `ok` a completed instruction has performed its whole plan and ended `Ok` (rule R88). -/
theorem Completes.allOk {i : Instr} {plan : List Planned} {s : State} {Q : State → Prop} (h : Completes i plan s Q)
    (ho : s.oracle.allOk) :
    ∃ t, exec i s = .next t ∧ t.trace = s.trace ++ plan.map okEntry ∧ t.result = .ok ∧ t.oracle.allOk ∧ Idle t
      ∧ RuntimeFrame s t ∧ Q t := by
  obtain ⟨t, new, hex, htr, hperf, hidle, -, hframe, hQ⟩ := h
  obtain ⟨_, _, new', hout, -⟩ := exec_outward i s t hex
  obtain rfl : new = new' := List.append_cancel_left (htr.symm.trans hout.trace)
  have hok : t.oracle.allOk := by rw [hout.oracle]; exact s.oracle.allOk_drop _ ho
  rcases hperf with ⟨rfl, hres⟩ | ⟨before, e, after, x, -, he, hnew, -⟩
  · exact ⟨t, hex, htr, hres, hok, hidle, hframe, hQ⟩
  · have hmem : Answer.fail x ∈ answersOf new := by
      rw [hnew, answersOf_append]
      exact List.mem_append_right _ (by simp [answersOf, failEntry, he])
    rw [hout.answers] at hmem
    cases s.oracle.allOk_take _ ho _ hmem

/-! ### The operations of one command -/

/-- A runtime operation of one command. -/
theorem completes_command {i : Instr} {o : Op} {bs : List Byte} {s : State} (hr : Ready s)
    (hi : exec i s = runtimeOp o [.cmd bs] s) (ho : o ≠ .init) : Completes i (cmdEvents s.cfg bs) s (Commits o s) :=
  completes_of_plan hr hi ho (by simp [Action.transmits]) (planOf_command ..)

theorem completes_powerOff {s : State} (hr : Ready s) :
    Completes .powerOff (cmdEvents s.cfg [s.params.codes.displayOff]) s (Commits .powerOff s) :=
  completes_command hr rfl (by simp)

theorem completes_powerOn {s : State} (hr : Ready s) :
    Completes .powerOn (cmdEvents s.cfg [s.params.codes.displayOn]) s (Commits .powerOn s) :=
  completes_command hr rfl (by simp)

/-- The low three bits of a level are the level modulo 8 (rules R65, R153). -/
theorem low_three_bits (level : Nat) : level &&& 0x07 = level % 8 := Nat.and_two_pow_sub_one_eq_mod level 3

theorem evrBytes_eq (K : Codes) (level : Nat) :
    evrBytes K level = [K.contrastBase ||| BitVec.ofNat 8 (level % 8)] := by
  rw [evrBytes, packed, lowField, low_three_bits]

theorem invBytes_eq (K : Codes) (flag : Nat) : invBytes K flag = [K.invertBase ||| if flag = 0 then 0 else 1] := by
  simp [invBytes, truthBit]

theorem completes_contrast {s : State} (hr : Ready s) (level : Nat) :
    Completes (.contrast level) (cmdEvents s.cfg [s.params.codes.contrastBase ||| BitVec.ofNat 8 (level % 8)]) s
      (Commits (.contrast (BitVec.ofNat 3 (level % 8))) s) := by
  refine completes_command hr ?_ (by simp)
  rw [← evrBytes_eq, ← low_three_bits]
  rfl

theorem completes_invert {s : State} (hr : Ready s) (flag : Nat) :
    Completes (.invert flag) (cmdEvents s.cfg [s.params.codes.invertBase ||| (if flag = 0 then 0 else 1)]) s
      (Commits (.invert (if flag = 0 then 0 else 1)) s) := by
  refine completes_command hr ?_ (by simp)
  rw [← invBytes_eq]
  simp [exec, execInvert]

theorem completes_flush {s : State} (hr : Ready s) {vs : List Byte} (hvs : readFrom s.fb 0 s.geo.n = some vs) :
    Completes .flush (flushEvents s.params.codes s.cfg vs) s (Commits .flush s) :=
  completes_of_plan hr rfl (by simp) (by simp [flushActions, Action.transmits]) (planOf_flush _ _ _ _ vs hvs)

/-- Settles O23: a level's command, and the shadow that CONTRAST commits. -/
theorem contrastSendsAndShadows : Obligations.ContrastSendsAndShadows := by
  intro level s hr
  refine (completes_contrast hr level).mono fun t h => ?_
  exact ⟨h.phase.trans (ite_self _), h.invert.trans (ite_self _), h.contrast⟩

/-- Settles O24: a flag's command, and the shadow that INVERT commits. -/
theorem invertSendsAndShadows : Obligations.InvertSendsAndShadows := by
  intro flag s hr
  refine (completes_invert hr flag).mono fun t h => ?_
  exact ⟨h.phase.trans (ite_self _), h.contrast.trans (ite_self _), h.invert⟩

/-- Settles O30: POWEROFF ends `Ok` in a state that is ready for POWERON. -/
theorem powerCycleSendsOffThenOn : Obligations.PowerCycleSendsOffThenOn := by
  intro s hr ho
  obtain ⟨t, hoff, htrace, hres, hok, hidle, hframe, hc⟩ := (completes_powerOff hr).allOk ho
  have hphase : t.phase = .poweredOff := by rw [hc.phase, if_pos hres]; rfl
  have hready : Ready t := ⟨hidle.1, by rw [hphase]; rfl⟩
  obtain ⟨u, hon, utrace, ures, -, -, uframe, uc⟩ := (completes_powerOn hready).allOk hok
  have uphase : u.phase = .poweredOn := by rw [uc.phase, if_pos ures]; rfl
  refine ⟨t, u, _, hoff, hon, hphase, uphase, by simp [powerState, hphase], by simp [powerState, uphase],
    uframe.fb.trans hframe.fb, by rw [utrace, htrace, List.append_assoc], ?_⟩
  rw [bytesOf_append, bytesOf_command, bytesOf_command, hframe.params]
  rfl

end Sys2Proof.Machine
end

section
/-! The canonical form of the framebuffer (rules R21, R41) is kept by every step, from every state: the framebuffer is
written by `Fill0`, by the write port, and by an allocation or a reset that lists nothing. -/

namespace Sys2Proof.Machine

theorem wf_fbAfter {n : Nat} (as : List Action) {m : List Host.Cell} (h : Memory.wf m = true) :
    Memory.wf (fbAfter n as m) = true := by
  induction as generalizing m with
  | nil => exact h
  | cons a as ih =>
    cases a with
    | fill0 => exact ih (wf_fillZero n m h)
    | cmd | data | line | wait | phase => exact ih h

/-- One action, whether it is done or aborted, keeps the canonical form. -/
theorem turn_canonical {a : Action} {s t : State} (h : turn a s = .done t ∨ turn a s = .aborted t)
    (hs : Memory.wf s.fb = true) : Memory.wf t.fb = true := by
  rcases turn_spec a s with ⟨_, _, u, -, hu, -, -, hfb, -⟩ | ⟨_, _, u, x, -, hu, -, -, hfb, -⟩ | ⟨-, hu⟩
  · obtain rfl : u = t := by simpa [hu] using h
    rw [hfb]; exact wf_fbAfter [a] hs
  · obtain rfl : raiseErr .transport (some x) u = t := by simpa [hu] using h
    rw [raiseErr_fb, hfb]; exact hs
  · simp [hu] at h

theorem run_canonical {as : List Action} {s t : State} (h : run as s = .next t) (hs : Memory.wf s.fb = true) :
    Memory.wf t.fb = true := by
  induction as generalizing s with
  | nil => cases h; simpa using hs
  | cons a as ih =>
    rw [run] at h
    split at h
    next u hu => exact ih h (turn_canonical (.inl hu) hs)
    next u hu => cases h; exact turn_canonical (.inr hu) hs
    next => cases h

theorem sendCommand_canonical {bs : List Byte} {s t : State} (h : sendCommand bs s = .next t)
    (hs : Memory.wf s.fb = true) : Memory.wf t.fb = true := by
  rw [sendCommand] at h
  split at h <;> cases h
  next hu => exact turn_canonical (.inl hu) hs
  next hu => exact turn_canonical (.inr hu) hs

theorem runtimeOp_canonical {o : Op} {as : List Action} {s t : State} (h : runtimeOp o as s = .next t)
    (hs : Memory.wf s.fb = true) : Memory.wf t.fb = true := by
  rw [runtimeOp] at h
  split_ifs at h
  · exact run_canonical h hs
  · cases h; exact hs

theorem reservedOp_canonical {s t : State} (h : reservedOp s = .next t) (hs : Memory.wf s.fb = true) :
    Memory.wf t.fb = true := by
  rw [reservedOp] at h
  split_ifs at h
  cases h; exact hs

theorem execInit_canonical {cfg : Cfg} {s t : State} (h : execInit cfg s = .next t) (hs : Memory.wf s.fb = true) :
    Memory.wf t.fb = true := by
  rw [execInit] at h
  split_ifs at h
  · cases h; exact hs
  · cases h; exact hs
  · exact run_canonical h rfl

theorem exec_canonical {i : Instr} {s t : State} (h : exec i s = .next t) (hs : Memory.wf s.fb = true) :
    Memory.wf t.fb = true := by
  cases i with
  | init cfg => exact execInit_canonical h hs
  | powerOff | powerOn | contrast | invert | flush => exact runtimeOp_canonical h hs
  | reserved6 | reserved7 => exact reservedOp_canonical h hs
  | fbw j v =>
    rw [exec, execFbw] at h
    split at h <;> cases h
    exact wf_memWrite _ _ _ hs
  | fbr j =>
    rw [exec, execFbr] at h
    split at h
    · cases h
    · split at h <;> cases h
      exact hs
  | _ => exact sendCommand_canonical h hs

theorem carryOut_canonical {f : Fetched} {s t : State} (h : carryOut f s = .next t)
    (hf : Memory.wf (f.source s).fb = true) : Memory.wf t.fb = true := by
  cases f with
  | idle => cases h; exact hf
  | instr i u => exact exec_canonical h hf
  | action a u =>
    rw [carryOut] at h
    split at h <;> cases h
    next hu => exact turn_canonical (.inl hu) hf
    next hu => exact turn_canonical (.inr hu) hf
  | finished => cases h; simpa [Fetched.source] using hf
  | present cfg u => cases h; exact hf
  | reset u => cases h; exact wf_reset
  | undecodable e => cases h

/-- Settles O45: the fetch leaves the framebuffer alone, and what is carried out keeps the canonical form. -/
theorem canonicalFramebufferKept : Obligations.CanonicalFramebufferKept := by
  intro s t hs h
  obtain ⟨ins, as, hsource⟩ := fetch_source s
  exact carryOut_canonical h (by rw [hsource]; exact hs)

end Sys2Proof.Machine
end

section
/-! The rest invariant (rules R14, R21, R25, R131, R150) holds after reset and is kept by every host step, and the phase
moves between host steps along the state machine. -/

namespace Sys2Proof.Machine

/-! ### What keeps the invariant -/

/-- Hardware reset establishes the invariant, whatever it keeps (rules R24, R190). -/
theorem RestInv.of_hardwareReset (s : State) : RestInv (hardwareReset s) where
  idle := rfl
  noOp := rfl
  noAction := rfl
  settled := .inl rfl
  canonical := wf_reset
  admitted h := absurd rfl h
  built h := by cases h
  unsent _ := ⟨rfl, rfl⟩

/-- Settles O43: the reset machine is one that hardware reset leaves. -/
theorem invariantAtReset : Obligations.InvariantAtReset := RestInv.of_hardwareReset State.reset

/-- With no operation in progress the error entry leaves the phase alone (rule R178). -/
theorem RestInv.raiseErr_phase {s : State} (h : RestInv s) (k : ErrKind) (x : Option FailInfo) :
    (raiseErr k x s).phase = s.phase := by
  simp [h.noOp]

theorem RestInv.after_raiseErr {s : State} (h : RestInv s) (k : ErrKind) (x : Option FailInfo) :
    RestInv (raiseErr k x s) where
  idle := rfl
  noOp := rfl
  noAction := rfl
  settled := by rw [h.raiseErr_phase]; exact h.settled
  canonical := h.canonical
  admitted hp := h.admitted (by rwa [h.raiseErr_phase] at hp)
  built hp := h.built (by rwa [h.raiseErr_phase] at hp)
  unsent hp := h.unsent (by rwa [h.raiseErr_phase] at hp)

/-! ### INIT -/

/-- A completed INIT: it was not in `Uninitialized`; or a required line is missing; or it was accepted (rules R130,
R131, R177). -/
theorem execInit_next {cfg : Cfg} {s t : State} (hb : s.busy = false) (h : exec (.init cfg) s = .next t) :
    (s.phase ≠ .uninitialized ∧ t = raiseErr .state none s)
    ∨ (s.phase = .uninitialized ∧ s.params.wf = true ∧ cfg.wf s.params = true
        ∧ t = raiseErr .config none (latchConfig cfg s))
    ∨ InitAccepted cfg s := by
  rw [exec, execInit, hb, if_neg (by simp)] at h
  split_ifs at h with hp hw hc hl
  · cases h; exact .inl ⟨hp, rfl⟩
  · cases h; exact .inr (.inl ⟨not_not.mp hp, by simpa using hw, by simpa using hc, rfl⟩)
  · exact .inr (.inr ⟨hb, not_not.mp hp, by simpa using hw, by simpa using hc, by simpa using hl⟩)

/-- What an INIT issued in `Uninitialized` leaves: a legal configuration latched, and `Failed`, or `PoweredOn` with no
line missing, the derived registers computed and exactly the bytes 0 to `N - 1` (rules R21, R25, R131, R140). -/
structure InitLeaves (cfg : Cfg) (s t : State) : Prop where
  idle : Idle t
  params : t.params = s.params
  latched : t.cfg = cfg
  legal : s.params.wf = true ∧ cfg.wf s.params = true
  phase : t.phase = .failed ∨ t.phase = .poweredOn ∧ cfg.lacksLine = false
    ∧ t.geo = geometry s.params.codes cfg ∧ t.fb.map Prod.fst = List.range t.geo.n

theorem InitAccepted.leaves {cfg : Cfg} {s t : State} (ha : InitAccepted cfg s) (h : exec (.init cfg) s = .next t) :
    InitLeaves cfg s t := by
  rcases execInit_spec cfg s ha with ⟨new, u, hu, htr, hphase, hfb⟩ | ⟨new, u, x, _, hu, htr, -⟩ <;>
    cases hu.symm.trans h
  · have hop : u.op = some .init := htr.op
    refine ⟨⟨rfl, rfl, rfl⟩, by simp [htr.params], by simp [htr.cfg], ⟨ha.params, ha.config⟩,
      .inr ⟨?_, ha.lines, ?_, ?_⟩⟩
    · rw [finish_phase, hop]; exact hphase
    · simp [htr.geo]
    · rw [finish_fb, finish_geo, htr.geo, hfb, fillZero_nil]
      simp [geometry, Function.comp_def]
  · have hop : u.op = some .init := htr.op
    exact ⟨⟨rfl, rfl, rfl⟩, htr.params, htr.cfg, ⟨ha.params, ha.config⟩, .inl (by simp [hop, ErrKind.fatalToInit])⟩

/-- A completed INIT reports `Err(STATE)`, or was issued in `Uninitialized` and leaves what INIT leaves. -/
theorem execInit_leaves {cfg : Cfg} {s t : State} (hb : s.busy = false) (h : exec (.init cfg) s = .next t) :
    t = raiseErr .state none s ∨ s.phase = .uninitialized ∧ InitLeaves cfg s t := by
  rcases execInit_next hb h with ⟨-, ht⟩ | ⟨hp, hw, hc, rfl⟩ | ha
  · exact .inl ht
  · exact .inr ⟨hp, ⟨rfl, rfl, rfl⟩, rfl, rfl, ⟨hw, hc⟩, .inl rfl⟩
  · exact .inr ⟨ha.fresh, ha.leaves h⟩

theorem InitLeaves.restInv {cfg : Cfg} {s t : State} (h : InitLeaves cfg s t) (hfb : Memory.wf t.fb = true) :
    RestInv t := by
  obtain ⟨⟨hbusy, hop, hpending⟩, hparams, rfl, hlegal, hphase⟩ := h
  rw [← hparams] at hlegal hphase
  rcases hphase with hp | ⟨hp, hbuilt⟩
  · exact ⟨hbusy, hop, hpending, .inr (.inr hp), hfb, fun _ => hlegal,
      fun hq => absurd hq (by simp [hp, Phase.postInit]), fun hq => absurd hq (by simp [hp])⟩
  · exact ⟨hbusy, hop, hpending, .inr (.inl (by rw [hp]; rfl)), hfb, fun _ => hlegal, fun _ => hbuilt,
      fun hq => absurd hq (by simp [hp])⟩

/-! ### The runtime operations -/

/-- How the runtime operation `i` may move the phase: not at all, or as the power operations do (rules R151, R152). -/
def PhaseMove (i : Instr) (p q : Phase) : Prop :=
  q = p ∨ (i = .powerOff ∧ q = .poweredOff) ∨ (i = .powerOn ∧ q = .poweredOn)

theorem PhaseMove.postInit {i : Instr} {p q : Phase} (h : PhaseMove i p q) (hp : p.postInit = true) :
    q.postInit = true := by
  rcases h with rfl | ⟨-, rfl⟩ | ⟨-, rfl⟩
  · exact hp
  · rfl
  · rfl

/-- A runtime operation moves the phase only by what it commits. -/
theorem Commits.phaseMove {i : Instr} {o : Op} {s t : State} (h : Commits o s t)
    (ho : PhaseMove i s.phase (commit (some o) s).phase) : PhaseMove i s.phase t.phase := by
  rw [h.phase]
  split
  · exact ho
  · exact .inl rfl

/-- What the runtime operation `i` leaves: `Err(STATE)`; or, from a post-init phase, an ended operation with its frame
kept and the phase moved as `i` moves it (rules R150 to R157). -/
def RuntimeLeaves (i : Instr) (s t : State) : Prop :=
  t = raiseErr .state none s
    ∨ s.phase.postInit = true ∧ Idle t ∧ RuntimeFrame s t ∧ PhaseMove i s.phase t.phase

theorem runtimeOp_leaves {i : Instr} {o : Op} {as : List Action} {s t : State} (hb : s.busy = false)
    (hi : exec i s = runtimeOp o as s) (hmove : PhaseMove i s.phase (commit (some o) s).phase)
    (hc : Ready s → ∃ plan, Completes i plan s (Commits o s)) (h : exec i s = .next t) : RuntimeLeaves i s t := by
  cases hp : s.phase.postInit with
  | false =>
    rw [hi, runtimeOp, hb, hp] at h
    cases h; exact .inl rfl
  | true =>
    obtain ⟨plan, u, new, hu, -, -, hidle, -, hframe, hcommits⟩ := hc ⟨hb, hp⟩
    cases hu.symm.trans h
    exact .inr ⟨hp, hidle, hframe, hcommits.phaseMove hmove⟩

theorem RestInv.runtime_leaves {s t : State} (hs : RestInv s) {i : Instr} (hi : isRuntime i) (h : exec i s = .next t) :
    RuntimeLeaves i s t := by
  rcases hi with rfl | rfl | ⟨level, rfl⟩ | ⟨flag, rfl⟩ | rfl
  · exact runtimeOp_leaves hs.idle rfl (.inr (.inl ⟨rfl, rfl⟩)) (fun hr => ⟨_, completes_powerOff hr⟩) h
  · exact runtimeOp_leaves hs.idle rfl (.inr (.inr ⟨rfl, rfl⟩)) (fun hr => ⟨_, completes_powerOn hr⟩) h
  · exact runtimeOp_leaves hs.idle rfl (.inl rfl) (fun hr => ⟨_, completes_command hr rfl (by simp)⟩) h
  · exact runtimeOp_leaves hs.idle rfl (.inl rfl) (fun hr => ⟨_, completes_command hr rfl (by simp)⟩) h
  · refine runtimeOp_leaves hs.idle rfl (.inl rfl) (fun hr => ?_) h
    obtain ⟨vs, hvs⟩ := hs.readable hr.2
    exact ⟨_, completes_flush hr hvs⟩

theorem RuntimeLeaves.restInv {i : Instr} {s t : State} (h : RuntimeLeaves i s t) (hs : RestInv s) : RestInv t := by
  rcases h with rfl | ⟨hp, ⟨hbusy, hop, hpending⟩, hframe, hmove⟩
  · exact hs.after_raiseErr _ _
  · have hq := hmove.postInit hp
    have hne : ∀ u : State, u.phase.postInit = true → u.phase ≠ .uninitialized := fun u hu he => by
      rw [he] at hu; cases hu
    refine ⟨hbusy, hop, hpending, .inr (.inl hq), ?_, fun _ => ?_, fun _ => ?_, fun he => absurd he (hne t hq)⟩
    · rw [hframe.fb]; exact hs.canonical
    · rw [hframe.params, hframe.cfg]; exact hs.admitted (hne s hp)
    · rw [hframe.params, hframe.cfg, hframe.geo, hframe.fb]; exact hs.built hp

/-! ### The framebuffer port -/

/-- The port lets an access through only in a post-init phase and below `N` (rule R161). -/
theorem portCheck_none {i : Nat} {s : State} (hb : s.busy = false) (h : portCheck i s = none) :
    s.phase.postInit = true ∧ i < s.geo.n := by
  rcases portCheck_cases (i := i) hb with ⟨-, hr⟩ | ⟨-, hr⟩ | ⟨hp, hi, -⟩
  · cases h.symm.trans hr
  · cases h.symm.trans hr
  · exact ⟨hp, hi⟩

/-- A completed port access: one byte written below `N` in a post-init phase, or one recorded as read (rules R159 to
R161). -/
theorem execPort_next {i : Nat} {e : Instr} {s t : State} (hb : s.busy = false) (he : e = .fbr i ∨ ∃ v, e = .fbw i v)
    (h : exec e s = .next t) :
    (∃ v, s.phase.postInit = true ∧ i < s.geo.n ∧ t = { s with fb := memWrite s.fb i v })
    ∨ ∃ v, t = { s with reads := s.reads ++ [(i, v)] } := by
  rcases he with rfl | ⟨v, rfl⟩
  · rw [exec, execFbr] at h
    split at h
    · cases h
    · split at h <;> cases h
      exact .inr ⟨_, rfl⟩
  · rw [exec, execFbw] at h
    split at h <;> cases h
    next hr =>
    obtain ⟨hp, hi⟩ := portCheck_none hb hr
    exact .inl ⟨v, hp, hi, rfl⟩

theorem RestInv.port {s t : State} (h : RestInv s) {i : Nat} {e : Instr} (he : e = .fbr i ∨ ∃ v, e = .fbw i v)
    (ht : exec e s = .next t) : RestInv t ∧ t.phase = s.phase := by
  rcases execPort_next h.idle he ht with ⟨v, hp, hi, rfl⟩ | ⟨v, rfl⟩
  · refine ⟨⟨h.idle, h.noOp, h.noAction, h.settled, wf_memWrite _ _ _ h.canonical, h.admitted, fun _ => ?_,
      h.unsent⟩, rfl⟩
    obtain ⟨hlines, hgeo, hfb⟩ := h.built hp
    exact ⟨hlines, hgeo, (memWrite_indices _ _ _ h.canonical (h.listed hp hi)).trans hfb⟩
  · exact ⟨⟨h.idle, h.noOp, h.noAction, h.settled, h.canonical, h.admitted, h.built, h.unsent⟩, rfl⟩

/-! ### Every host step -/

/-- What a host command word leaves from the invariant: what INIT leaves in `Uninitialized`, what a runtime operation
leaves, or an error with the phase as it was. -/
theorem RestInv.hcw_leaves {s t : State} (hs : RestInv s) {w : Hcw} (h : exec (decodeHcw s.cfgIn w) s = .next t) :
    (decodeHcw s.cfgIn w = .init s.cfgIn ∧ s.phase = .uninitialized ∧ InitLeaves s.cfgIn s t)
    ∨ RuntimeLeaves (decodeHcw s.cfgIn w) s t
    ∨ ∃ k, t = raiseErr k none s := by
  rcases decodeHcw_cases s.cfgIn w with hd | hd | hd
  · rw [hd] at h
    rcases execInit_leaves hs.idle h with ht | ht
    · exact .inr (.inr ⟨_, ht⟩)
    · exact .inl ⟨hd, ht⟩
  · exact .inr (.inl (hs.runtime_leaves hd h))
  · rw [execReserved_idle hd hs.idle] at h
    cases h; exact .inr (.inr ⟨_, rfl⟩)

/-- A step with no operation in progress, by the host's next step (rules R190, R196). -/
theorem step_idle_next {s t : State} (hb : s.busy = false) (h : step s = .next t) :
    t = s
    ∨ (∃ w rest, s.inputs = .issue w :: rest ∧ exec (decodeHcw s.cfgIn w) { s with inputs := rest } = .next t)
    ∨ (∃ i e rest, (e = .fbr i ∨ ∃ v, e = .fbw i v) ∧ exec e { s with inputs := rest } = .next t)
    ∨ (∃ cfg rest, t = { s with inputs := rest, cfgIn := cfg })
    ∨ ∃ rest, s.inputs = .reset :: rest ∧ t = hardwareReset { s with inputs := rest } := by
  rcases hin : s.inputs with _ | ⟨_ | _ | _ | _ | _, rest⟩
  case nil => rw [step_waiting hb hin] at h; cases h; exact .inl rfl
  case cons.issue w => rw [step_issue hb hin] at h; exact .inr (.inl ⟨w, rest, rfl, h⟩)
  case cons.draw i v => rw [step_draw hb hin] at h; exact .inr (.inr (.inl ⟨i, _, rest, .inr ⟨v, rfl⟩, h⟩))
  case cons.look i => rw [step_look hb hin] at h; exact .inr (.inr (.inl ⟨i, _, rest, .inl rfl, h⟩))
  case cons.present cfg =>
    rw [step_present hb hin] at h
    cases h; exact .inr (.inr (.inr (.inl ⟨cfg, rest, rfl⟩)))
  case cons.reset =>
    rw [step_reset hb hin] at h
    cases h; exact .inr (.inr (.inr (.inr ⟨rest, rfl, rfl⟩)))

/-- Settles O50: each of the three steps, as it is. -/
theorem stepBetweenOperations : Obligations.StepBetweenOperations :=
  ⟨fun _ hb hi => step_waiting hb hi, fun _ _ _ hb hi => step_present hb hi,
    fun _ _ hb hi => ⟨_, step_reset hb hi, rfl, rfl, rfl, rfl, rfl, rfl, rfl, rfl, rfl⟩⟩

/-- Settles O44, by the host's next step; the canonical form is kept by every step. -/
theorem invariantKeptByStep : Obligations.InvariantKeptByStep := by
  intro s t hs h
  have hfb := canonicalFramebufferKept s t hs.canonical h
  rcases step_idle_next hs.idle h with
    rfl | ⟨w, rest, -, ht⟩ | ⟨i, e, rest, he, ht⟩ | ⟨cfg, rest, rfl⟩ | ⟨rest, -, rfl⟩
  · exact hs
  · have hr := hs.withInputs rest
    rcases hr.hcw_leaves ht with ⟨-, -, ht⟩ | ht | ⟨k, rfl⟩
    · exact ht.restInv hfb
    · exact ht.restInv hr
    · exact hr.after_raiseErr _ _
  · exact ((hs.withInputs rest).port he ht).1
  · exact ⟨hs.idle, hs.noOp, hs.noAction, hs.settled, hs.canonical, hs.admitted, hs.built, hs.unsent⟩
  · exact RestInv.of_hardwareReset _

/-! ### The moves of the phase -/

/-- The `op` field of the words that move the phase (rule R62). -/
theorem hcwOp_of_decodeHcw {c : Cfg} {w : Hcw} :
    (decodeHcw c w = .init c → hcwOp w = 0) ∧ (decodeHcw c w = .powerOff → hcwOp w = 1)
    ∧ (decodeHcw c w = .powerOn → hcwOp w = 2) := by
  unfold decodeHcw
  split
  next h => simp [BitVec.eq_of_toNat_eq (x := hcwOp w) (y := 0) h]
  next h => simp [BitVec.eq_of_toNat_eq (x := hcwOp w) (y := 1) h]
  next h => simp [BitVec.eq_of_toNat_eq (x := hcwOp w) (y := 2) h]
  all_goals simp

theorem Phase.postInit_cases {p : Phase} (h : p.postInit = true) : p = .poweredOn ∨ p = .poweredOff := by
  cases p <;> simp [Phase.postInit] at h ⊢

/-- Settles O47, by the host's next step. -/
theorem phaseMovesAlongTheStateMachine : Obligations.PhaseMovesAlongTheStateMachine := by
  intro s t hs h
  rcases step_idle_next hs.idle h with
    rfl | ⟨w, rest, hin, ht⟩ | ⟨i, e, rest, he, ht⟩ | ⟨cfg, rest, rfl⟩ | ⟨rest, hin, rfl⟩
  · exact .inl rfl
  · have hr := hs.withInputs rest
    obtain ⟨op0, op1, op2⟩ := hcwOp_of_decodeHcw (c := s.cfgIn) (w := w)
    rcases hr.hcw_leaves ht with ⟨hd, hp, ht⟩ | (rfl | ⟨hp, -, -, hq | ⟨hd, hq⟩ | ⟨hd, hq⟩⟩) | ⟨k, rfl⟩
    · exact .inr (.inl ⟨hp, ht.phase.elim .inr fun hq => .inl hq.1, w, rest, hin, op0 hd⟩)
    · exact .inl (hr.raiseErr_phase _ _)
    · exact .inl hq
    · rcases Phase.postInit_cases hp with hp | hp
      · exact .inr (.inr (.inl ⟨hp, hq, w, rest, hin, op1 hd⟩))
      · exact .inl (hq.trans hp.symm)
    · rcases Phase.postInit_cases hp with hp | hp
      · exact .inl (hq.trans hp.symm)
      · exact .inr (.inr (.inr (.inl ⟨hp, hq, w, rest, hin, op2 hd⟩)))
    · exact .inl (hr.raiseErr_phase _ _)
  · exact .inl ((hs.withInputs rest).port he ht).2
  · exact .inl rfl
  · exact .inr (.inr (.inr (.inr ⟨rfl, rest, hin⟩)))

end Sys2Proof.Machine
end

section
/-! The derived geometry and the pixel layout (rules R11 to R13, R54, R55, R121): the layout table by the parity of the
rotation, and the position of a pixel, which is a place in a row-major array of bytes and a bit of that byte. -/

namespace Sys2Proof.Machine

/-! ### The layout table -/

/-- Even rotations are packed vertically and keep width and height; odd ones are packed horizontally and swap them (rule
R121). -/
theorem orientationRow_layout (K : Codes) (r : Fin 4) :
    (r.val % 2 = 0 → (orientationRow K r).mode = .vpack ∧ (orientationRow K r).swap = false)
    ∧ (r.val % 2 = 1 → (orientationRow K r).mode = .hpack ∧ (orientationRow K r).swap = true) := by
  match r with
  | 0 => exact ⟨fun _ => ⟨rfl, rfl⟩, fun h => absurd h (by decide)⟩
  | 1 => exact ⟨fun h => absurd h (by decide), fun _ => ⟨rfl, rfl⟩⟩
  | 2 => exact ⟨fun _ => ⟨rfl, rfl⟩, fun h => absurd h (by decide)⟩
  | 3 => exact ⟨fun h => absurd h (by decide), fun _ => ⟨rfl, rfl⟩⟩

/-- The masked rotation has the parity of the given one (rules R12, R126). -/
theorem effectiveRotation_parity (r : Nat) : (effectiveRotation r).val % 2 = r % 2 := by
  rw [effectiveRotation_val]
  omega

theorem geometry_even (K : Codes) (c : Cfg) (h : c.rotationIn % 2 = 0) :
    (geometry K c).mode = .vpack ∧ (geometry K c).lwidth = c.width ∧ (geometry K c).lheight = c.height := by
  obtain ⟨hmode, hswap⟩ := (orientationRow_layout K _).1 ((effectiveRotation_parity c.rotationIn).trans h)
  simp [geometry, hmode, hswap]

theorem geometry_odd (K : Codes) (c : Cfg) (h : c.rotationIn % 2 = 1) :
    (geometry K c).mode = .hpack ∧ (geometry K c).lwidth = c.height ∧ (geometry K c).lheight = c.width := by
  obtain ⟨hmode, hswap⟩ := (orientationRow_layout K _).2 ((effectiveRotation_parity c.rotationIn).trans h)
  simp [geometry, hmode, hswap]

/-- Settles O9, by the parity of the rotation. -/
theorem geometryFollowsTheLayoutTable : Obligations.GeometryFollowsTheLayoutTable := fun K c =>
  ⟨rfl, rfl, effectiveRotation_val _, geometry_even K c, geometry_odd K c⟩

/-! ### The position of a pixel -/

theorem verticalBit_lt (o : BitOrderV) (y : Nat) : verticalBit o y < 8 := by
  cases o <;> simp only [verticalBit] <;> omega

theorem horizontalBit_lt (o : BitOrderH) (x : Nat) : horizontalBit o x < 8 := by
  cases o <;> simp only [horizontalBit] <;> omega

theorem verticalBit_inj {o : BitOrderV} {y y' : Nat} (h : verticalBit o y = verticalBit o y') : y % 8 = y' % 8 := by
  cases o <;> simp only [verticalBit] at h <;> omega

theorem horizontalBit_inj {o : BitOrderH} {x x' : Nat} (h : horizontalBit o x = horizontalBit o x') :
    x % 8 = x' % 8 := by
  cases o <;> simp only [horizontalBit] at h <;> omega

theorem pixelPos_vpack {p : Params} {g : Geometry} {x y : Nat} {pos : PixelPos} (h : g.mode = .vpack) :
    pixelPos p g x y = some pos ↔
      (x < g.lwidth ∧ y < g.lheight) ∧ ⟨y / 8 * g.lwidth + x, verticalBit p.bitOrderV y⟩ = pos := by
  simp [pixelPos, h]

theorem pixelPos_hpack {p : Params} {g : Geometry} {x y : Nat} {pos : PixelPos} (h : g.mode = .hpack) :
    pixelPos p g x y = some pos ↔
      (x < g.lwidth ∧ y < g.lheight) ∧ ⟨y * (g.lwidth / 8) + x / 8, horizontalBit p.bitOrderH x⟩ = pos := by
  simp [pixelPos, h]

/-- A place in a row-major array of `n` rows lies inside it. -/
theorem rowMajor_lt {w n row col : Nat} (hrow : row < n) (hcol : col < w) : row * w + col < n * w := by
  calc row * w + col < row * w + w := by omega
    _ = (row + 1) * w := by rw [Nat.add_mul, Nat.one_mul]
    _ ≤ n * w := Nat.mul_le_mul_right w hrow

/-- A place in a row-major array is one of one row and column. -/
theorem rowMajor_inj {w row col row' col' : Nat} (hcol : col < w) (hcol' : col' < w)
    (h : row * w + col = row' * w + col') : row = row' ∧ col = col' := by
  have hw : 0 < w := by omega
  have hdiv : ∀ r c, c < w → (r * w + c) / w = r := fun r c hc => by
    rw [Nat.mul_comm, Nat.mul_add_div hw, Nat.div_eq_of_lt hc, Nat.add_zero]
  have hrow : row = row' := by rw [← hdiv row col hcol, h, hdiv row' col' hcol']
  subst hrow
  exact ⟨rfl, Nat.add_left_cancel h⟩

/-- The height of a legal shape is a whole number of pages (rule R10). -/
theorem Cfg.height_of_shaped {c : Cfg} (h : c.shaped = true) : c.height % 8 = 0 := by
  simp only [Cfg.shaped, Bool.and_eq_true, decide_eq_true_eq] at h
  exact h.2

/-- Settles O10: a pixel is in a page below the last, or in a byte of a line below the last. -/
theorem pixelsLieInsideTheFramebuffer : Obligations.PixelsLieInsideTheFramebuffer := by
  intro p K c x y hc hx hy
  have hh := Cfg.height_of_shaped hc
  rcases Nat.mod_two_eq_zero_or_one c.rotationIn with hr | hr
  · obtain ⟨hmode, hwidth, hheight⟩ := geometry_even K c hr
    refine ⟨_, (pixelPos_vpack hmode).mpr ⟨⟨hx, hy⟩, rfl⟩, ?_, verticalBit_lt _ _⟩
    rw [hwidth] at hx ⊢
    rw [hheight] at hy
    exact rowMajor_lt (by omega) hx
  · obtain ⟨hmode, hwidth, hheight⟩ := geometry_odd K c hr
    refine ⟨_, (pixelPos_hpack hmode).mpr ⟨⟨hx, hy⟩, rfl⟩, ?_, horizontalBit_lt _ _⟩
    rw [hwidth] at hx ⊢
    rw [hheight] at hy
    show _ < c.height / 8 * c.width
    rw [Nat.mul_comm (c.height / 8)]
    exact rowMajor_lt hy (by omega)

/-- Settles O11: the index gives the page and column, or the line and byte; the bit gives the rest of the coordinate. -/
theorem distinctPixelsHaveDistinctBits : Obligations.DistinctPixelsHaveDistinctBits := by
  intro p K c x y x' y' pos hc h h'
  have hh := Cfg.height_of_shaped hc
  rcases Nat.mod_two_eq_zero_or_one c.rotationIn with hr | hr
  · obtain ⟨hmode, -, -⟩ := geometry_even K c hr
    obtain ⟨⟨hx, -⟩, hpos⟩ := (pixelPos_vpack hmode).mp h
    obtain ⟨⟨hx', -⟩, hpos'⟩ := (pixelPos_vpack hmode).mp h'
    obtain ⟨hindex, hbit⟩ := PixelPos.mk.inj (hpos.trans hpos'.symm)
    obtain ⟨hpage, hcol⟩ := rowMajor_inj hx hx' hindex
    have := verticalBit_inj hbit
    exact ⟨hcol, by omega⟩
  · obtain ⟨hmode, hwidth, -⟩ := geometry_odd K c hr
    obtain ⟨⟨hx, -⟩, hpos⟩ := (pixelPos_hpack hmode).mp h
    obtain ⟨⟨hx', -⟩, hpos'⟩ := (pixelPos_hpack hmode).mp h'
    obtain ⟨hindex, hbit⟩ := PixelPos.mk.inj (hpos.trans hpos'.symm)
    rw [hwidth] at hx hx' hindex
    obtain ⟨hline, hbyte⟩ := rowMajor_inj (by omega) (by omega) hindex
    have := horizontalBit_inj hbit
    exact ⟨by omega, hline⟩

end Sys2Proof.Machine
end

section
/-! What an instruction writes of the configuration, derived and line registers (rules R10, R11, R20, R25), from what
every instruction shows the outside. -/

namespace Sys2Proof.Machine

/-- Settles O36: what every instruction shows, and leaves of the configuration and derived registers. -/
theorem configWrittenOnlyByInit : Obligations.ConfigWrittenOnlyByInit := by
  intro i s t h hi
  obtain ⟨_, _, _, -, -, hkept⟩ := exec_outward i s t h
  exact hkept hi

/-- Settles O39: the lines of an instruction are those its trace leaves. -/
theorem lineRegistersFollowTheTrace : Obligations.LineRegistersFollowTheTrace := by
  intro i s t h
  obtain ⟨_, _, new, hout, -⟩ := exec_outward i s t h
  exact ⟨new, hout.trace, hout.dc, hout.cs, hout.rst⟩

end Sys2Proof.Machine
end

section
/-! Where an access of the framebuffer stops: at a byte that holds no value (rule R24), and at the port outside its
phases and its range (rule R161). -/

namespace Sys2Proof.Machine

/-! ### A byte that holds no value -/

/-- A run of indices with one that holds no value is not read. -/
theorem readFrom_eq_none {m : List Host.Cell} {i k j : Nat} (hj : j < k) (h : memRead m (i + j) = none) :
    readFrom m i k = none := by
  cases hr : readFrom m i k with
  | none => rfl
  | some vs =>
    obtain ⟨hlen, hread⟩ := (readFrom_eq_some m i k vs).mp hr
    cases h.symm.trans (hread j (by omega))

theorem turn_data_unwritten {s : State} {i : Nat} (hi : i < s.geo.n) (h : memRead s.fb i = none) :
    turn .data s = .fault .unwrittenFramebuffer := by
  have hfb : framebufferBytes s = none := readFrom_eq_none hi (by rwa [Nat.zero_add])
  simp [turn, perform, hfb]

/-- A command answered `ok` is done, and the executor goes on with the framebuffer as it was. -/
theorem run_command_allOk {bs : List Byte} {as : List Action} {s : State} (ho : s.oracle.allOk) :
    ∃ u, run (.cmd bs :: as) s = run as u ∧ u.oracle.allOk ∧ u.geo = s.geo ∧ u.fb = s.fb := by
  rcases turn_spec (.cmd bs) { s with pending := as } with
    ⟨_, new, u, -, hu, htr, -, hfb, -⟩ | ⟨_, new, u, x, -, -, htr, -⟩ | ⟨h, -⟩
  · refine ⟨u, by rw [run, hu], ?_, htr.geo, hfb⟩
    rw [htr.oracle]
    exact s.oracle.allOk_drop _ ho
  · cases htr.ok_of_allOk ho
  · cases h

/-- Settles O26: the two commands are answered `ok`, and the data action finds no byte. -/
theorem flushOfUnwrittenBytesStops : Obligations.FlushOfUnwrittenBytesStops := by
  refine ⟨fun s i hr ho hi hfree => ?_, fun s i rest hb hp hi hfree => ?_⟩
  · obtain ⟨hb, hpost⟩ := hr
    obtain ⟨u, hu, huo, hug, hufb⟩ := run_command_allOk (bs := pageBytes s.params.codes 0)
      (as := [.cmd (colBytes s.params.codes 0), .data]) (s := accept .flush (flushActions s.params.codes) s) ho
    obtain ⟨v, hv, -, hvg, hvfb⟩ := run_command_allOk (bs := colBytes s.params.codes 0) (as := [.data]) huo
    have hdata : turn .data { v with pending := [] } = .fault .unwrittenFramebuffer :=
      turn_data_unwritten (i := i) (by simpa [hvg, hug] using hi) (by simpa [hvfb, hufb] using hfree)
    calc exec .flush s = run (flushActions s.params.codes) (accept .flush (flushActions s.params.codes) s) := by
          simp [exec, execFlush, runtimeOp, hb, hpost]
      _ = run [.data] v := hu.trans hv
      _ = .fault .unwrittenFramebuffer := by rw [run, hdata]
  · have hdata : turn .data { s with pending := rest } = .fault .unwrittenFramebuffer := turn_data_unwritten hi hfree
    have hfetch : fetch s = .action .data { s with pending := rest } := by
      rw [fetch, if_pos hb, fetchAction, hp]
    rw [step, hfetch, carryOut, hdata]

/-! ### The port -/

/-- A port access that the port check refuses is refused so. -/
theorem execPort_refused {i : Nat} {v : Byte} {s : State} {r : Refusal} (h : portCheck i s = some r) :
    exec (.fbw i v) s = .refused r ∧ exec (.fbr i) s = .refused r := by
  simp [exec, execFbw, execFbr, h]

/-- Settles O35, by the port check. -/
theorem portAccessesWithoutMeaning : Obligations.PortAccessesWithoutMeaning := by
  refine ⟨fun i v s hb hp => execPort_refused ?_, fun i v s hr hi => execPort_refused ?_, fun i s hr hi hfree => ?_⟩
  · simp [portCheck, hb, hp]
  · simp [portCheck, hr.1, hr.2, hi]
  · have hcheck : portCheck i s = none := by simp [portCheck, hr.1, hr.2, hi]
    simp [exec, execFbr, hcheck, hfree]

end Sys2Proof.Machine
end

section
/-! FLUSH of a framebuffer that holds its bytes (rules R42, R155): it completes as any runtime operation does, and with
every event answered `ok` its byte stream is the address (0, 0) and then the framebuffer. -/

namespace Sys2Proof.Machine

/-- A framebuffer that holds exactly `vs` is read as `vs`. -/
theorem HoldsBytes.readFrom {s : State} {vs : List Byte} (h : HoldsBytes s vs) :
    readFrom s.fb 0 s.geo.n = some vs := by
  obtain ⟨hlen, hbyte⟩ := h
  exact (readFrom_eq_some ..).mpr ⟨hlen, by simpa using hbyte⟩

/-- The stream of a flush answered `ok`: page and column 0 as commands, then the bytes as data (rules R46, R155). -/
theorem bytesOf_flush (K : Codes) (c : Cfg) (vs : List Byte) :
    bytesOf ((flushEvents K c vs).map okEntry) =
      [(Tag.command, K.pageBase), (Tag.command, K.colHiBase), (Tag.command, K.colLoBase)]
        ++ vs.map (fun b => (Tag.data, b)) := by
  simp [flushEvents, bytesOf_append, bytesOf_command, bytesOf_data]

/-- Settles O25: FLUSH has a plan when every byte holds a value, and commits nothing. -/
theorem flushSendsTheFramebuffer : Obligations.FlushSendsTheFramebuffer := by
  intro s vs hr hv
  refine (completes_flush hr hv.readFrom).mono fun t h => ?_
  exact ⟨h.phase.trans (ite_self _), h.contrast.trans (ite_self _), h.invert.trans (ite_self _)⟩

/-- Settles O29: the whole plan of FLUSH is performed, and its stream is read off. -/
theorem flushByteStreamIsTheFramebuffer : Obligations.FlushByteStreamIsTheFramebuffer := by
  intro s vs hr hv ho
  obtain ⟨t, hex, htrace, -, -, -, hframe, -⟩ := (completes_flush hr hv.readFrom).allOk ho
  exact ⟨t, _, hex, htrace, hframe.fb, bytesOf_flush ..⟩

end Sys2Proof.Machine
end

section
/-! The framebuffer port where its accesses have a meaning (rules R159, R160): post-init, not busy, below `N`. -/

namespace Sys2Proof.Machine

/-- The port lets every access below `N` through when a runtime operation would be accepted (rules R47, R161). -/
theorem portCheck_of_ready {i : Nat} {s : State} (hr : Ready s) (hi : i < s.geo.n) : portCheck i s = none := by
  obtain ⟨hb, hpost⟩ := hr
  simp [portCheck, hb, hpost, hi]

theorem execFbw_of_ready {i : Nat} {s : State} (hr : Ready s) (hi : i < s.geo.n) (v : Byte) :
    exec (.fbw i v) s = .next { s with fb := memWrite s.fb i v } := by
  simp [exec, execFbw, portCheck_of_ready hr hi]

/-- Settles O33: a read after the write, at the index and at any other. -/
theorem portWriteChangesOneByte : Obligations.PortWriteChangesOneByte := fun i v s hr hi =>
  ⟨{ s with fb := memWrite s.fb i v }, execFbw_of_ready hr hi v, memRead_memWrite_same s.fb i v,
    fun j hj => memRead_memWrite_other s.fb i j v hj, rfl⟩

/-- Settles O34: the port check passes, and the byte read is recorded. -/
theorem portReadReturnsTheByte : Obligations.PortReadReturnsTheByte := by
  intro i v s hr hi hv
  simp [exec, execFbr, portCheck_of_ready hr hi, hv]

end Sys2Proof.Machine
end

section
/-! Steps inside an operation (rules R47, R142): a step performs the next action or ends the operation, the host has no
move, and the steps together are the executor's run. -/

namespace Sys2Proof.Machine

/-! ### One step -/

/-- The action is one a step can perform: if it is a command transaction, its bytes are read back as a wire command (log
entry 8). -/
def Action.Readable (K : Codes) (a : Action) : Prop := ∀ bs, a = .cmd bs → ∃ j, decodeWire K bs = .ok j

/-- A step ends an operation that has no action left. -/
theorem step_finished {s : State} (hb : s.busy = true) (hp : s.pending = []) : step s = .next (finish s) := by
  simp [step, fetch, hb, fetchAction, hp, carryOut]

/-- A step whose next action sends bytes that are no wire command is refused. -/
theorem step_undecodable {s : State} {bs : List Byte} {as : List Action} {e : DecodeError} (hb : s.busy = true)
    (hp : s.pending = .cmd bs :: as) (hd : decodeWire s.params.codes bs = .error e) :
    step s = .refused (.undecodable e) := by
  simp [step, fetch, hb, fetchAction, hp, fetchEncoding, decode, hd, carryOut]

/-- A step performs the next action as one turn of the executor's loop, whether it is a wire command or not. -/
theorem step_action {s : State} {a : Action} {as : List Action} (hb : s.busy = true) (hp : s.pending = a :: as)
    (ha : a.Readable s.params.codes) : step s = carryOut (.action a { s with pending := as }) s := by
  cases a with
  | cmd bs =>
    obtain ⟨j, hj⟩ := ha bs rfl
    calc step s = exec j { s with pending := as } := by
          simp [step, fetch, hb, fetchAction, hp, fetchEncoding, decode, hj, carryOut]
      _ = sendCommand bs { s with pending := as } := exec_of_encode_wire _ (decodeWire_spells hj).bytes
  | data | line | wait | fill0 | phase => simp [step, fetch, hb, fetchAction, hp]

/-- What a step inside an operation can lead to: the operation's end, or its next action done or aborted. -/
theorem step_busy_next {s t : State} (hb : s.busy = true) (h : step s = .next t) :
    t = finish s
    ∨ ∃ a as, turn a { s with pending := as } = .done t ∨ turn a { s with pending := as } = .aborted t := by
  cases hp : s.pending with
  | nil =>
    rw [step_finished hb hp] at h
    cases h; exact .inl rfl
  | cons a as =>
    have ha : a.Readable s.params.codes := by
      rintro bs rfl
      cases hd : decodeWire s.params.codes bs with
      | error e => rw [step_undecodable hb hp hd] at h; cases h
      | ok j => exact ⟨j, rfl⟩
    rw [step_action hb hp ha, carryOut] at h
    split at h <;> cases h
    next hu => exact .inr ⟨a, as, .inl hu⟩
    next hu => exact .inr ⟨a, as, .inr hu⟩

/-! ### The host has no move -/

/-- A turn of the executor takes no host step and leaves the configuration inputs alone. -/
theorem turn_inputs {a : Action} {s t : State} (h : turn a s = .done t ∨ turn a s = .aborted t) :
    t.inputs = s.inputs ∧ t.cfgIn = s.cfgIn := by
  rcases turn_traced a s with ⟨_, _, u, hu, htr, -⟩ | ⟨_, _, u, x, hu, htr, -⟩ | hu
  · obtain rfl : u = t := by simpa [hu] using h
    exact ⟨htr.inputs, htr.cfgIn⟩
  · obtain rfl : raiseErr .transport (some x) u = t := by simpa [hu] using h
    exact ⟨htr.inputs, htr.cfgIn⟩
  · simp [hu] at h

section
variable {s : State} (hb : s.busy = true)
include hb

theorem execInit_busy (cfg : Cfg) : execInit cfg s = .refused .hostMoveWhileBusy := by simp [execInit, hb]

theorem runtimeOp_busy (o : Op) (as : List Action) : runtimeOp o as s = .refused .hostMoveWhileBusy := by
  simp [runtimeOp, hb]

theorem reservedOp_busy : reservedOp s = .refused .hostMoveWhileBusy := by simp [reservedOp, hb]

theorem portCheck_busy (i : Nat) : portCheck i s = some .hostMoveWhileBusy := by simp [portCheck, hb]

/-- Every host instruction asks `busy` first (rule R47). -/
theorem exec_busy {i : Instr} (hi : isWire i = false) : exec i s = .refused .hostMoveWhileBusy := by
  cases i with
  | init cfg => exact execInit_busy hb cfg
  | powerOff | powerOn | contrast | invert | flush => exact runtimeOp_busy hb _ _
  | reserved6 | reserved7 => exact reservedOp_busy hb
  | fbw j v => exact (execPort_refused (v := v) (portCheck_busy hb j)).1
  | fbr j => exact (execPort_refused (v := 0) (portCheck_busy hb j)).2
  | _ => cases hi

end

/-- Settles O53: every host instruction asks `busy` first, and a step inside an operation takes its next action. -/
theorem hostHasNoMoveWhileBusy : Obligations.HostHasNoMoveWhileBusy := by
  refine fun s hb => ⟨fun i hi => exec_busy hb hi, fun t h => ?_⟩
  rcases step_busy_next hb h with rfl | ⟨a, as, hu⟩
  · exact ⟨finish_inputs s, finish_cfgIn s⟩
  · exact turn_inputs (s := { s with pending := as }) hu

/-! ### The steps of an operation -/

/-- One step, as a run. -/
theorem core_run_one (M : Host.Core) (s : M.State) : M.run 1 s = M.step s := by
  rw [Host.Core.run]
  cases M.step s <;> rfl

/-- A run goes on from where its first step leads. -/
theorem core_run_succ {M : Host.Core} {s t : M.State} (k : Nat) (h : M.step s = .next t) :
    M.run (k + 1) s = M.run k t := by
  rw [Host.Core.run, h]

/-- The end of an operation does not ask which actions were left. -/
theorem finish_setPending (s : State) (as : List Action) : finish { s with pending := as } = finish s := by
  unfold finish commit
  rcases s.op with _ | o
  · rfl
  · cases o <;> rfl

/-- An action done leaves the operation in progress, with the parameters and the actions after it as they were. -/
theorem turn_done_keeps {a : Action} {s t : State} (h : turn a s = .done t) :
    t.busy = s.busy ∧ t.params = s.params ∧ t.pending = s.pending := by
  rcases turn_spec a s with ⟨_, _, u, -, hu, htr, -, -, hp, -⟩ | ⟨_, _, u, x, -, hu, -⟩ | ⟨-, hu⟩ <;>
    cases hu.symm.trans h
  exact ⟨by rw [htr.frame], htr.params, hp⟩

/-- The executor's run over actions that steps can perform is a run of steps. -/
theorem run_is_steps {as : List Action} {s : State} (hb : s.busy = true)
    (has : ∀ a ∈ as, a.Readable s.params.codes) :
    ∃ k, Host.Core.run core k { s with pending := as } = run as s := by
  induction as generalizing s with
  | nil =>
    have hend : step { s with pending := [] } = .next (finish s) := by
      rw [← finish_setPending s []]
      exact step_finished hb rfl
    exact ⟨1, (core_run_one core _).trans hend⟩
  | cons a as ih =>
    obtain ⟨ha, hrest⟩ := List.forall_mem_cons.mp has
    have hstep : step { s with pending := a :: as } = carryOut (.action a { s with pending := as }) s :=
      step_action hb rfl ha
    rw [run]
    rw [carryOut] at hstep
    cases hu : turn a { s with pending := as } with
    | done t =>
      obtain ⟨hbusy, hparams, rfl⟩ := turn_done_keeps hu
      obtain ⟨k, hk⟩ := ih (s := t) (hbusy.trans hb) (by rw [hparams]; exact hrest)
      rw [hu] at hstep
      exact ⟨k + 1, (core_run_succ (M := core) k hstep).trans hk⟩
    | aborted t | fault r =>
      rw [hu] at hstep
      exact ⟨1, (core_run_one core _).trans hstep⟩

/-! ### The action lists -/

/-- Under `WF_CODES` the bytes of a wire command are read back as one. -/
theorem readable_of_wire {K : Codes} {bs : List Byte} (hK : K.wf = true) (i : Instr) (hi : isWire i = true)
    (h : encode K i = .wire bs) : (Action.cmd bs).Readable K := by
  rintro _ ⟨⟩
  obtain ⟨bs', hbs', hj⟩ := wire_decodes hK hi
  cases h.symm.trans hbs'
  exact hj

section
variable {K : Codes} (hK : K.wf = true)
include hK

theorem readable_flushActions : ∀ a ∈ flushActions K, a.Readable K := by
  simp only [flushActions, List.forall_mem_cons, List.not_mem_nil, false_imp_iff, implies_true, and_true]
  exact ⟨readable_of_wire hK (.page 0) rfl rfl, readable_of_wire hK (.col 0) rfl rfl, by rintro _ ⟨⟩⟩

theorem readable_baseActions : ∀ a ∈ baseActions K, a.Readable K := by
  simp only [baseActions, List.forall_mem_cons, List.not_mem_nil, false_imp_iff, implies_true, and_true]
  exact ⟨readable_of_wire hK .dispOff rfl rfl, readable_of_wire hK .tempComp rfl rfl,
    readable_of_wire hK .powerCtrl rfl rfl, readable_of_wire hK .bias rfl rfl, readable_of_wire hK .ev2 rfl rfl,
    readable_of_wire hK (.scroll 0) rfl rfl, readable_of_wire hK .analogA rfl rfl,
    readable_of_wire hK .analogB rfl rfl, readable_of_wire hK .lineCfg rfl rfl, readable_of_wire hK .comEnd rfl rfl⟩

theorem readable_orientationActions (rot : Fin 4) : ∀ a ∈ orientationActions K rot, a.Readable K := by
  simp only [orientationActions, List.forall_mem_cons, List.not_mem_nil, false_imp_iff, implies_true, and_true]
  exact ⟨readable_of_wire hK (.scan rot) rfl rfl, readable_of_wire hK (.inc rot) rfl rfl⟩

theorem readable_resetActions {p : Params} (hp : p.codes = K) (hasRst : Bool) :
    ∀ a ∈ resetActions p hasRst, a.Readable K := by
  subst hp
  rw [resetActions]
  split
  · simp [Action.Readable]
  · simp only [List.forall_mem_cons, List.not_mem_nil, false_imp_iff, implies_true, and_true]
    exact ⟨readable_of_wire hK .softReset rfl rfl, by rintro _ ⟨⟩⟩

end

/-- Every action of INIT's list is one that a step can perform (rule R144). -/
theorem readable_initActions {p : Params} (hK : p.codes.wf = true) (hasRst : Bool) (rot : Fin 4) :
    ∀ a ∈ initActions p hasRst rot, a.Readable p.codes := by
  have phase : ∀ q, (Action.phase q).Readable p.codes := by rintro _ _ ⟨⟩
  have fill0 : Action.fill0.Readable p.codes := by rintro _ ⟨⟩
  simp only [initActions, List.forall_mem_append, List.forall_mem_cons, List.not_mem_nil, false_imp_iff, implies_true,
    and_true, and_assoc]
  exact ⟨phase _, readable_resetActions hK rfl hasRst, phase _, readable_baseActions hK,
    readable_orientationActions hK rot, fill0, readable_flushActions hK, phase _, readable_of_wire hK .dispOn rfl rfl,
    phase _⟩

/-- The actions of every operation the host can have accepted are ones that steps can perform. -/
theorem readable_instrActions {p : Params} {i : Instr} (hK : p.codes.wf = true)
    (hi : isRuntime i ∨ ∃ cfg, i = .init cfg) : ∀ a ∈ instrActions p i, a.Readable p.codes := by
  have command : ∀ j, isWire j = true → ∀ bs, encode p.codes j = .wire bs →
      ∀ a ∈ [Action.cmd bs], a.Readable p.codes := fun j hj bs h =>
    List.forall_mem_singleton.mpr (readable_of_wire hK j hj h)
  rcases hi with (rfl | rfl | ⟨level, rfl⟩ | ⟨flag, rfl⟩ | rfl) | ⟨cfg, rfl⟩
  · exact command .dispOff rfl _ rfl
  · exact command .dispOn rfl _ rfl
  · exact command (.evr level) rfl _ rfl
  · exact command (.inv flag) rfl _ rfl
  · exact readable_flushActions hK
  · exact readable_initActions hK _ _

/-! ### Accepted operations -/

/-- `u` is where the operation `i`, accepted in `s`, has its action list before it: the executor's run from `u` is the
operation, and `started` is `u` with the list pending. -/
structure Opens (i : Instr) (s u : State) : Prop where
  busy : u.busy = true
  params : u.params = s.params
  run : exec i s = run (instrActions s.params i) u
  started : started i s = { u with pending := instrActions s.params i }

/-- A runtime operation opens where it is accepted. -/
theorem opens_of_accept {i : Instr} {o : Op} {s : State} (hr : Ready s)
    (hi : exec i s = runtimeOp o (instrActions s.params i) s)
    (hs : started i s = accept o (instrActions s.params i) s) :
    Opens i s (accept o (instrActions s.params i) s) where
  busy := rfl
  params := rfl
  run := by rw [hi, runtimeOp, if_neg (by simp [hr.1]), if_pos hr.2]
  started := hs

/-- A level's low three bits are all that its shadow holds (rule R153). -/
theorem level_shadow (level : Nat) : BitVec.ofNat 3 (level &&& 0x07) = BitVec.ofNat 3 level := by
  rw [low_three_bits]
  exact BitVec.eq_of_toNat_eq (by simp)

theorem opens_of_runtime {i : Instr} {s : State} (hi : isRuntime i) (hr : Ready s) : ∃ u, Opens i s u := by
  rcases hi with rfl | rfl | ⟨level, rfl⟩ | ⟨flag, rfl⟩ | rfl
  · exact ⟨_, opens_of_accept hr rfl rfl⟩
  · exact ⟨_, opens_of_accept hr rfl rfl⟩
  · refine ⟨_, opens_of_accept hr rfl ?_⟩
    rw [instrActions, evrBytes_eq, level_shadow]
    rfl
  · refine ⟨_, opens_of_accept hr rfl ?_⟩
    rw [instrActions, invBytes_eq, ite_not]
    rfl
  · refine ⟨_, opens_of_accept hr rfl ?_⟩
    rw [instrActions, flushActions, pageBytes_zero, colBytes_zero]
    rfl

/-- An accepted INIT opens with its configuration latched and its framebuffer allocated. -/
theorem opens_of_init {cfg : Cfg} {s : State} (h : InitAccepted cfg s) :
    Opens (.init cfg) s (allocate (latchConfig cfg s)) where
  busy := rfl
  params := rfl
  run := execInit_accepted cfg s h
  started := rfl

/-- Settles O54: the operation is the executor's run over its action list, which is a run of steps. -/
theorem operationIsItsSteps : Obligations.OperationIsItsSteps := by
  intro i s hw hi
  have hK : s.params.codes.wf = true := by
    rw [Params.wf, Bool.and_eq_true, Bool.and_eq_true] at hw
    exact hw.1.1
  obtain ⟨u, hu⟩ : ∃ u, Opens i s u := by
    rcases hi with ⟨hi, hr⟩ | ⟨cfg, rfl, ha⟩
    · exact opens_of_runtime hi hr
    · exact ⟨_, opens_of_init ha⟩
  have hread := readable_instrActions hK (hi.imp (·.1) fun ⟨cfg, hcfg, _⟩ => ⟨cfg, hcfg⟩)
  rw [hu.started, hu.run]
  exact run_is_steps hu.busy (by rw [hu.params]; exact hread)

end Sys2Proof.Machine
end

section
/-! The host command words (rules R61, R62): the two fields of a word, what the word of a host instruction decodes to,
whatever its operand, and that this means the same as the instruction. -/

namespace Sys2Proof.Machine

/-! ### The two fields -/

theorem hcwOp_of_fields {op arg : Nat} (hop : op < 8) (harg : arg < 256) :
    (hcwOp (BitVec.ofNat 11 (op * 256 + arg))).toNat = op := by
  rw [hcwOp, BitVec.extractLsb'_toNat, BitVec.toNat_ofNat, Nat.shiftRight_eq_div_pow]
  omega

theorem hcwArg_of_fields {arg : Nat} (op : Nat) (harg : arg < 256) :
    (hcwArg (BitVec.ofNat 11 (op * 256 + arg))).toNat = arg := by
  rw [hcwArg, BitVec.extractLsb'_toNat, BitVec.toNat_ofNat, Nat.shiftRight_zero]
  omega

/-- Settles O2: the fields are read back, and the opcode map is read off at each of its rows. -/
theorem hostWordFieldsSelectTheOperation : Obligations.HostWordFieldsSelectTheOperation := by
  intro c op arg hop harg
  rw [decodeHcw, hcwOp_of_fields hop harg, hcwArg_of_fields op harg]
  match op, hop with
  | 0, _ | 1, _ | 2, _ | 3, _ | 4, _ | 5, _ | 6, _ | 7, _ => rfl

/-- The low eight bits of an argument are the argument modulo 256 (rule R61). -/
theorem low_eight_bits (arg : Nat) : arg &&& 0xFF = arg % 256 := Nat.and_two_pow_sub_one_eq_mod arg 8

/-- The word of two fields holds `op` and the low eight bits of `arg` (rule R61). -/
theorem hcwWord_eq {op : Nat} (hop : op < 8) (arg : Nat) :
    hcwWord op arg = BitVec.ofNat 11 (op * 256 + arg % 256) := by
  have hop' : op &&& 0x07 = op := (Nat.and_two_pow_sub_one_eq_mod op 3).trans (Nat.mod_eq_of_lt hop)
  rw [hcwWord, hop', low_eight_bits, ← Nat.shiftLeft_add_eq_or_of_lt (Nat.mod_lt arg (by decide)), Nat.shiftLeft_eq]

/-! ### What the word of an instruction decodes to -/

/-- The instruction that DSEQ reads in the encoding of `i`: of a level the low eight bits, of a flag those of the
`arg` that presents it (rules R61, R62). -/
def presented : Instr → Instr
  | .contrast level => .contrast (level % 256)
  | .invert flag => .invert (invertArg flag % 256)
  | i => i

/-- The opcode map on the word of two fields (rule R62). -/
theorem decodeHcw_hcwWord (c : Cfg) {op : Nat} (hop : op < 8) (arg : Nat) :
    decodeHcw c (hcwWord op arg) =
      if op = 0 then .init c
      else if op = 1 then .powerOff
      else if op = 2 then .powerOn
      else if op = 3 then .contrast (arg % 256)
      else if op = 4 then .invert (arg % 256)
      else if op = 5 then .flush
      else if op = 6 then .reserved6
      else .reserved7 := by
  rw [hcwWord_eq hop]
  exact hostWordFieldsSelectTheOperation c op _ hop (Nat.mod_lt _ (by decide))

/-- Decoding the encoding of a host instruction gives the instruction it presents. -/
theorem decode_encode_host (K : Codes) {c : Cfg} {i : Instr} (hi : isWire i = false)
    (hc : ∀ cfg, i = .init cfg → c = cfg) : decode K c (encode K i) = .ok (presented i) := by
  have word : ∀ {op arg : Nat} {j : Instr}, decodeHcw c (hcwWord op arg) = j →
      decode K c (.hcw (hcwWord op arg)) = .ok j := congrArg _
  cases i with
  | init cfg => obtain rfl := hc cfg rfl; exact word (decodeHcw_hcwWord c (by decide) 0)
  | powerOff | powerOn | flush | reserved6 | reserved7 => exact word (decodeHcw_hcwWord c (by decide) 0)
  | contrast level => exact word (decodeHcw_hcwWord c (by decide) level)
  | invert flag => exact word (decodeHcw_hcwWord c (by decide) (invertArg flag))
  | fbw | fbr => rfl
  | _ => cases hi

/-- An operand that its encoding holds whole is presented as it is. -/
theorem presented_of_wellFormed {i : Instr} (h : wellFormed i = true) : presented i = i := by
  cases i with
  | contrast level => exact congrArg Instr.contrast (Nat.mod_eq_of_lt (of_decide_eq_true h))
  | invert flag =>
    have hflag : flag < 256 := of_decide_eq_true h
    have harg : invertArg flag = flag := if_neg (by rw [low_eight_bits, Nat.mod_eq_of_lt hflag]; simp)
    rw [presented, harg, Nat.mod_eq_of_lt hflag]
  | _ => rfl

/-- Settles O4: an operand that its encoding holds whole is presented as it is. -/
theorem hostInstructionsRoundTrip : Obligations.HostInstructionsRoundTrip := by
  intro K c i hwhole hi hc
  rw [decode_encode_host K hi hc, presented_of_wellFormed hwhole]

/-! ### What the presented instruction means -/

/-- The `arg` that presents a flag is 0 exactly if the flag is (rule R62). -/
theorem invertArg_mod_eq_zero {flag : Nat} : invertArg flag % 256 = 0 ↔ flag = 0 := by
  rw [invertArg, low_eight_bits]
  split <;> omega

/-- CONTRAST takes its level modulo 8 only (rule R153). -/
theorem execContrast_congr {l l' : Nat} (h : l % 8 = l' % 8) (s : State) :
    exec (.contrast l) s = exec (.contrast l') s := by
  rw [exec, exec, execContrast, execContrast, evrBytes_eq, evrBytes_eq, low_three_bits, low_three_bits, h]

/-- INVERT takes its flag as a truth value (rule R154). -/
theorem execInvert_congr {f f' : Nat} (h : f = 0 ↔ f' = 0) (s : State) :
    exec (.invert f) s = exec (.invert f') s := by
  simp only [exec, execInvert, invBytes_eq, ne_eq, h]

/-- An instruction means the same as it is presented. -/
theorem exec_presented (i : Instr) (s : State) : exec (presented i) s = exec i s := by
  cases i with
  | contrast level => exact execContrast_congr (Nat.mod_mod_of_dvd level (by decide)) s
  | invert flag => exact execInvert_congr invertArg_mod_eq_zero s
  | _ => rfl

/-- Settles O58: a host instruction is presented as one of the same meaning, and INVERT's flag with its truth value. -/
theorem hostWordsKeepTheMeaning : Obligations.HostWordsKeepTheMeaning := by
  intro K c i hi hc
  refine ⟨presented i, decode_encode_host K hi hc, ?_, exec_presented i⟩
  rintro flag hflag rfl hzero
  exact hflag (invertArg_mod_eq_zero.mp (Instr.invert.inj hzero))

end Sys2Proof.Machine
end

section
/-! What a word of the opcode table and a wire command's bytes are read back as (rules R64, R65, R70): the bytes' own
command always; under the reference codes the same command, but where two commands have the same bytes. -/

namespace Sys2Proof.Machine

/-- Settles O1: each word is evaluated. -/
theorem tableWordsDecode : Obligations.TableWordsDecode := by
  unfold Obligations.TableWordsDecode
  decide

/-- Settles O6: what is decoded spells the bytes. -/
theorem wireDecodeIsSound : Obligations.WireDecodeIsSound := by
  intro K bs i h
  obtain ⟨hwire, hwhole, hbytes⟩ := decodeWire_spells h
  exact ⟨hwire, hwhole, hbytes⟩

/-! ### COL, for every `Codes` -/

/-- The low nibble of a packed byte is the operand's, where its base is clear (rules R65, R118). -/
theorem nibble_of_packed {base : Byte} (p : Nat) (h : base &&& 0x0F = 0) :
    ((base ||| lowField 0x0F p) &&& 0x0F).toNat = p % 16 := by
  have hfield : lowField 0x0F p = BitVec.ofNat 8 (p % 16) := lowField_eq_mod 4 p
  have hclear := congrArg BitVec.toNat h
  rw [BitVec.toNat_and] at hclear
  rw [hfield, BitVec.toNat_and, BitVec.toNat_or, Nat.and_or_distrib_right, hclear]
  simp [Nat.and_two_pow_sub_one_eq_mod _ 4]

/-- A column is read back from its two nibbles if the two-byte commands of format W3 show another base (rule R64). -/
theorem decodeWire_colBytes {K : Codes} {c : Nat} (hK : K.wf = true) (hc : c < 256)
    (hev : K.evCmd &&& 0xF0 ≠ K.colHiBase) (hcom : K.comEndCmd &&& 0xF0 ≠ K.colHiBase) :
    decodeWire K (colBytes K c) = .ok (.col c) := by
  obtain ⟨-, -, -, -, -, hhi, hlo⟩ := (Codes.wf_iff K).mp hK
  have bhi : (K.colHiBase ||| lowField 0x0F (c >>> 4)) &&& 0xF0 = K.colHiBase := packed_base _ hhi
  have blo : (K.colLoBase ||| lowField 0x0F c) &&& 0xF0 = K.colLoBase := packed_base _ hlo
  have hcol : c / 2 ^ 4 % 16 * 16 + c % 16 = c := by omega
  rw [colBytes, nibblePair, decodeWire, decodePair, if_neg, if_neg, if_pos ⟨bhi, blo⟩, nibble_of_packed _ hhi,
    nibble_of_packed _ hlo, Nat.shiftRight_eq_div_pow, hcol]
  · rintro ⟨h, -⟩; exact hcom (h ▸ bhi)
  · rintro ⟨h, -⟩; exact hev (h ▸ bhi)

/-! ### The packed and the orientation commands, under the reference codes -/

theorem reference_scroll : ∀ line : Fin 64,
    decodeWire Codes.reference (scrollBytes Codes.reference line) = .ok (.scroll line) := by decide

theorem reference_page : ∀ p : Fin 16,
    decodeWire Codes.reference (pageBytes Codes.reference p) = .ok (.page p) := by decide

theorem reference_evr : ∀ r : Fin 8, r ≠ 4 →
    decodeWire Codes.reference (evrBytes Codes.reference r) = .ok (.evr r) := by decide

theorem reference_inv : ∀ f : Fin 2,
    decodeWire Codes.reference (invBytes Codes.reference f) = .ok (.inv f) := by decide

theorem reference_scan : ∀ rot : Fin 4,
    decodeWire Codes.reference (scanBytes Codes.reference rot) = .ok (.scan rot) := by decide

theorem reference_inc : ∀ rot : Fin 4, rot ≠ 2 → rot ≠ 3 →
    decodeWire Codes.reference (incBytes Codes.reference rot) = .ok (.inc rot) := by decide

/-- Settles O7, by the command. -/
theorem referenceWireRoundTrip : Obligations.ReferenceWireRoundTrip := by
  intro c i hwhole hi hevr hinc2 hinc3
  cases i with
  | dispOff | dispOn | softReset | tempComp | powerCtrl | bias | analogA | analogB | lineCfg | ev2 | comEnd => rfl
  | scan rot => exact reference_scan rot
  | inc rot =>
    exact reference_inc rot (fun h => hinc2 (congrArg Instr.inc h)) fun h => hinc3 (congrArg Instr.inc h)
  | scroll line => exact reference_scroll ⟨line, of_decide_eq_true hwhole⟩
  | page p => exact reference_page ⟨p, of_decide_eq_true hwhole⟩
  | evr r =>
    exact reference_evr ⟨r, of_decide_eq_true hwhole⟩ fun h => hevr (congrArg Instr.evr (congrArg Fin.val h))
  | inv f => exact reference_inv ⟨f, of_decide_eq_true hwhole⟩
  | col c => exact decodeWire_colBytes (by decide) (of_decide_eq_true hwhole) (by decide) (by decide)
  | _ => cases hi

end Sys2Proof.Machine
end

section
/-! The host's words run by a step (rules R61, R63, R72, R142, R196): a reserved word reports `Err(ILLEGAL_OP)`, a
placed encoding is what the next step runs, and `construct` is reset and INIT. -/

namespace Sys2Proof.Machine

/-! ### The reserved words -/

/-- With no operation in progress an error that is not fatal to INIT is only reported (rules R175, R178). -/
theorem raiseErr_eq_reporting {s : State} {k : ErrKind} (hs : Idle s) (hk : k.fatalToInit = false)
    (x : Option FailInfo) : raiseErr k x s = reporting (.err k x) s := by
  obtain ⟨hbusy, hop, hpending⟩ := hs
  cases s
  simp_all [raiseErr, report, reporting]

theorem execReserved_reporting {i : Instr} {s : State} (hi : i = .reserved6 ∨ i = .reserved7) (hs : Idle s) :
    exec i s = .next (reporting (.err .illegalOp none) s) := by
  rw [execReserved_idle hi hs.1, raiseErr_eq_reporting hs rfl]

/-- Settles O3: the fields select a reserved opcode, which is only reported, or an operation without argument. -/
theorem reservedWordsReportIllegalOp : Obligations.ReservedWordsReportIllegalOp := by
  refine ⟨fun s op arg hs hop harg => ?_, fun s hs => ?_, fun c arg harg => ?_⟩
  · refine execReserved_reporting ?_ hs
    rcases hop with rfl | rfl
    · exact .inl (hostWordFieldsSelectTheOperation s.cfgIn 6 arg (by decide) harg)
    · exact .inr (hostWordFieldsSelectTheOperation s.cfgIn 7 arg (by decide) harg)
  · exact ⟨execReserved_reporting (.inl rfl) hs, execReserved_reporting (.inr rfl) hs⟩
  · have init := hostWordFieldsSelectTheOperation c 0 arg (by decide) harg
    rw [Nat.zero_mul, Nat.zero_add] at init
    exact ⟨init, hostWordFieldsSelectTheOperation c 1 arg (by decide) harg,
      hostWordFieldsSelectTheOperation c 2 arg (by decide) harg,
      hostWordFieldsSelectTheOperation c 5 arg (by decide) harg⟩

/-! ### What a step runs -/

/-- A step whose next action sends bytes that decode runs the wire command they spell (log entry 8). -/
theorem step_wire {s : State} {bs : List Byte} {rest : List Action} {i : Instr} (hb : s.busy = true)
    (hp : s.pending = .cmd bs :: rest) (hd : decodeWire s.params.codes bs = .ok i) :
    step s = exec i { s with pending := rest } := by
  simp [step, fetch, hb, fetchAction, hp, fetchEncoding, decode, hd, carryOut]

/-- Settles O49: the three host steps that run an instruction, and the action that sends a wire command. -/
theorem stepRunsTheDecodedInstruction : Obligations.StepRunsTheDecodedInstruction :=
  ⟨fun _ _ _ hb hi => step_issue hb hi, fun _ _ _ _ hb hi => step_draw hb hi, fun _ _ _ hb hi => step_look hb hi,
    fun _ _ _ _ hb hp hd => step_wire hb hp hd⟩

/-- A host command word is no wire command (rule R60). -/
theorem isWire_decodeHcw (c : Cfg) (w : Hcw) : isWire (decodeHcw c w) = false := by
  unfold decodeHcw
  split <;> rfl

/-- An encoding that decodes, placed next, is what the step runs: between operations, or as a wire command inside one
(log entry 7). -/
theorem step_placeNext {s : State} {e : Encoding} {i : Instr} (h : decode s.params.codes s.cfgIn e = .ok i) :
    step (placeNext s e) = exec i { s with busy := isWire i } := by
  cases e with
  | hcw w =>
    cases h
    rw [isWire_decodeHcw]
    exact step_issue rfl rfl
  | wire bs =>
    rw [(decodeWire_spells h).wire]
    exact step_wire rfl rfl h
  | portWrite j v => cases h; exact step_draw rfl rfl
  | portRead j => cases h; exact step_look rfl rfl

/-- A table word that decodes stands for an encoding that does. -/
theorem decodeTableWord_eq_some {nbits w : Nat} {i : Instr} (h : decodeTableWord nbits w = some i) :
    ∃ e, tableEncoding nbits w = .ok e ∧ decode Codes.reference Cfg.least e = .ok i := by
  unfold decodeTableWord at h
  split at h
  · cases h
  next e he =>
    split at h <;> cases h
    exact ⟨e, he, ‹_›⟩

/-- Settles O52: the word's encoding is placed next. -/
theorem placedWordRunsNext : Obligations.PlacedWordRunsNext := by
  intro s nbits w i hcodes hcfg h
  obtain ⟨e, he, hd⟩ := decodeTableWord_eq_some h
  rw [State.withFetchWord, placeTableWord, he]
  exact step_placeNext (by rw [hcodes, hcfg]; exact hd)

/-- A run goes on from where its first step leads. -/
theorem run_step {s t : State} (k : Nat) (h : step s = .next t) :
    Host.Core.run core (k + 1) s = Host.Core.run core k t := core_run_succ (M := core) k h

/-- The last step of a run, when the host has issued the word of `i`. -/
theorem run_issue {s : State} {w : Hcw} {rest : List HostStep} {i : Instr} (hb : s.busy = false)
    (hi : s.inputs = .issue w :: rest) (hd : decodeHcw s.cfgIn w = i) :
    Host.Core.run core 1 s = exec i { s with inputs := rest } := by
  subst hd
  exact (core_run_one core s).trans (step_issue hb hi)

/-! ### construct -/

/-- Settles O55: three steps, each by the host step that stands next. -/
theorem constructIsResetThenInit : Obligations.ConstructIsResetThenInit := by
  intro s cfg rest hb hin
  have hreset := step_reset hb hin
  have hpresent := step_present
    (s := hardwareReset { s with inputs := .present cfg :: .issue (hcwWord 0 0) :: rest }) rfl rfl
  have hinit := run_issue (s := { hardwareReset s with inputs := .issue (hcwWord 0 0) :: rest, cfgIn := cfg }) rfl rfl
    (decodeHcw_hcwWord cfg (by decide) 0)
  exact (run_step 2 hreset).trans ((run_step 1 hpresent).trans hinit)

end Sys2Proof.Machine
end

section
/-! The commands that the action lists hold (rules R69, R87, R144, R155), and that a host instruction writes no other as
a command. -/

namespace Sys2Proof.Machine

/-! ### The action lists -/

/-- If the action sends a command, it is one of the action lists' commands (rule R69). -/
def Action.Listed (K : Codes) (a : Action) : Prop := ∀ bs, a = .cmd bs → bs ∈ listedCommands K

theorem listed_cmd {K : Codes} {bs : List Byte} : (Action.cmd bs).Listed K ↔ bs ∈ listedCommands K := by
  simp [Action.Listed]

/-- The commands of the configuration step are listed, for every rotation (rules R135, R136). -/
theorem listed_configCommand {K : Codes} {bs : List Byte} (rot : Fin 4) (h : bs ∈ configCommands K rot.val) :
    (Action.cmd bs).Listed K := by
  have hmem : bs ∈ (List.range 4).flatMap (configCommands K) :=
    List.mem_flatMap.mpr ⟨rot.val, List.mem_range.mpr rot.isLt, h⟩
  exact listed_cmd.mpr (by simp [listedCommands, hmem])

theorem listed_contrast (K : Codes) (level : Nat) : (Action.cmd (evrBytes K level)).Listed K := by
  have hmem : evrBytes K level ∈ (List.range 8).map fun k => [K.contrastBase ||| BitVec.ofNat 8 k] :=
    List.mem_map.mpr ⟨level % 8, List.mem_range.mpr (Nat.mod_lt _ (by decide)), (evrBytes_eq K level).symm⟩
  exact listed_cmd.mpr (by simp [listedCommands, hmem])

theorem listed_invert (K : Codes) (flag : Nat) : (Action.cmd (invBytes K flag)).Listed K := by
  rw [listed_cmd, invBytes_eq]
  split <;> simp [listedCommands, List.range_succ]

theorem listed_flushActions (K : Codes) : ∀ a ∈ flushActions K, a.Listed K := by
  simp [flushActions, pageBytes_zero, colBytes_zero, listedCommands, Action.Listed]

theorem listed_resetActions (p : Params) (hasRst : Bool) : ∀ a ∈ resetActions p hasRst, a.Listed p.codes := by
  cases hasRst <;> simp [resetActions, softResetBytes, listedCommands, Action.Listed]

theorem listed_baseActions (K : Codes) : ∀ a ∈ baseActions K, a.Listed K := by
  have config : ∀ bs ∈ configCommands K 0, (Action.cmd bs).Listed K := fun _ h => listed_configCommand 0 h
  simp only [configCommands, List.forall_mem_cons] at config
  simp only [baseActions, scrollBytes_zero, List.forall_mem_cons, List.not_mem_nil, false_imp_iff,
    implies_true, and_true]
  tauto

theorem listed_orientationActions (K : Codes) (rot : Fin 4) : ∀ a ∈ orientationActions K rot, a.Listed K := by
  obtain ⟨hscan, hinc⟩ := orientation_bytes K rot
  rw [orientationActions, hscan, hinc]
  simp only [List.forall_mem_cons, List.not_mem_nil, false_imp_iff, implies_true, and_true]
  exact ⟨listed_configCommand rot (by simp [configCommands]), listed_configCommand rot (by simp [configCommands])⟩

theorem listed_power (K : Codes) :
    (Action.cmd (dispOffBytes K)).Listed K ∧ (Action.cmd (dispOnBytes K)).Listed K := by
  simp [listed_cmd, listedCommands, dispOffBytes, dispOnBytes]

/-- The commands of INIT's list (rule R144). -/
theorem listed_initActions (p : Params) (hasRst : Bool) (rot : Fin 4) :
    ∀ a ∈ initActions p hasRst rot, a.Listed p.codes := by
  have phase : ∀ q, (Action.phase q).Listed p.codes := by rintro _ _ ⟨⟩
  have fill0 : Action.fill0.Listed p.codes := by rintro _ ⟨⟩
  simp only [initActions, List.forall_mem_append, List.forall_mem_cons, List.not_mem_nil, false_imp_iff, implies_true,
    and_true, and_assoc]
  exact ⟨phase _, listed_resetActions p hasRst, phase _, listed_baseActions p.codes,
    listed_orientationActions p.codes rot, fill0, listed_flushActions p.codes, phase _, (listed_power p.codes).2,
    phase _⟩

/-- The commands of every host instruction. -/
theorem listed_instrActions {p : Params} {i : Instr} (hi : isWire i = false) :
    ∀ a ∈ instrActions p i, a.Listed p.codes := by
  cases i with
  | init cfg => exact listed_initActions p _ _
  | powerOff => exact List.forall_mem_singleton.mpr (listed_power p.codes).1
  | powerOn => exact List.forall_mem_singleton.mpr (listed_power p.codes).2
  | contrast level => exact List.forall_mem_singleton.mpr (listed_contrast p.codes level)
  | invert flag => exact List.forall_mem_singleton.mpr (listed_invert p.codes flag)
  | flush => exact listed_flushActions p.codes
  | reserved6 | reserved7 | fbw | fbr => exact List.forall_mem_nil _
  | _ => cases hi

/-! ### The entries of an instruction -/

/-- Every entry an instruction performs was planned. -/
theorem Outward.planned {plan : List Planned} {s t : State} {x : Option FailInfo} {new : List TraceEntry}
    (h : Outward plan s x t new) : ∀ e ∈ new, (e.tag, e.event) ∈ plan := by
  have traced : Traced plan s x { s with
      oracle := t.oracle, trace := s.trace ++ new, dc := new.foldl dcAfter s.dc, cs := new.foldl csAfter s.cs
      rst := new.foldl rstAfter s.rst } new := ⟨rfl, h.ended, h.answers, h.oracle, h.delays⟩
  exact traced.planned

theorem write_of_cmdEvents {c : Cfg} {bs bs' : List Byte} {a : Option Nat} {k : Option Tag}
    (h : (k, Event.writeBytes a bs) ∈ cmdEvents c bs') : bs = bs' := by
  rw [cmdEvents] at h
  split at h <;> simp_all

/-- Every event of a data transaction is tagged so. -/
theorem tag_of_dataEvents {c : Cfg} {vs : List Byte} {e : Planned} (h : e ∈ dataEvents c vs) : e.1 = some .data := by
  rw [← transaction_data] at h
  obtain ⟨_, -, rfl⟩ := List.mem_map.mp h
  rfl

/-- A command write of a piece is a command of its actions. -/
theorem Piece.command_write {c : Cfg} {as : List Action} {p : List Planned} {a : Option Nat} {bs : List Byte}
    (h : Piece c as p) (he : (some Tag.command, Event.writeBytes a bs) ∈ p) : Action.cmd bs ∈ as := by
  rcases h with ⟨bs', hmem, rfl⟩ | ⟨vs, rfl⟩ | ⟨l, rfl⟩ | ⟨d, rfl⟩
  · rw [write_of_cmdEvents he]; exact hmem
  · cases tag_of_dataEvents he
  · simp at he
  · simp at he

/-- Settles O42: a command write is planned in a piece, and so is a command of the instruction's action list. -/
theorem onlyListedCommandsAreSent : Obligations.OnlyListedCommandsAreSent := by
  rintro i s t new hi h htrace ⟨_, _, ans⟩ he a bs rfl rfl
  obtain ⟨ps, x, new', hout, hpieces, -⟩ := exec_outward i s t h
  obtain rfl : new = new' := List.append_cancel_left (htrace.symm.trans hout.trace)
  obtain ⟨p, hp, hwrite⟩ := List.mem_flatten.mp (hout.planned _ he)
  exact listed_instrActions hi _ ((hpieces p hp).command_write hwrite) bs rfl

end Sys2Proof.Machine
end

section
/-! `clear()` (rule R72): the host writes every byte with 0, one step each, and flushes. -/

namespace Sys2Proof.Machine

/-- The framebuffer `m` after the host has written 0 at the indices `is`, in order. -/
def zeroed (m : List Host.Cell) (is : List Nat) : List Host.Cell := is.foldl (fun m i => memWrite m i 0) m

theorem memRead_zeroed (m : List Host.Cell) (is : List Nat) (j : Nat) :
    memRead (zeroed m is) j = if j ∈ is then some 0 else memRead m j := by
  induction is generalizing m with
  | nil => simp [zeroed]
  | cons i is ih =>
    show memRead (zeroed (memWrite m i 0) is) j = _
    rw [ih, memRead_memWrite]
    by_cases hj : j ∈ is <;> simp [hj]

/-- `s` after the host has written 0 at the indices `is`, with the host steps `rest` still to come. -/
def afterDraws (is : List Nat) (rest : List HostStep) (s : State) : State :=
  { s with inputs := rest, fb := zeroed s.fb is }

/-- A host step that writes below `N` in a ready state (rule R159). -/
theorem step_draw_of_ready {s : State} {i : Nat} {v : Byte} {rest : List HostStep} (hr : Ready s) (hi : i < s.geo.n)
    (hin : s.inputs = .draw i v :: rest) :
    step s = .next { s with inputs := rest, fb := memWrite s.fb i v } := by
  have hready : Ready { s with inputs := rest } := hr
  exact (step_draw hr.1 hin).trans (execFbw_of_ready hready hi v)

/-- The host's writes of 0 below `N`, run in steps from a ready state. -/
theorem run_draws {is : List Nat} {s : State} {rest : List HostStep} (k : Nat) (hr : Ready s)
    (his : ∀ i ∈ is, i < s.geo.n) (hin : s.inputs = is.map (HostStep.draw · 0) ++ rest) :
    Host.Core.run core (is.length + k) s = Host.Core.run core k (afterDraws is rest s) := by
  induction is generalizing s with
  | nil =>
    obtain rfl : s.inputs = rest := hin
    rw [List.length_nil, Nat.zero_add]
    rfl
  | cons i is ih =>
    obtain ⟨hi, hrest⟩ := List.forall_mem_cons.mp his
    have hdraw : step s = .next (afterDraws [i] _ s) := step_draw_of_ready hr hi hin
    rw [List.length_cons, Nat.add_right_comm]
    exact (run_step _ hdraw).trans (ih hr hrest rfl)

/-- After a write of 0 at every index below `N` the framebuffer holds zeros. -/
theorem holdsBytes_afterDraws (s : State) (rest : List HostStep) :
    HoldsBytes (afterDraws (List.range s.geo.n) rest s) (List.replicate s.geo.n 0) := by
  refine ⟨List.length_replicate, fun i hi => ?_⟩
  rw [afterDraws, memRead_zeroed, if_pos (by simpa using hi), List.getElem_replicate]

/-- Settles O56: the writes leave zeros, and the FLUSH that follows sends them. -/
theorem clearZeroesAndFlushes : Obligations.ClearZeroesAndFlushes := by
  intro s rest hr ho hin
  have hready : Ready (afterDraws (List.range s.geo.n) rest s) := hr
  have hzero := holdsBytes_afterDraws s rest
  obtain ⟨t, hex, htrace, hres, -, -, hframe, -⟩ := (completes_flush hready hzero.readFrom).allOk ho
  have hdraws := run_draws 1 hr (fun _ => List.mem_range.mp) (hin.trans (List.append_assoc ..))
  rw [List.length_range] at hdraws
  have hflush := run_issue (s := afterDraws (List.range s.geo.n) (.issue (hcwWord 5 0) :: rest) s) hr.1 rfl
    (decodeHcw_hcwWord s.cfgIn (by decide) 0)
  refine ⟨t, _, hdraws.trans (hflush.trans hex), hframe.inputs, hres, ?_, htrace, rfl⟩
  rw [HoldsBytes, hframe.geo, hframe.fb]
  exact hzero

end Sys2Proof.Machine
end

section
/-! A wire command of its own (rules R81, R83, R85, R87, R157): it is its one command transaction, up to the first
failure; with every event answered `ok` its next state is named. -/

namespace Sys2Proof.Machine

/-! ### A command transaction answered `ok` -/

theorem foldl_dcAfter_command (c : Cfg) (bs : List Byte) (l : DcLevel) :
    ((cmdEvents c bs).map okEntry).foldl dcAfter l = if c.variant = .serial then .command else l := by
  rw [cmdEvents]
  cases c.variant <;> rfl

theorem foldl_csAfter_command (c : Cfg) (bs : List Byte) (l : CsLevel) :
    ((cmdEvents c bs).map okEntry).foldl csAfter l = if c.variant = .serial then .deasserted else l := by
  rw [cmdEvents]
  cases c.variant <;> rfl

theorem foldl_rstAfter_command (c : Cfg) (bs : List Byte) (l : RstLevel) :
    ((cmdEvents c bs).map okEntry).foldl rstAfter l = l := by
  rw [cmdEvents]
  cases c.variant <;> rfl

/-- Every event of a command transaction takes an answer (rule R88). -/
theorem answersOf_command (c : Cfg) (bs : List Byte) :
    (answersOf ((cmdEvents c bs).map okEntry)).length = (cmdEvents c bs).length := by
  rw [cmdEvents]
  cases c.variant <;> rfl

/-- A command transaction completed, and counted as one action, leaves the state that rules R81, R83 and R142 name. -/
theorem Traced.eq_afterCommand {bs : List Byte} {s u : State} {new : List TraceEntry}
    (h : Traced (cmdEvents s.cfg bs) s none u new) (hphase : u.phase = s.phase) (hfb : u.fb = s.fb)
    (hpending : u.pending = s.pending) (hupc : u.upc = s.upc + 1) : u = afterCommand bs s := by
  rw [h.frame, hphase, hfb, hpending, hupc, h.oracle, h.complete, foldl_dcAfter_command, foldl_csAfter_command,
    foldl_rstAfter_command, answersOf_command]
  rfl

/-! ### What a wire command can do -/

/-- A command sent on its own is completed and counted, or the error entry follows the event that failed (rules R81,
R83, R85, R140). -/
theorem sendCommand_spec (bs : List Byte) (s : State) :
    (sendCommand bs s = .next (afterCommand bs s)
      ∧ Traced (cmdEvents s.cfg bs) s none (afterCommand bs s) ((cmdEvents s.cfg bs).map okEntry))
    ∨ (∃ new u x, sendCommand bs s = .next (raiseErr .transport (some x) u)
      ∧ Traced (cmdEvents s.cfg bs) s (some x) u new ∧ u.phase = s.phase ∧ u.fb = s.fb ∧ u.upc = s.upc) := by
  rcases turn_spec (.cmd bs) s with
    ⟨_, new, u, hplan, hu, htr, hphase, hfb, hpending, hupc⟩ | ⟨_, new, u, x, hplan, hu, htr, hphase, hfb, -, hupc⟩ |
    ⟨hplan, -⟩ <;> cases hplan
  · obtain rfl := htr.complete
    obtain rfl := htr.eq_afterCommand hphase hfb hpending hupc
    exact .inl ⟨by rw [sendCommand, hu], htr⟩
  · exact .inr ⟨new, u, x, by rw [sendCommand, hu], htr, hphase, hfb, hupc⟩

/-- With every event answered `ok` a command is completed (rule R88). -/
theorem sendCommand_allOk {s : State} (bs : List Byte) (ho : s.oracle.allOk) :
    sendCommand bs s = .next (afterCommand bs s) := by
  rcases sendCommand_spec bs s with ⟨h, -⟩ | ⟨_, _, _, -, htr, -⟩
  · exact h
  · cases htr.ok_of_allOk ho

/-- The same of an instruction that is encoded as bytes. -/
theorem exec_wire_allOk {i : Instr} {bs : List Byte} {s : State} (h : encode s.params.codes i = .wire bs)
    (ho : s.oracle.allOk) : exec i s = .next (afterCommand bs s) := by
  rw [exec_of_encode_wire s h, sendCommand_allOk bs ho]

/-- A command transaction keeps the frame of a runtime operation, whether one is in progress or not: the frame does not
look at `busy` or at the operation. -/
theorem Traced.commandFrame {bs : List Byte} {s u : State} {x : Option FailInfo} {new : List TraceEntry}
    (h : Traced (cmdEvents s.cfg bs) s x u new) (hfb : u.fb = s.fb) : RuntimeFrame s u := by
  have inFlush : Traced (cmdEvents s.cfg bs) (accept .flush [] s) x { u with busy := true, op := some .flush } new :=
    ⟨by rw [h.frame]; rfl, h.ended, h.answers, h.oracle, h.delays⟩
  obtain ⟨hparams, hinputs, hcfgIn, hcfg, hgeo, hfb', hrst, hreads, hlines⟩ :=
    inFlush.runtimeFrame ofTransaction_of_cmdEvents hfb
  exact ⟨hparams, hinputs, hcfgIn, hcfg, hgeo, hfb', hrst, hreads, hlines⟩

/-- Settles O15: the bytes are sent as one command, which is completed or ends in the error entry. -/
theorem wireCommandOutcomes : Obligations.WireCommandOutcomes := by
  intro i bs s _ hbs
  rw [exec_of_encode_wire s hbs]
  rcases sendCommand_spec bs s with ⟨hs, htr⟩ | ⟨new, u, x, hu, htr, hphase, hfb, hupc⟩
  · exact ⟨afterCommand bs s, _, hs, rfl, htr.commandFrame rfl, rfl, rfl,
      .inl ⟨rfl, rfl, rfl, rfl, rfl, rfl, rfl, rfl⟩⟩
  · obtain ⟨before, e, after, y, hplan, -, hnew, hy⟩ := htr.failure
    refine ⟨raiseErr .transport (some x) u, new, hu, htr.trace, (htr.commandFrame hfb).after_raiseErr _ _,
      htr.contrast, htr.invert, .inr ⟨before, e, after, y, hplan, hnew, hupc, ?_, ⟨rfl, rfl, rfl⟩, hy, ?_⟩⟩
    · simp [htr.op, hphase, ErrKind.fatalToInit]
    · rw [raiseErr_results, htr.results, hy]

/-! ### The bytes of the wire commands, as rules R100 to R117 write them -/

/-- A packed byte is the base OR the operand modulo its field's size (rules R64, R65). -/
theorem packed_eq_mod (base : Byte) (k p : Nat) :
    packed base (2 ^ k - 1) p = [base ||| BitVec.ofNat 8 (p % 2 ^ k)] := by
  rw [packed, lowField_eq_mod]

theorem scrollBytes_eq (K : Codes) (line : Nat) :
    scrollBytes K line = [K.scrollBase ||| BitVec.ofNat 8 (line % 64)] := packed_eq_mod _ 6 line

theorem pageBytes_eq (K : Codes) (p : Nat) : pageBytes K p = [K.pageBase ||| BitVec.ofNat 8 (p % 16)] :=
  packed_eq_mod _ 4 p

/-- A column's high nibble goes first (rule R104). -/
theorem colBytes_eq (K : Codes) (c : Nat) :
    colBytes K c = [K.colHiBase ||| BitVec.ofNat 8 (c / 16 % 16), K.colLoBase ||| BitVec.ofNat 8 (c % 16)] := by
  have nibble : ∀ p, lowField 0x0F p = BitVec.ofNat 8 (p % 16) := lowField_eq_mod 4
  rw [colBytes, nibblePair, nibble, nibble, Nat.shiftRight_eq_div_pow]

theorem encode_of_fixedCommand {K : Codes} {i : Instr} {b : Byte} (h : fixedCommand K i = some b) :
    encode K i = .wire [b] := by
  cases i with
  | scan rot => cases h; exact congrArg Encoding.wire (orientation_bytes K rot).1
  | inc rot => cases h; exact congrArg Encoding.wire (orientation_bytes K rot).2
  | dispOff | dispOn | softReset | tempComp | powerCtrl | bias | analogA | analogB | lineCfg => cases h; rfl
  | _ => cases h

theorem encode_of_packedCommand {K : Codes} {i : Instr} {base : Byte} {field : Nat}
    (h : packedCommand K i = some (base, field)) : encode K i = .wire [base ||| BitVec.ofNat 8 field] := by
  cases i with
  | scroll line => cases h; exact congrArg Encoding.wire (scrollBytes_eq K line)
  | page p => cases h; exact congrArg Encoding.wire (pageBytes_eq K p)
  | evr r => cases h; exact congrArg Encoding.wire (evrBytes_eq K r)
  | inv f =>
    cases h
    rw [encode, invBytes_eq, apply_ite (BitVec.ofNat 8)]
    rfl
  | _ => cases h

theorem encode_of_pairCommand {K : Codes} {i : Instr} {base0 base1 : Byte} {field0 field1 : Nat}
    (h : pairCommand K i = some ((base0, field0), (base1, field1))) :
    encode K i = .wire [base0 ||| BitVec.ofNat 8 field0, base1 ||| BitVec.ofNat 8 field1] := by
  cases i with
  | ev2 | comEnd => cases h; simp [encode, ev2Bytes, comEndBytes]
  | col c => cases h; exact congrArg Encoding.wire (colBytes_eq K c)
  | _ => cases h

/-- Settles O12: a command of format W1 is encoded as its one byte. -/
theorem fixedCommandsSendTheirByte : Obligations.FixedCommandsSendTheirByte :=
  fun _ _ _ h ho => exec_wire_allOk (encode_of_fixedCommand h) ho

/-- Settles O13: a command of format W2 is encoded as base code OR field. -/
theorem packedCommandsSendBaseAndField : Obligations.PackedCommandsSendBaseAndField :=
  fun _ _ _ _ h ho => exec_wire_allOk (encode_of_packedCommand h) ho

/-- Settles O14: a command of format W3 or W4 is encoded as its two bytes. -/
theorem pairCommandsSendTwoBytes : Obligations.PairCommandsSendTwoBytes :=
  fun _ _ _ _ _ _ h ho => exec_wire_allOk (encode_of_pairCommand h) ho

end Sys2Proof.Machine
end

section
/-! The end of a runtime operation (rules R142, R151, R152, R201): the phase that the power operations leave, and with
every event answered `ok` the result and the lines; and whose answers the events of an instruction take (rule R88). -/

namespace Sys2Proof.Machine

/-- Settles O21: the off code's command, and the phase that POWEROFF commits. -/
theorem powerOffSendsAndSwitches : Obligations.PowerOffSendsAndSwitches := by
  intro s hr
  refine (completes_powerOff hr).mono fun t h => ?_
  exact ⟨h.phase, h.contrast.trans (ite_self _), h.invert.trans (ite_self _)⟩

/-- Settles O22: the on code's command, and the phase that POWERON commits. -/
theorem powerOnSendsAndSwitches : Obligations.PowerOnSendsAndSwitches := by
  intro s hr
  refine (completes_powerOn hr).mono fun t h => ?_
  exact ⟨h.phase, h.contrast.trans (ite_self _), h.invert.trans (ite_self _)⟩

/-- Every runtime operation of a ready state whose framebuffer holds its bytes completes (rules R151 to R155). -/
theorem completes_runtime {i : Instr} {s : State} {vs : List Byte} (hi : isRuntime i) (hr : Ready s)
    (hv : HoldsBytes s vs) : ∃ o, Completes i (runtimeEvents s.params.codes s.cfg vs i) s (Commits o s) := by
  rcases hi with rfl | rfl | ⟨level, rfl⟩ | ⟨flag, rfl⟩ | rfl
  · exact ⟨_, completes_powerOff hr⟩
  · exact ⟨_, completes_powerOn hr⟩
  · exact ⟨_, completes_contrast hr level⟩
  · exact ⟨_, completes_invert hr flag⟩
  · exact ⟨_, completes_flush hr hv.readFrom⟩

/-- With every event answered `ok` a completed instruction leaves the lines that its whole plan sets (rules R20, R88). -/
theorem Completes.lines_allOk {i : Instr} {plan : List Planned} {s : State} {Q : State → Prop}
    (h : Completes i plan s Q) (ho : s.oracle.allOk) :
    ∃ t, exec i s = .next t ∧ t.result = .ok ∧ t.oracle.allOk ∧ t.cs = (plan.map okEntry).foldl csAfter s.cs
      ∧ t.dc = (plan.map okEntry).foldl dcAfter s.dc := by
  obtain ⟨t, hex, htrace, hres, hok, -⟩ := h.allOk ho
  obtain ⟨new, hnew, hdc, hcs, -⟩ := lineRegistersFollowTheTrace i s t hex
  obtain rfl : plan.map okEntry = new := List.append_cancel_left (htrace.symm.trans hnew)
  exact ⟨t, hex, hres, hok, hcs, hdc⟩

/-- In Serial a command transaction leaves Command and Deasserted (rule R81). -/
theorem lines_of_command {c : Cfg} (hc : c.variant = .serial) (bs : List Byte) (cs : CsLevel) (dc : DcLevel) :
    ((cmdEvents c bs).map okEntry).foldl csAfter cs = .deasserted
      ∧ ((cmdEvents c bs).map okEntry).foldl dcAfter dc = .command := by
  rw [foldl_csAfter_command, foldl_dcAfter_command, if_pos hc, if_pos hc]
  exact ⟨rfl, rfl⟩

/-- In Serial a plan that ends with a data transaction leaves Data and Deasserted (rule R82). -/
theorem lines_of_data {c : Cfg} (hc : c.variant = .serial) (before : List Planned) (vs : List Byte) (cs : CsLevel)
    (dc : DcLevel) :
    ((before ++ dataEvents c vs).map okEntry).foldl csAfter cs = .deasserted
      ∧ ((before ++ dataEvents c vs).map okEntry).foldl dcAfter dc = .data := by
  rw [List.map_append, List.foldl_append, List.foldl_append, dataEvents, hc]
  exact ⟨rfl, rfl⟩

/-- In Serial a runtime operation leaves chip-select deasserted, and the data/command line as its last transaction sets
it: FLUSH's is the data, every other has one command (rules R81, R82). -/
theorem lines_of_runtimeEvents {i : Instr} {c : Cfg} (hi : isRuntime i) (hc : c.variant = .serial) (K : Codes)
    (vs : List Byte) (cs : CsLevel) (dc : DcLevel) :
    ((runtimeEvents K c vs i).map okEntry).foldl csAfter cs = .deasserted
      ∧ ((runtimeEvents K c vs i).map okEntry).foldl dcAfter dc = if i = .flush then .data else .command := by
  rcases hi with rfl | rfl | ⟨level, rfl⟩ | ⟨flag, rfl⟩ | rfl
  · exact lines_of_command hc ..
  · exact lines_of_command hc ..
  · exact lines_of_command hc ..
  · exact lines_of_command hc ..
  · exact lines_of_data hc ..

/-- Settles O27: a runtime operation performs its whole plan, and the lines are those its last transaction leaves. -/
theorem runtimeOperationsEndOkWhenAnswered : Obligations.RuntimeOperationsEndOkWhenAnswered := by
  intro i s vs hi hr hv ho
  obtain ⟨o, hcompletes⟩ := completes_runtime hi hr hv
  obtain ⟨t, hex, hres, hok, hcs, hdc⟩ := hcompletes.lines_allOk ho
  refine ⟨t, hex, hres, hok, fun hc => ?_⟩
  rw [hcs, hdc]
  exact lines_of_runtimeEvents hi hc ..

/-- Settles O38: the answers that every instruction takes are part of what it shows the outside. -/
theorem answersAreTheEnvironments : Obligations.AnswersAreTheEnvironments := by
  intro i s t h
  obtain ⟨_, _, new, hout, -⟩ := exec_outward i s t h
  exact ⟨new, hout.trace, hout.answers, hout.oracle, hout.delays⟩

end Sys2Proof.Machine
end

section
/-! The operand of a packed command (rules R65, R106, R118): its bits above the field are dropped, the byte's field is
the masked operand, and outside the field the byte shows the base. -/

namespace Sys2Proof.Machine

/-- A mask that covers the field's, put on the operand first, drops nothing of the field (rule R118). -/
theorem lowField_and {mask wide : Nat} (p : Nat) (h : wide &&& mask = mask) :
    lowField mask (p &&& wide) = lowField mask p := by
  rw [lowField, Nat.and_assoc, h, lowField]

/-- Under the mask a byte shows what is put there, where the base is clear (rule R118). -/
theorem field_of_packed {base m : Byte} (x : Byte) (h : base &&& m = 0) : (base ||| x &&& m) &&& m = x &&& m :=
  calc (base ||| x &&& m) &&& m
    _ = base &&& m ||| x &&& m &&& m := BitVec.and_or_distrib_right
    _ = 0 ||| x &&& m := by rw [h, BitVec.and_assoc, BitVec.and_self]
    _ = x &&& m := BitVec.zero_or

/-- The field of a packed byte is the masked operand (rules R65, R118). -/
theorem toNat_field_of_packed {base : Byte} {mask : Nat} (p : Nat) (hmask : mask < 256)
    (h : base &&& BitVec.ofNat 8 mask = 0) :
    ((base ||| lowField mask p) &&& BitVec.ofNat 8 mask).toNat = p &&& mask := by
  rw [lowField_eq_and, field_of_packed _ h, ← BitVec.ofNat_and, BitVec.toNat_ofNat]
  exact Nat.mod_eq_of_lt (Nat.and_le_right.trans_lt hmask)

/-- The laws of rule R118 for a command of format W2. -/
theorem packed_keeps_base {base : Byte} {mask : Nat} (p : Nat) (hmask : mask < 256)
    (h : base &&& BitVec.ofNat 8 mask = 0) :
    ∃ b, packed base mask p = [b] ∧ packed base mask (p &&& mask) = [b]
      ∧ (b &&& BitVec.ofNat 8 mask).toNat = p &&& mask ∧ b &&& ~~~BitVec.ofNat 8 mask = base := by
  refine ⟨_, rfl, ?_, toNat_field_of_packed p hmask h, packed_base p h⟩
  rw [packed, lowField_and p (Nat.and_self mask)]

/-- INV's byte has the truth value in bit 0 and the base above it (rule R106). -/
theorem inv_keeps_base {base : Byte} (f : Nat) (h : base &&& 0x01 = 0) :
    ((base ||| truthBit f) &&& 0x01).toNat = (if f ≠ 0 then 1 else 0) ∧ (base ||| truthBit f) &&& 0xFE = base := by
  rw [truthBit_under]
  refine ⟨?_, base_of_packed _ h⟩
  rw [field_of_packed _ h, ← truthBit_under, truthBit, apply_ite BitVec.toNat]
  rfl

/-- COL uses eight bits of its operand (rules R104, R118). -/
theorem colBytes_and (K : Codes) (c : Nat) : colBytes K (c &&& 0xFF) = colBytes K c := by
  have hhi : (c &&& 0xFF) >>> 4 = c >>> 4 &&& 0x0F := Nat.shiftRight_and_distrib
  have hlo : lowField 0x0F (c &&& 0xFF) = lowField 0x0F c := lowField_and c rfl
  rw [colBytes, nibblePair, hhi, lowField_and _ (Nat.and_self 0x0F), hlo, colBytes, nibblePair]

/-- Settles O8: `WF_CODES` leaves every base clear under its field's mask. -/
theorem packedFieldsKeepTheBase : Obligations.PackedFieldsKeepTheBase := by
  intro K p hK
  obtain ⟨-, hcontrast, hinvert, hscroll, hpage, hhi, hlo⟩ := (Codes.wf_iff K).mp hK
  refine ⟨packed_keeps_base p (by decide) hscroll, packed_keeps_base p (by decide) hpage,
    packed_keeps_base p (by decide) hcontrast, ⟨_, rfl, inv_keeps_base p hinvert⟩, ?_⟩
  exact ⟨_, _, rfl, colBytes_and K p, toNat_field_of_packed (p >>> 4) (by decide) hhi, packed_base (p >>> 4) hhi,
    toNat_field_of_packed p (by decide) hlo, packed_base p hlo⟩

end Sys2Proof.Machine
end

section
/-! The error entry (rule R178), and the end and the silent actions of an operation in progress (rule R142). -/

namespace Sys2Proof.Machine

/-- The kinds that leave `Failed` when they end INIT (rule R178, point 3). -/
theorem ErrKind.fatalToInit_iff {k : ErrKind} : k.fatalToInit = true ↔ k = .config ∨ k = .transport := by
  cases k <;> simp [ErrKind.fatalToInit]

/-- Settles O32, by whether the error is fatal to INIT. -/
theorem raiseWritesResultAndPhase : Obligations.RaiseWritesResultAndPhase := by
  intro k info s
  rw [← ErrKind.fatalToInit_iff]
  refine ⟨fun hop hk => ?_, fun h => ?_⟩
  · rw [raiseErr, if_pos ⟨hop, hk⟩]
    rfl
  · rw [raiseErr, if_neg h]
    rfl

/-- The phase an operation leaves when it ends `Ok` (rules R151, R152). -/
theorem commit_phase (o : Option Op) (s : State) :
    (commit o s).phase =
      if o = some .powerOff then .poweredOff else if o = some .powerOn then .poweredOn else s.phase := by
  rcases o with _ | o
  · rfl
  · cases o <;> rfl

/-- A step sets the phase that a `Phase` action names, which `upc` does not count (rule R144). -/
theorem step_phase {s : State} {p : Phase} {rest : List Action} (hb : s.busy = true)
    (hp : s.pending = .phase p :: rest) : step s = .next { s with phase := p, pending := rest } :=
  step_action hb hp (by rintro _ ⟨⟩)

/-- A step performs `Fill0`. -/
theorem step_fill0 {s : State} {rest : List Action} (hb : s.busy = true) (hp : s.pending = .fill0 :: rest) :
    step s = .next { s with fb := fillZero s.geo.n s.fb, pending := rest, upc := s.upc + 1 } :=
  step_action hb hp (by rintro _ ⟨⟩)

/-- Settles O51: the operation is finished with what it commits, and the two silent actions make their one write. -/
theorem stepInsideAnOperation : Obligations.StepInsideAnOperation := by
  refine ⟨fun s hb hp => ?_, fun s p rest hb hp => step_phase hb hp, fun s rest hb hp => ?_⟩
  · refine ⟨finish s, step_finished hb hp, ⟨rfl, rfl, rfl⟩, rfl, finish_results s, finish_trace s, commit_phase s.op s,
      fun l hop => ?_, fun b hop => ?_⟩
    · rw [finish_contrast, hop]; rfl
    · rw [finish_invert, hop]; rfl
  · refine ⟨_, step_fill0 hb hp, rfl, fun i hi => ?_, fun i hi => ?_⟩
    · exact (memRead_fillZero ..).trans (if_pos hi)
    · exact (memRead_fillZero ..).trans (if_neg (by omega))

end Sys2Proof.Machine
end

section
/-! INIT's plan (rules R132 to R144): the reset step, which alone holds delays and reset-line events, and then
transactions only; the byte stream and the lines of the whole plan answered `ok`. -/

namespace Sys2Proof.Machine

/-! ### The reset step and the transactions -/

/-- INIT's events after the reset step: the base list, the orientation pair, the clearing flush and DISP_ON (rules R135
to R139). -/
def initTransactions (p : Params) (c : Cfg) : List Planned :=
  (configCommands p.codes (c.rotationIn % 4)).flatMap (cmdEvents c)
    ++ flushEvents p.codes c (List.replicate (c.height / 8 * c.width) 0)
    ++ cmdEvents c [p.codes.displayOn]

theorem initEvents_eq (p : Params) (c : Cfg) : initEvents p c = resetEvents p c ++ initTransactions p c := by
  simp [initEvents, initTransactions]

theorem ofTransaction_of_initTransactions {p : Params} {c : Cfg} : ∀ e ∈ initTransactions p c, OfTransaction c e.2 := by
  simp only [initTransactions, flushEvents, List.forall_mem_append, List.forall_mem_flatMap]
  exact ⟨⟨fun _ _ => ofTransaction_of_cmdEvents, ⟨ofTransaction_of_cmdEvents, ofTransaction_of_cmdEvents⟩,
    ofTransaction_of_dataEvents⟩, ofTransaction_of_cmdEvents⟩

/-- What the reset step performs: delays, reset-line events if there is a line, the software reset if there is none
(rules R132, R133). -/
theorem mem_resetEvents {p : Params} {c : Cfg} {e : Planned} (h : e ∈ resetEvents p c) :
    (∃ d, e = (none, .delay d)) ∨ (c.hasRst = true ∧ ∃ l, e = (none, .setRst l))
    ∨ (c.hasRst = false ∧ e ∈ cmdEvents c [p.codes.softReset]) := by
  rw [resetEvents] at h
  split at h
  next hr =>
    simp only [List.mem_cons, List.not_mem_nil, or_false] at h
    rcases h with rfl | rfl | rfl | rfl | rfl
    · exact .inl ⟨_, rfl⟩
    · exact .inr (.inl ⟨hr, _, rfl⟩)
    · exact .inl ⟨_, rfl⟩
    · exact .inr (.inl ⟨hr, _, rfl⟩)
    · exact .inl ⟨_, rfl⟩
  next hr =>
    rcases List.mem_append.mp h with h | h
    · exact .inr (.inr ⟨by simpa using hr, h⟩)
    · exact .inl ⟨_, List.mem_singleton.mp h⟩

/-- What INIT performs: delays, reset-line events if there is a line, and events of transactions. -/
theorem mem_initEvents {p : Params} {c : Cfg} {e : Planned} (h : e ∈ initEvents p c) :
    (∃ d, e.2 = .delay d) ∨ (c.hasRst = true ∧ ∃ l, e.2 = .setRst l) ∨ OfTransaction c e.2 := by
  rw [initEvents_eq] at h
  rcases List.mem_append.mp h with h | h
  · rcases mem_resetEvents h with ⟨d, rfl⟩ | ⟨hr, l, rfl⟩ | ⟨-, h⟩
    · exact .inl ⟨d, rfl⟩
    · exact .inr (.inl ⟨hr, l, rfl⟩)
    · exact .inr (.inr (ofTransaction_of_cmdEvents _ h))
  · exact .inr (.inr (ofTransaction_of_initTransactions _ h))

/-- Without a reset line INIT drives none (rule R133). -/
theorem ne_setRst_of_initEvents {p : Params} {c : Cfg} {e : Planned} (hr : c.hasRst = false) (h : e ∈ initEvents p c)
    (l : RstLevel) : e.2 ≠ .setRst l := by
  rcases mem_initEvents h with ⟨d, hd⟩ | ⟨hr', -⟩ | ht
  · simp [hd]
  · cases hr.symm.trans hr'
  · exact ht.ne_setRst l

/-- In Bus INIT drives neither line of the Serial variant (rule R83). -/
theorem ne_setLine_of_initEvents {p : Params} {c : Cfg} {e : Planned} (hc : c.variant = .bus) (h : e ∈ initEvents p c) :
    (∀ l, e.2 ≠ .setDc l) ∧ ∀ l, e.2 ≠ .setCs l := by
  rcases mem_initEvents h with ⟨d, hd⟩ | ⟨-, l, hl⟩ | ht
  · simp [hd]
  · simp [hl]
  · obtain ⟨a, bs, hw⟩ := ht.isWrite hc
    simp [hw]

/-- A transaction holds no delay. -/
theorem OfTransaction.mayFail {c : Cfg} {e : Event} (h : OfTransaction c e) : e.mayFail = true := by
  obtain ⟨k, bs, h⟩ := h
  cases e with
  | delay d =>
    rw [transaction] at h
    split at h <;> simp at h
  | writeBytes | setDc | setCs | setRst => rfl

/-! ### The whole plan answered `ok` -/

/-- The stream of commands answered `ok`. -/
theorem bytesOf_commands (c : Cfg) (cmds : List (List Byte)) :
    bytesOf ((cmds.flatMap (cmdEvents c)).map okEntry) = cmds.flatten.map (fun b => (Tag.command, b)) := by
  induction cmds with
  | nil => rfl
  | cons bs cmds ih =>
    simp only [List.flatMap_cons, List.map_append, bytesOf_append, bytesOf_command, ih, List.flatten_cons]

/-- The reset step sends the software reset if there is no reset line, and nothing if there is one. -/
theorem bytesOf_reset (p : Params) (c : Cfg) :
    bytesOf ((resetEvents p c).map okEntry) =
      if c.hasRst then [] else [(Tag.command, p.codes.softReset)] := by
  rw [resetEvents]
  split
  · rfl
  · rw [List.map_append, bytesOf_append, bytesOf_command]
    rfl

/-- The stream of INIT's plan, part by part (rule R141). -/
theorem bytesOf_init (p : Params) (c : Cfg) :
    bytesOf ((initEvents p c).map okEntry) =
      (if c.hasRst then [] else [(Tag.command, p.codes.softReset)])
        ++ (configCommands p.codes (c.rotationIn % 4)).flatten.map (fun b => (Tag.command, b))
        ++ ([(Tag.command, p.codes.pageBase), (Tag.command, p.codes.colHiBase), (Tag.command, p.codes.colLoBase)]
          ++ List.replicate (c.height / 8 * c.width) (Tag.data, 0))
        ++ [(Tag.command, p.codes.displayOn)] := by
  simp only [initEvents, List.map_append, bytesOf_append, bytesOf_reset, bytesOf_commands, bytesOf_flush,
    bytesOf_command, List.map_replicate, List.map_cons, List.map_nil]

/-- In Serial INIT's plan leaves Command and Deasserted: its last transaction is DISP_ON's (rules R24, R139). -/
theorem lines_of_initEvents {c : Cfg} (hc : c.variant = .serial) (p : Params) (cs : CsLevel) (dc : DcLevel) :
    ((initEvents p c).map okEntry).foldl csAfter cs = .deasserted
      ∧ ((initEvents p c).map okEntry).foldl dcAfter dc = .command := by
  rw [initEvents, List.map_append, List.foldl_append, List.foldl_append]
  exact lines_of_command hc ..

/-- With a reset line INIT's plan leaves it released: the reset step releases it, and transactions leave it (rules R24,
R132). -/
theorem rst_of_initEvents {c : Cfg} (hc : c.hasRst = true) (p : Params) (l : RstLevel) :
    ((initEvents p c).map okEntry).foldl rstAfter l = .released := by
  have hreset : ((resetEvents p c).map okEntry).foldl rstAfter l = .released := by
    rw [resetEvents, if_pos hc]
    rfl
  rw [initEvents_eq, List.map_append, List.foldl_append, hreset]
  refine foldl_rstAfter _ _ fun e he => ?_
  obtain ⟨planned, hplanned, rfl⟩ := List.mem_map.mp he
  exact (ofTransaction_of_initTransactions planned hplanned).ne_setRst

end Sys2Proof.Machine
end

section
/-! An accepted INIT (rules R130, R134, R140, R141, R144): it performs its plan up to the first failure, ends in
`PoweredOn` or `Failed`, and keeps its frame. -/

namespace Sys2Proof.Machine

/-! ### The frame of INIT -/

/-- What an accepted INIT latches and computes, and what it leaves as it was, whether it ends `Ok` or in an error (rules
R10, R20, R25, R130). -/
structure InitFrame (cfg : Cfg) (s t : State) : Prop where
  params : t.params = s.params
  inputs : t.inputs = s.inputs
  cfgIn : t.cfgIn = s.cfgIn
  latched : t.cfg = cfg
  geo : t.geo = geometry s.params.codes cfg
  contrast : t.contrast = s.contrast
  invert : t.invert = s.invert
  reads : t.reads = s.reads
  rst : cfg.hasRst = false → t.rst = s.rst
  busLines : cfg.variant = .bus → t.dc = s.dc ∧ t.cs = s.cs

/-- INIT's events keep its frame: the reset line moves only if there is one, the other two only in Serial. -/
theorem Traced.initFrame {cfg : Cfg} {s u : State} {x : Option FailInfo} {new : List TraceEntry}
    (h : Traced (initEvents s.params cfg) (allocate (latchConfig cfg s)) x u new) : InitFrame cfg s u := by
  have planned : ∀ e ∈ new, (e.tag, e.event) ∈ initEvents s.params cfg := h.planned
  exact ⟨h.params, h.inputs, h.cfgIn, h.cfg, h.geo, h.contrast, h.invert, h.reads,
    fun hr => h.rst.trans (foldl_rstAfter _ _ fun e he => ne_setRst_of_initEvents hr (planned e he)),
    fun hc => ⟨h.dc.trans (foldl_dcAfter _ _ fun e he => (ne_setLine_of_initEvents hc (planned e he)).1),
      h.cs.trans (foldl_csAfter _ _ fun e he => (ne_setLine_of_initEvents hc (planned e he)).2)⟩⟩

/-- The report of a result is no part of the frame, nor is the phase. -/
theorem InitFrame.after_report {cfg : Cfg} {s u : State} (h : InitFrame cfg s u) (r : Result) (p : Phase) :
    InitFrame cfg s (report r { u with phase := p }) :=
  ⟨h.params, h.inputs, h.cfgIn, h.latched, h.geo, h.contrast, h.invert, h.reads, h.rst, h.busLines⟩

/-! ### How INIT ends -/

/-- INIT writes nothing at its end but the report: its phases are among its actions (rule R144). -/
theorem finish_of_init {u : State} (h : u.op = some .init) : finish u = report .ok u := by
  rw [finish, h]
  rfl

/-- A framebuffer just filled holds zeros (rule R142). -/
theorem holdsBytes_of_fillZero {t : State} {m : List Host.Cell} (h : t.fb = fillZero t.geo.n m) :
    HoldsBytes t (List.replicate t.geo.n 0) := by
  refine ⟨List.length_replicate, fun i hi => ?_⟩
  rw [h, memRead_fillZero, if_pos (by simpa using hi), List.getElem_replicate]

/-- An accepted INIT that led from `s` to `t` and performed the entries `new`. -/
structure InitOutcome (cfg : Cfg) (s t : State) (new : List TraceEntry) : Prop where
  trace : t.trace = s.trace ++ new
  performs : Performs (initEvents s.params cfg) new t.result
  answered : s.oracle.allOk → t.result = .ok
  phase : t.phase = if t.result = .ok then .poweredOn else .failed
  idle : Idle t
  results : t.results = s.results ++ [t.result]
  frame : InitFrame cfg s t
  zeroed : t.result = .ok → HoldsBytes t (List.replicate (cfg.height / 8 * cfg.width) 0)

/-- An accepted INIT completes, whatever the environment answers (rules R140, R144). -/
theorem InitAccepted.outcome {cfg : Cfg} {s : State} (ha : InitAccepted cfg s) :
    ∃ t new, exec (.init cfg) s = .next t ∧ InitOutcome cfg s t new := by
  rcases execInit_spec cfg s ha with ⟨new, u, hu, htr, hphase, hfb⟩ | ⟨new, u, x, _, hu, htr, -⟩
  · rw [finish_of_init htr.op] at hu
    have hframe := htr.initFrame.after_report .ok u.phase
    refine ⟨report .ok u, new, hu, htr.trace, .inl ⟨htr.complete, rfl⟩, fun _ => rfl, hphase.trans (if_pos rfl).symm,
      ⟨rfl, rfl, rfl⟩, congrArg (· ++ [Result.ok]) htr.results, hframe, fun _ => ?_⟩
    have hn : (report .ok u).geo.n = cfg.height / 8 * cfg.width := congrArg Geometry.n hframe.geo
    rw [← hn]
    exact holdsBytes_of_fillZero (m := []) (by rw [hn]; exact hfb)
  · have hop : u.op = some .init := htr.op
    have hframe : InitFrame cfg s (raiseErr .transport (some x) u) := htr.initFrame.after_report _ _
    refine ⟨raiseErr .transport (some x) u, new, hu, htr.trace, .inr htr.failure, fun ho => ?_, ?_, ⟨rfl, rfl, rfl⟩,
      congrArg (· ++ [Result.err .transport (some x)]) htr.results, hframe, by rintro ⟨⟩⟩
    · cases htr.ok_of_allOk ho
    · simp [hop, ErrKind.fatalToInit]

/-- Settles O16: what INIT latches, performs, ends with and leaves, read off its outcome. -/
theorem initRunsItsActionList : Obligations.InitRunsItsActionList := by
  intro cfg s ha
  obtain ⟨t, new, hex, ho⟩ := ha.outcome
  have hf := ho.frame
  exact ⟨t, new, hex, ho.trace, ho.performs, ho.phase, ho.idle, ho.results, hf.latched, hf.geo, ho.zeroed, hf.contrast,
    hf.invert, hf.params, hf.inputs, hf.cfgIn, hf.reads, hf.rst, hf.busLines⟩

/-! ### INIT with every event answered `ok` -/

/-- What ended `Ok` has performed its whole plan. -/
theorem Performs.complete {plan : List Planned} {new : List TraceEntry} (h : Performs plan new .ok) :
    new = plan.map okEntry := by
  rcases h with ⟨h, -⟩ | ⟨_, _, _, _, -, -, -, hr⟩
  · exact h
  · cases hr

/-- Settles O17: the whole plan is performed, and its stream and lines are read off. -/
theorem initByteStream : Obligations.InitByteStream := by
  intro cfg s ha ho
  obtain ⟨t, new, hex, hout⟩ := ha.outcome
  have hres := hout.answered ho
  obtain rfl := (hres ▸ hout.performs).complete
  obtain ⟨new, htrace, hdc, hcs, hrst⟩ := lineRegistersFollowTheTrace _ s t hex
  obtain rfl := List.append_cancel_left (hout.trace.symm.trans htrace)
  refine ⟨t, _, hex, htrace, hres, hout.phase.trans (if_pos hres), ?_, fun hc => ?_, fun hr => ?_⟩
  · rw [bytesOf_init]
    simp [configCommands]
  · rw [hdc, hcs]
    exact (lines_of_initEvents hc ..).symm
  · rw [hrst]
    exact rst_of_initEvents hr ..

/-! ### The delays of INIT -/

/-- The plan starts with what is performed (rule R85). -/
theorem Performs.starts_plan {plan : List Planned} {new : List TraceEntry} {r : Result} (h : Performs plan new r) :
    new.map (fun e => (e.tag, e.event)) <+: plan := by
  rcases h with ⟨rfl, -⟩ | ⟨before, e, after, x, rfl, -, rfl, -⟩
  · simp [okEntry, Function.comp_def]
  · exact ⟨after, by simp [okEntry, failEntry, Function.comp_def]⟩

/-- Where `a ++ b` starts with a list, an element of the list that something outside `b` follows in it is in `a`. -/
theorem mem_of_followed {α : Type} {a b pre post : List α} {x y : α} (h : pre ++ x :: post <+: a ++ b) (hy : y ∈ post)
    (hb : y ∉ b) : x ∈ a := by
  obtain ⟨rest, h⟩ := h
  have h : (pre ++ [x]) ++ (post ++ rest) = a ++ b := by simpa using h
  rcases List.append_eq_append_iff.mp h with ⟨c, rfl, -⟩ | ⟨c, -, rfl⟩
  · simp
  · exact absurd (List.mem_append_right c (List.mem_append_left rest hy)) hb

/-- Settles O41: a delay is planned in the reset step, and so is a write before it, which is the software reset. -/
theorem noCommandWhileTheChipSettles : Obligations.NoCommandWhileTheChipSettles := by
  intro cfg s t before after w a bs ha hex htrace hw ⟨d, hd, hdelay⟩
  obtain ⟨t', new, hex', ho⟩ := ha.outcome
  cases hex'.symm.trans hex
  obtain rfl : new = before ++ w :: after := by
    rw [List.append_assoc] at htrace
    exact List.append_cancel_left (ho.trace.symm.trans htrace)
  have hplan := ho.performs.starts_plan
  rw [initEvents_eq, List.map_append, List.map_cons] at hplan
  have hnot : (d.tag, d.event) ∉ initTransactions s.params cfg := fun h => by
    cases hdelay.symm.trans (ofTransaction_of_initTransactions _ h).mayFail
  have hwrite := mem_of_followed hplan (List.mem_map_of_mem hd) hnot
  rw [hw] at hwrite
  rcases mem_resetEvents hwrite with ⟨_, h⟩ | ⟨-, _, h⟩ | ⟨hr, h⟩
  · simp at h
  · simp at h
  · exact ⟨hr, write_of_cmdEvents h⟩

end Sys2Proof.Machine
end

section
/-! Where INIT and the runtime operations only report an error: a missing line (rule R131), a phase outside theirs (rule
R174), and so everything in `Failed` (rule R179). -/

namespace Sys2Proof.Machine

/-! ### Missing lines -/

/-- INIT in `Uninitialized` with legal arguments and a missing line reports `Err(CONFIG)` after latching (rules R130.1,
R131). -/
theorem execInit_missingLine {cfg : Cfg} {s : State} (hb : s.busy = false) (hp : s.phase = .uninitialized)
    (hw : s.params.wf = true) (hc : cfg.wf s.params = true) (hl : cfg.lacksLine = true) :
    exec (.init cfg) s = .next (raiseErr .config none (latchConfig cfg s)) := by
  simp [exec, execInit, hb, hp, hw, hc, hl]

theorem Cfg.lacksLine_of_serial {c : Cfg} (hc : c.variant = .serial) (h : c.hasDc = false ∨ c.hasCs = false) :
    c.lacksLine = true := by
  rcases h with h | h <;> simp [Cfg.lacksLine, hc, h]

theorem Cfg.lacksLine_of_bus {c : Cfg} (hc : c.variant = .bus) : c.lacksLine = false := by
  simp [Cfg.lacksLine, hc]

/-- INIT's list fails by the transport only (rule R140). -/
theorem Performs.code_ne_config {plan : List Planned} {new : List TraceEntry} {r : Result} (h : Performs plan new r) :
    r.code ≠ 1 := by
  rcases h with ⟨-, rfl⟩ | ⟨_, _, _, x, -, -, -, rfl⟩
  · simp [Result.code]
  · simp [Result.code, ErrKind.code]

/-- A completed INIT of a Bus configuration never reports `Err(CONFIG)`: it is outside its phase, or accepted. -/
theorem execInit_bus_code {cfg : Cfg} {s t : State} (hc : cfg.variant = .bus) (h : exec (.init cfg) s = .next t) :
    t.result.code ≠ 1 := by
  have hb : s.busy = false := by
    cases hb : s.busy with
    | false => rfl
    | true => cases (execInit_busy hb cfg).symm.trans h
  have accepted : InitAccepted cfg s → t.result.code ≠ 1 := fun ha => by
    obtain ⟨t', new, hex, ho⟩ := ha.outcome
    cases hex.symm.trans h
    exact ho.performs.code_ne_config
  rcases execInit_next hb h with ⟨-, rfl⟩ | ⟨hp, hw, hcfg, -⟩ | ha
  · simp [Result.code, ErrKind.code]
  · exact accepted ⟨hb, hp, hw, hcfg, Cfg.lacksLine_of_bus hc⟩
  · exact accepted ha

/-- Settles O18: the error entry after the latch, and a Bus configuration lacks no line. -/
theorem initRejectsMissingLines : Obligations.InitRejectsMissingLines := by
  refine ⟨fun cfg s hs hp hw hc hv hl => ?_, fun cfg s t hv h => execInit_bus_code hv h⟩
  obtain ⟨hb, hop, hpending⟩ := hs
  rw [execInit_missingLine hb hp hw hc (Cfg.lacksLine_of_serial hv hl),
    (raiseWritesResultAndPhase .config none _).1 rfl (.inl rfl)]
  cases s
  simp_all [latchConfig, accept, reporting]

/-! ### Phases -/

/-- A runtime operation outside the post-init phases reports `Err(STATE)` (rule R174). -/
theorem execRuntime_outsidePhase {i : Instr} {s : State} (hi : isRuntime i) (hb : s.busy = false)
    (hp : s.phase.postInit = false) : exec i s = .next (raiseErr .state none s) := by
  have outside : ∀ o as, runtimeOp o as s = .next (raiseErr .state none s) := fun o as => by simp [runtimeOp, hb, hp]
  rcases hi with rfl | rfl | ⟨level, rfl⟩ | ⟨flag, rfl⟩ | rfl <;> exact outside ..

/-- Settles O19: the error entry, which with no operation in progress only reports. -/
theorem stateErrorOutsideThePhases : Obligations.StateErrorOutsideThePhases := by
  refine ⟨fun cfg s hs hp => ?_, fun i s hi hs hp => ?_⟩
  · rw [execInit_outsidePhase hs.1 hp, raiseErr_eq_reporting hs rfl]
  · rw [execRuntime_outsidePhase hi hs.1 hp, raiseErr_eq_reporting hs rfl]

/-! ### `Failed` -/

/-- In `Failed` every host command word ends in an error that is not fatal to INIT (rules R175, R179). -/
theorem exec_hcw_failed {s : State} (hb : s.busy = false) (hp : s.phase = .failed) (c : Cfg) (w : Hcw) :
    ∃ k, k.fatalToInit = false ∧ exec (decodeHcw c w) s = .next (raiseErr k none s) := by
  rcases decodeHcw_cases c w with hd | hd | hd
  · exact ⟨.state, rfl, by rw [hd]; exact execInit_outsidePhase hb (by simp [hp])⟩
  · exact ⟨.state, rfl, execRuntime_outsidePhase hd hb (by rw [hp]; rfl)⟩
  · exact ⟨.illegalOp, rfl, execReserved_idle hd hb⟩

/-- A port access leaves the phase and the trace alone (rules R159, R160). -/
theorem execPort_keeps {i : Nat} {e : Instr} {s t : State} (hb : s.busy = false) (he : e = .fbr i ∨ ∃ v, e = .fbw i v)
    (h : exec e s = .next t) : t.phase = s.phase ∧ t.trace = s.trace := by
  rcases execPort_next hb he h with ⟨v, -, -, rfl⟩ | ⟨v, rfl⟩ <;> exact ⟨rfl, rfl⟩

/-- Settles O48: by the host's next step, and by the phases of the six operations. -/
theorem failedUntilHardwareReset : Obligations.FailedUntilHardwareReset := by
  refine ⟨fun s t hb hp h hreset => ?_, fun i s hs hp hi => ?_⟩
  · rcases step_idle_next hb h with
      rfl | ⟨w, rest, -, ht⟩ | ⟨i, e, rest, he, ht⟩ | ⟨cfg, rest, rfl⟩ | ⟨rest, hin, -⟩
    · exact ⟨hp, rfl⟩
    · obtain ⟨k, hk, hex⟩ := exec_hcw_failed (s := { s with inputs := rest }) hb hp s.cfgIn w
      cases hex.symm.trans ht
      exact ⟨by simp [hk, hp], rfl⟩
    · obtain ⟨hphase, htrace⟩ := execPort_keeps (s := { s with inputs := rest }) hb he ht
      exact ⟨hphase.trans hp, htrace⟩
    · exact ⟨hp, rfl⟩
    · exact absurd hin (hreset rest)
  · rcases hi with hi | ⟨cfg, rfl⟩
    · exact stateErrorOutsideThePhases.2 i s hi hs (by rw [hp]; rfl)
    · exact stateErrorOutsideThePhases.1 cfg s hs (by simp [hp])

end Sys2Proof.Machine
end

section
/-! A runtime operation issued twice (rule R158): answered `ok` it leaves a state in which it is accepted again, with
the same action list, whatever the shadows hold. -/

namespace Sys2Proof.Machine

/-- What an operation commits keeps the phase post-init (rules R151, R152). -/
theorem commit_postInit (o : Op) {s : State} (h : s.phase.postInit = true) :
    (commit (some o) s).phase.postInit = true := by
  cases o with
  | powerOff | powerOn => rfl
  | init | contrast | invert | flush => exact h

theorem Commits.postInit {o : Op} {s t : State} (h : Commits o s t) (hs : s.phase.postInit = true) :
    t.phase.postInit = true := by
  rw [h.phase]
  split
  · exact commit_postInit o hs
  · exact hs

theorem HoldsBytes.of_runtimeFrame {s t : State} {vs : List Byte} (h : HoldsBytes s vs) (hframe : RuntimeFrame s t) :
    HoldsBytes t vs := by
  rw [HoldsBytes, hframe.geo, hframe.fb]
  exact h

/-- With every event answered `ok` an accepted runtime operation performs its whole plan, and leaves all that its
acceptance and its plan rest on (rules R88, R150). -/
theorem runtime_allOk {i : Instr} {s : State} {vs : List Byte} (hi : isRuntime i) (hr : Ready s) (hv : HoldsBytes s vs)
    (ho : s.oracle.allOk) :
    ∃ t, exec i s = .next t ∧ t.trace = s.trace ++ (runtimeEvents s.params.codes s.cfg vs i).map okEntry
      ∧ Ready t ∧ HoldsBytes t vs ∧ t.oracle.allOk ∧ RuntimeFrame s t := by
  obtain ⟨o, hcompletes⟩ := completes_runtime hi hr hv
  obtain ⟨t, hex, htrace, -, hok, ⟨hbusy, -, -⟩, hframe, hcommits⟩ := hcompletes.allOk ho
  obtain ⟨-, hphase⟩ := hr
  exact ⟨t, hex, htrace, ⟨hbusy, hcommits.postInit hphase⟩, hv.of_runtimeFrame hframe, hok, hframe⟩

theorem cmdEvents_ne_nil (c : Cfg) (bs : List Byte) : cmdEvents c bs ≠ [] := by
  rw [cmdEvents]
  split
  · exact List.cons_ne_nil _ _
  · exact List.cons_ne_nil _ _

/-- Every runtime operation sends at least one command (rules R151 to R155). -/
theorem runtimeEvents_ne_nil {i : Instr} (hi : isRuntime i) (K : Codes) (c : Cfg) (vs : List Byte) :
    runtimeEvents K c vs i ≠ [] := by
  rcases hi with rfl | rfl | ⟨level, rfl⟩ | ⟨flag, rfl⟩ | rfl
  · exact cmdEvents_ne_nil _ _
  · exact cmdEvents_ne_nil _ _
  · exact cmdEvents_ne_nil _ _
  · exact cmdEvents_ne_nil _ _
  · simp [runtimeEvents, flushEvents, cmdEvents_ne_nil]

/-- Settles O28: what the first run leaves is accepted again, with the plan that codes, configuration and framebuffer
give, all of them kept. -/
theorem sameOperationTwiceSendsTwice : Obligations.SameOperationTwiceSendsTwice := by
  intro i s vs hi hr hv ho
  obtain ⟨t, hex, htrace, htready, htbytes, htok, hframe⟩ := runtime_allOk hi hr hv ho
  obtain ⟨u, hex', utrace, -⟩ := runtime_allOk hi htready htbytes htok
  rw [hframe.params, hframe.cfg] at utrace
  exact ⟨t, u, _, hex, hex', rfl, mt List.map_eq_nil_iff.mp (runtimeEvents_ne_nil hi _ _ _), htrace, utrace⟩

end Sys2Proof.Machine
end

section
/-! Operands out of their range (rule R173): the executor reads of the configuration only what forms a transaction, so
that two rotations with the same low two bits give the same INIT, but for the latched `rotation_in`. -/

namespace Sys2Proof.Machine

/-! ### The executor and the latched rotation -/

/-- `s` with another `rotation_in` in its configuration registers (rule R10). -/
def withRotationIn (r : Nat) (s : State) : State := { s with cfg := { s.cfg with rotationIn := r } }

/-- How an action ended, its state changed by `f`. -/
def Performed.onState (f : State → State) : Performed → Performed
  | .ok s => .ok (f s)
  | .failed x s => .failed x (f s)
  | .fault e => .fault e

theorem performedOf_map (f : State → State) (r : Option FailInfo × State) :
    performedOf (r.map id f) = (performedOf r).onState f := by
  rcases r with ⟨_ | x, s⟩
  · rfl
  · rfl

theorem driveLine_withRotationIn (r : Nat) (e : Event) (s : State) :
    driveLine e (withRotationIn r s) = withRotationIn r (driveLine e s) := by
  cases e <;> rfl

theorem emitAnswered_withRotationIn (r : Nat) (k : Option Tag) (e : Event) (s : State) :
    emitAnswered k e (withRotationIn r s) = (emitAnswered k e s).map id (withRotationIn r) := by
  have horacle : (withRotationIn r s).oracle.next = s.oracle.next := rfl
  rcases hn : s.oracle.next with ⟨_ | x, o⟩
  · simp only [emitAnswered, horacle, hn]
    exact congrArg (Prod.mk none) (driveLine_withRotationIn r e (record k e .ok { s with oracle := o }))
  · simp only [emitAnswered, horacle, hn]
    rfl

theorem emit_withRotationIn (r : Nat) (k : Option Tag) (e : Event) (s : State) :
    emit k e (withRotationIn r s) = (emit k e s).map id (withRotationIn r) := by
  cases e with
  | delay t => rfl
  | writeBytes | setDc | setCs | setRst => exact emitAnswered_withRotationIn ..

theorem emitAll_withRotationIn (r : Nat) (k : Option Tag) (es : List Event) (s : State) :
    emitAll k es (withRotationIn r s) = (emitAll k es s).map id (withRotationIn r) := by
  induction es generalizing s with
  | nil => rfl
  | cons e es ih =>
    rw [emitAll, emitAll, emit_withRotationIn]
    rcases emit k e s with ⟨_ | x, u⟩
    · exact ih u
    · rfl

/-- A transaction's events do not depend on the rotation (rules R81 to R84). -/
theorem send_withRotationIn (r : Nat) (k : Tag) (bs : List Byte) (s : State) :
    send k bs (withRotationIn r s) = (send k bs s).map id (withRotationIn r) :=
  emitAll_withRotationIn r (some k) (transaction s.cfg k bs) s

theorem perform_withRotationIn (r : Nat) (a : Action) (s : State) :
    perform a (withRotationIn r s) = (perform a s).onState (withRotationIn r) := by
  cases a with
  | cmd bs => rw [perform, perform, send_withRotationIn, performedOf_map]
  | data =>
    have hbytes : framebufferBytes (withRotationIn r s) = framebufferBytes s := rfl
    rw [perform, perform, hbytes]
    cases framebufferBytes s with
    | none => rfl
    | some bs => simp only [send_withRotationIn, performedOf_map]
  | line | wait => rw [perform, perform, emitAll_withRotationIn, performedOf_map]
  | fill0 | phase => rfl

theorem finish_withRotationIn (r : Nat) (s : State) :
    finish (withRotationIn r s) = withRotationIn r (finish s) := by
  have hcommit : commit s.op (withRotationIn r s) = withRotationIn r (commit s.op s) := by
    rcases s.op with _ | o
    · rfl
    · cases o <;> rfl
  exact congrArg (report .ok) hcommit

/-- A run that completes does so with any `rotation_in` latched, and leaves it latched (rule R142). -/
theorem run_withRotationIn (r : Nat) {as : List Action} {s t : State} (h : run as s = .next t) :
    run as (withRotationIn r s) = .next (withRotationIn r t) := by
  induction as generalizing s with
  | nil =>
    cases h
    exact congrArg _ (finish_withRotationIn r s)
  | cons a as ih =>
    have hpending : { withRotationIn r s with pending := as } = withRotationIn r { s with pending := as } := rfl
    rw [run, turn] at h ⊢
    rw [hpending, perform_withRotationIn]
    cases hp : perform a { s with pending := as } with
    | ok u =>
      rw [hp] at h
      exact ih h
    | failed x u =>
      rw [hp] at h
      cases h
      rfl
    | fault e =>
      rw [hp] at h
      cases h

/-! ### INIT and its rotation -/

/-- The rotation takes part in no check of INIT (rules R10, R131). -/
theorem InitAccepted.withRotationIn {cfg : Cfg} {s : State} (h : InitAccepted cfg s) (r : Nat) :
    InitAccepted { cfg with rotationIn := r } s :=
  ⟨h.idle, h.fresh, h.params, h.config, h.lines⟩

/-- The effective rotation is the low two bits of `rotation_in` (rule R12). -/
theorem effectiveRotation_congr {r r' : Nat} (h : r % 4 = r' % 4) : effectiveRotation r = effectiveRotation r' :=
  Fin.ext (by rw [effectiveRotation_val, effectiveRotation_val, h])

/-- INIT starts its list with the same derived registers for rotations that mask alike (rules R12, R130). -/
theorem allocate_latchConfig_rotation {cfg : Cfg} {r : Nat} (h : r % 4 = cfg.rotationIn % 4) (s : State) :
    allocate (latchConfig { cfg with rotationIn := r } s) = withRotationIn r (allocate (latchConfig cfg s)) := by
  have hgeo : geometry s.params.codes { cfg with rotationIn := r } = geometry s.params.codes cfg := by
    simp only [geometry, effectiveRotation_congr h]
  exact congrArg (fun g => { allocate (latchConfig { cfg with rotationIn := r } s) with geo := g }) hgeo

/-- Rotations that mask alike give the same INIT, but for the latched `rotation_in` (rules R10, R12). -/
theorem execInit_rotation_congr {cfg : Cfg} {r : Nat} {s t : State} (hr : r % 4 = cfg.rotationIn % 4)
    (ha : InitAccepted cfg s) (h : exec (.init cfg) s = .next t) :
    exec (.init { cfg with rotationIn := r }) s = .next { t with cfg := { cfg with rotationIn := r } } := by
  have hlatched : t.cfg = cfg := (ha.leaves h).latched
  rw [execInit_accepted cfg s ha] at h
  rw [execInit_accepted _ s (ha.withRotationIn r), effectiveRotation_congr hr, allocate_latchConfig_rotation hr,
    run_withRotationIn r h, withRotationIn, hlatched]

/-- Settles O31: each operand acts through its masked or truth value, and answered `ok` the operations end `Ok`. -/
theorem outOfRangeOperandsAreMasked : Obligations.OutOfRangeOperandsAreMasked := by
  refine ⟨fun level s => ?_, fun flag s hflag => ?_, fun cfg s t ha h => ?_, fun level flag s hr ho => ⟨?_, ?_⟩,
    fun cfg s ha ho => ?_⟩
  · exact execContrast_congr (Nat.mod_mod level 8).symm s
  · exact execInvert_congr (by simp [hflag]) s
  · exact execInit_rotation_congr (Nat.mod_mod cfg.rotationIn 4) ha h
  · obtain ⟨t, hex, -, hres, -⟩ := (completes_contrast hr level).allOk ho
    exact ⟨t, hex, hres⟩
  · obtain ⟨t, hex, -, hres, -⟩ := (completes_invert hr flag).allOk ho
    exact ⟨t, hex, hres⟩
  · obtain ⟨t, _, hex, hout⟩ := ha.outcome
    exact ⟨t, hex, hout.answered ho⟩

end Sys2Proof.Machine
end

section
/-! What hardware reset leaves (rules R24, R190), and the framing of the Serial variant (rules R52, R195): a plan of whole
transactions, reset-line events and delays keeps it, and so does the part of such a plan up to a failure. -/

namespace Sys2Proof.Machine

/-- Settles O57: each register has its reset value by definition. -/
theorem resetRegisters : Obligations.ResetRegisters := ⟨rfl, rfl, rfl, rfl, rfl, rfl, rfl⟩

/-- An event answered `ok` keeps the framing if it is allowed where it stands and the rest keeps the framing after it. -/
theorem framed_okEntry_cons {f : Framing} {e : Planned} {tr : List TraceEntry} :
    framed f (okEntry e :: tr) = true ↔ ∃ f', f.next (okEntry e) = some f' ∧ framed f' tr = true := by
  have hans : (okEntry e).answer = .ok := rfl
  rw [framed]
  cases f.next (okEntry e) with
  | none => simp
  | some f' => simp [hans]

/-- An event that failed, with nothing after it, keeps the framing if the event is allowed: the framing does not look at
the answer (rule R85). -/
theorem framed_failEntry {f f' : Framing} {e : Planned} (x : FailInfo) (h : f.next (okEntry e) = some f') :
    framed f [failEntry x e] = true := by
  have hnext : f.next (failEntry x e) = some f' := h
  rw [framed, hnext]
  rfl

/-- A plan that keeps the framing when completed keeps it up to any event that fails. -/
theorem framed_of_failed {f : Framing} {before after : List Planned} {e : Planned} (x : FailInfo)
    (h : framed f ((before ++ e :: after).map okEntry) = true) :
    framed f (before.map okEntry ++ [failEntry x e]) = true := by
  induction before generalizing f with
  | nil =>
    obtain ⟨f', hf, -⟩ := framed_okEntry_cons.mp h
    exact framed_failEntry x hf
  | cons b before ih =>
    obtain ⟨f', hf, hrest⟩ := framed_okEntry_cons.mp h
    exact framed_okEntry_cons.mpr ⟨f', hf, ih hrest⟩

/-- In Serial a completed piece begins and ends outside a transaction (rules R81, R82, R195). -/
theorem Piece.framed_append {c : Cfg} {as : List Action} {p : List Planned} (h : Piece c as p)
    (hc : c.variant = .serial) (tr : List TraceEntry) :
    framed .outside (p.map okEntry ++ tr) = framed .outside tr := by
  rcases h with ⟨bs, -, rfl⟩ | ⟨vs, rfl⟩ | ⟨l, rfl⟩ | ⟨d, rfl⟩
  · rw [cmdEvents, hc]; rfl
  · rw [dataEvents, hc]; rfl
  · rfl
  · rfl

/-- In Serial pieces completed one after the other keep the framing. -/
theorem framed_flatten_pieces {c : Cfg} {as : List Action} {ps : List (List Planned)} (hc : c.variant = .serial)
    (h : ∀ p ∈ ps, Piece c as p) : framed .outside (ps.flatten.map okEntry) = true := by
  induction ps with
  | nil => rfl
  | cons p ps ih =>
    obtain ⟨hp, hps⟩ := List.forall_mem_cons.mp h
    rw [List.flatten_cons, List.map_append, hp.framed_append hc]
    exact ih hps

/-- Settles O40: an instruction performs pieces up to the first event that fails. -/
theorem serialTransactionsAreFramed : Obligations.SerialTransactionsAreFramed := by
  intro i s t new h hc htrace
  obtain ⟨ps, x, new', hout, hpieces, -⟩ := exec_outward i s t h
  obtain rfl : new = new' := List.append_cancel_left (htrace.symm.trans hout.trace)
  have hplan := framed_flatten_pieces hc hpieces
  rcases hout.ended with ⟨-, rfl⟩ | ⟨before, e, after, y, hsplit, -, rfl, -⟩
  · exact hplan
  · exact framed_of_failed y (hsplit ▸ hplan)

end Sys2Proof.Machine
end
